-- ==== Sys2Proof/Word.lean ====
section
/-! DEFINITION. The data types of the CORE: command words, bytes, samples, symbols, and the one form every
memory and table is held in. -/

namespace Sys2Proof

/-- A command word (30_encoding R70). -/
abbrev Word := BitVec 16

/-- An element of BYTES and of the code-length table (10_state R37, R38, R43). -/
abbrev Byte := BitVec 8

/-- An element of SAMP (10_state R45). -/
abbrev Sample := BitVec 16

/-- A magnitude category SSSS, 0 to 16 (00_scope R7; 40_huffman_builder R102 lets no other value into a table). -/
abbrev Symbol := Fin 17

/-- An indexed space as plain data: the written elements with their indices, indices strictly rising
(`Memory.wf`). An index that is not listed has not been written. `Memory Byte` is a list of `Host.Cell`. -/
abbrev Memory (α : Type) := List (Nat × α)

/-- A table's code-to-symbol map, keyed by sentinel-prefixed codes (00_scope R12, 10_state R40). -/
abbrev CodeMap := Memory Symbol

/-- min_code_length and max_code_length of a table, 5 bits each (10_state R41). -/
structure Lengths where
  min : BitVec 5
  max : BitVec 5
  deriving DecidableEq, Repr

/-- A built registry slot (10_state R39 to R41): one with valid = 1. `lens` is `none` when the map is empty,
because the lengths then hold no value (R41, R108; 93 U1). -/
structure HuffTable where
  map  : CodeMap
  lens : Option Lengths
  deriving DecidableEq, Repr

end Sys2Proof
end

