-- ==== Sys2Proof/Machine/Mem.lean ====
section
/-! DEFINITION. Reading and writing an indexed space (20_memory R50): the one place where the canonical form of a
memory is kept. -/

namespace Sys2Proof

/-- The element at `index`, or `none` where nothing has been written. -/
def Memory.read {α : Type} : Memory α → Nat → Option α
  | [], _ => none
  | (i, v) :: rest, index => if index = i then some v else Memory.read rest index

/-- The memory with `value` at `index`: replaces or inserts, keeping the indices rising. -/
def Memory.write {α : Type} : Memory α → Nat → α → Memory α
  | [], index, value => [(index, value)]
  | (i, v) :: rest, index, value =>
    if index < i then (index, value) :: (i, v) :: rest
    else if index = i then (index, value) :: rest
    else (i, v) :: Memory.write rest index value

/-- The memory with `values` written at `start`, `start + 1`, ..., in that order. -/
def Memory.writeList {α : Type} : Memory α → Nat → List α → Memory α
  | m, _, [] => m
  | m, start, v :: vs => Memory.writeList (Memory.write m start v) (start + 1) vs

/-- The canonical form: indices strictly rising, so that equal memories are equal lists. An unlisted index reads as
"not written", which no entry equals. -/
def Memory.wf {α : Type} : Memory α → Bool
  | [] => true
  | (_, _) :: [] => true
  | (i, _) :: (j, w) :: rest => decide (i < j) && Memory.wf ((j, w) :: rest)

end Sys2Proof
end

