-- ==== Sys2Proof/Syntax.lean ====
section
/-! DEFINITION. The instructions: one constructor per row of spec/opcode_table.json, the seven commands of format
CMD16 (30_encoding R72) and the seventeen difference codewords of format DIFF (R81, R82, R86). -/

namespace Sys2Proof

/-- The rows of the opcode table. A codeword's operands are `code`, the whole Huffman code of its symbol as a
sentinel-prefixed integer of at most 17 bits (00_scope R8, R12), and `extra`, its SSSS extra bits read as an
unsigned number with the first bit as the most significant (30_encoding R83). -/
inductive Instr where
  /-- HTBUILD key: build a Huffman table from CLT into HT[key]. -/
  | htbuild (key : Byte)
  /-- BSEXTRACT: de-stuff BYTES from BCUR into BITS. -/
  | bsextract
  /-- EDDIFF key: decode one difference with HT[key] into DIFF. -/
  | eddiff (key : Byte)
  /-- PRINIT: empty the sample buffer. -/
  | prinit
  /-- PRSAMPLE: reconstruct one sample. -/
  | prsample
  /-- PRSCAN: reconstruct samples until the buffer is full. -/
  | prscan
  /-- SCAN: BSEXTRACT, then PRINIT, then PRSCAN. -/
  | scan
  /-- DIFF.SSSS0: the codeword of category 0. -/
  | diffSsss0 (code : BitVec 17)
  /-- DIFF.SSSS1: the codeword of category 1. -/
  | diffSsss1 (code : BitVec 17) (extra : BitVec 1)
  /-- DIFF.SSSS2: the codeword of category 2. -/
  | diffSsss2 (code : BitVec 17) (extra : BitVec 2)
  /-- DIFF.SSSS3: the codeword of category 3. -/
  | diffSsss3 (code : BitVec 17) (extra : BitVec 3)
  /-- DIFF.SSSS4: the codeword of category 4. -/
  | diffSsss4 (code : BitVec 17) (extra : BitVec 4)
  /-- DIFF.SSSS5: the codeword of category 5. -/
  | diffSsss5 (code : BitVec 17) (extra : BitVec 5)
  /-- DIFF.SSSS6: the codeword of category 6. -/
  | diffSsss6 (code : BitVec 17) (extra : BitVec 6)
  /-- DIFF.SSSS7: the codeword of category 7. -/
  | diffSsss7 (code : BitVec 17) (extra : BitVec 7)
  /-- DIFF.SSSS8: the codeword of category 8. -/
  | diffSsss8 (code : BitVec 17) (extra : BitVec 8)
  /-- DIFF.SSSS9: the codeword of category 9. -/
  | diffSsss9 (code : BitVec 17) (extra : BitVec 9)
  /-- DIFF.SSSS10: the codeword of category 10. -/
  | diffSsss10 (code : BitVec 17) (extra : BitVec 10)
  /-- DIFF.SSSS11: the codeword of category 11. -/
  | diffSsss11 (code : BitVec 17) (extra : BitVec 11)
  /-- DIFF.SSSS12: the codeword of category 12. -/
  | diffSsss12 (code : BitVec 17) (extra : BitVec 12)
  /-- DIFF.SSSS13: the codeword of category 13. -/
  | diffSsss13 (code : BitVec 17) (extra : BitVec 13)
  /-- DIFF.SSSS14: the codeword of category 14. -/
  | diffSsss14 (code : BitVec 17) (extra : BitVec 14)
  /-- DIFF.SSSS15: the codeword of category 15. -/
  | diffSsss15 (code : BitVec 17) (extra : BitVec 15)
  /-- DIFF.SSSS16: the codeword of category 16. -/
  | diffSsss16 (code : BitVec 17)
  deriving DecidableEq, Repr

end Sys2Proof
end

