-- ==== Sys2Proof/WellFormed.lean ====
section
/-! DEFINITION. Which instructions are well formed. A command's operand is any 8-bit key (30_encoding R73). A
codeword's code is a sentinel-prefixed code of 1 to 16 bits: an integer in 2 .. 2^17 - 1 (00_scope R8, R12); the
extra bits are exactly SSSS bits by their type. -/

namespace Sys2Proof

/-- A sentinel-prefixed code with at least one code bit: 0 has no sentinel and 1 is the empty code (00_scope R12). -/
def codeWf (code : BitVec 17) : Bool := decide (2 ≤ code.toNat)

/-- Well-formedness of an instruction, constructor by constructor. -/
def Instr.wf : Instr → Bool
  | .htbuild _ => true
  | .bsextract => true
  | .eddiff _ => true
  | .prinit => true
  | .prsample => true
  | .prscan => true
  | .scan => true
  | .diffSsss0 code => codeWf code
  | .diffSsss1 code _ => codeWf code
  | .diffSsss2 code _ => codeWf code
  | .diffSsss3 code _ => codeWf code
  | .diffSsss4 code _ => codeWf code
  | .diffSsss5 code _ => codeWf code
  | .diffSsss6 code _ => codeWf code
  | .diffSsss7 code _ => codeWf code
  | .diffSsss8 code _ => codeWf code
  | .diffSsss9 code _ => codeWf code
  | .diffSsss10 code _ => codeWf code
  | .diffSsss11 code _ => codeWf code
  | .diffSsss12 code _ => codeWf code
  | .diffSsss13 code _ => codeWf code
  | .diffSsss14 code _ => codeWf code
  | .diffSsss15 code _ => codeWf code
  | .diffSsss16 code => codeWf code

end Sys2Proof
end

