-- ==== Sys2Proof/Decode.lean ====
section
/-! DEFINITION. Decoding and encoding of both formats of 30_encoding: the command word (R70 to R73, R87) and the
difference codeword (R81 to R85). -/

namespace Sys2Proof

/-! ### The command word -/

/-- Why a command word is illegal (30_encoding R87). -/
inductive IllegalWord where
  /-- op is outside 0x01 .. 0x07. -/
  | unknownOp (op : Byte)
  /-- op is that of a command without operand, and imm8 is not 0. -/
  | operandNotZero (op imm8 : Byte)
  deriving DecidableEq, Repr

/-- op, bits 15:8 (30_encoding R70). -/
def opField (w : Word) : Byte := w.extractLsb' 8 8

/-- imm8, bits 7:0 (30_encoding R70). -/
def immField (w : Word) : Byte := w.extractLsb' 0 8

/-- A command without operand: imm8 must be 0 (30_encoding R70, R87). -/
def noOperand (w : Word) (i : Instr) : Except IllegalWord Instr :=
  if immField w = 0#8 then .ok i else .error (.operandNotZero (opField w) (immField w))

/-- The command a word encodes (30_encoding R71, R72). Total: every other word is rejected by name. -/
def decode (w : Word) : Except IllegalWord Instr :=
  if opField w = 0x01#8 then .ok (.htbuild (immField w))
  else if opField w = 0x02#8 then noOperand w .bsextract
  else if opField w = 0x03#8 then .ok (.eddiff (immField w))
  else if opField w = 0x04#8 then noOperand w .prinit
  else if opField w = 0x05#8 then noOperand w .prsample
  else if opField w = 0x06#8 then noOperand w .prscan
  else if opField w = 0x07#8 then noOperand w .scan
  else .error (.unknownOp (opField w))

/-- The instruction the decoder reads from a command word, numbered as the opcode table numbers it. Bits at and
above `nbits` are 0, and every command is one 16-bit word (30_encoding R70). The DIFF rows of the table are not words
(their `h` is a table-dependent code), so no number decodes to one: their decoder is `decodeCodeword` (log 13). -/
def decodeTableWord (nbits w : Nat) : Option Instr :=
  if w % 2 ^ nbits < 2 ^ 16 then (decode (BitVec.ofNat 16 (w % 2 ^ nbits))).toOption else none

/-- The command word op x 256 + imm8 (30_encoding R93). -/
def commandWord (op imm8 : Byte) : Word := op ++ imm8

/-! ### Sentinel-prefixed codes and bit strings -/

/-- The number of bits below the leading 1 of a sentinel-prefixed code (00_scope R12). -/
def nbits (code : Nat) : Nat := Nat.log2 code

/-- The low `n` bits of `v`, most significant first. -/
def bitsOf : Nat → Nat → List Bool
  | 0, _ => []
  | n + 1, v => v.testBit n :: bitsOf n v

/-- `acc <- (acc << 1) | bit` (42_entropy_decoder R142). -/
def shiftIn (acc : Nat) (b : Bool) : Nat := 2 * acc + b.toNat

/-- The bits of a code, first bit first, the sentinel left out. -/
def codeBits (code : Nat) : List Bool := bitsOf (nbits code) code

/-- How many extra bits follow a code of category `ssss`: SSSS for 1..15, none for 0 and the escape 16
(30_encoding R81). -/
def extraCount (ssss : Nat) : Nat := if ssss = 16 then 0 else ssss

/-- The signed difference of category `ssss` with the extra bits `v` (30_encoding R82; 42_entropy_decoder R149,
R150): the escape, zero, `v` when the sign bit v[ssss-1] is 1, else v + 1 - 2^ssss. -/
def differenceOf (ssss v : Nat) : Int :=
  if ssss = 16 then 32768
  else if ssss = 0 then 0
  else if v.testBit (ssss - 1) then (v : Int)
  else (v : Int) + 1 - (2 ^ ssss : Nat)

/-- The category of a difference (42_entropy_decoder R155): 0 for 0, 16 for 32768, else the number of bits of its
magnitude. -/
def categoryOf (d : Int) : Nat :=
  if d = 0 then 0 else if d = 32768 then 16 else Nat.log2 d.natAbs + 1

/-- The extra bits that carry a difference (42_entropy_decoder R155): d when positive, d - 1 + 2^SSSS when
negative. -/
def extraOf (d : Int) : Nat :=
  if d = 0 ∨ d = 32768 then 0 else if 0 < d then d.toNat else (d - 1 + (2 ^ categoryOf d : Nat)).toNat

/-! ### The difference codeword -/

/-- The codeword instruction of a symbol, a code and extra bits. -/
def codewordOf (ssss : Symbol) (code : BitVec 17) (v : Nat) : Instr :=
  match ssss.val with
  | 0 => .diffSsss0 code
  | 1 => .diffSsss1 code (BitVec.ofNat 1 v)
  | 2 => .diffSsss2 code (BitVec.ofNat 2 v)
  | 3 => .diffSsss3 code (BitVec.ofNat 3 v)
  | 4 => .diffSsss4 code (BitVec.ofNat 4 v)
  | 5 => .diffSsss5 code (BitVec.ofNat 5 v)
  | 6 => .diffSsss6 code (BitVec.ofNat 6 v)
  | 7 => .diffSsss7 code (BitVec.ofNat 7 v)
  | 8 => .diffSsss8 code (BitVec.ofNat 8 v)
  | 9 => .diffSsss9 code (BitVec.ofNat 9 v)
  | 10 => .diffSsss10 code (BitVec.ofNat 10 v)
  | 11 => .diffSsss11 code (BitVec.ofNat 11 v)
  | 12 => .diffSsss12 code (BitVec.ofNat 12 v)
  | 13 => .diffSsss13 code (BitVec.ofNat 13 v)
  | 14 => .diffSsss14 code (BitVec.ofNat 14 v)
  | 15 => .diffSsss15 code (BitVec.ofNat 15 v)
  | _ => .diffSsss16 code

/-- The fields of a codeword: its category, its code, its extra bits. `none` for a command. -/
def Instr.codeword? : Instr → Option (Nat × Nat × Nat)
  | .htbuild _ => none
  | .bsextract => none
  | .eddiff _ => none
  | .prinit => none
  | .prsample => none
  | .prscan => none
  | .scan => none
  | .diffSsss0 code => some (0, code.toNat, 0)
  | .diffSsss1 code extra => some (1, code.toNat, extra.toNat)
  | .diffSsss2 code extra => some (2, code.toNat, extra.toNat)
  | .diffSsss3 code extra => some (3, code.toNat, extra.toNat)
  | .diffSsss4 code extra => some (4, code.toNat, extra.toNat)
  | .diffSsss5 code extra => some (5, code.toNat, extra.toNat)
  | .diffSsss6 code extra => some (6, code.toNat, extra.toNat)
  | .diffSsss7 code extra => some (7, code.toNat, extra.toNat)
  | .diffSsss8 code extra => some (8, code.toNat, extra.toNat)
  | .diffSsss9 code extra => some (9, code.toNat, extra.toNat)
  | .diffSsss10 code extra => some (10, code.toNat, extra.toNat)
  | .diffSsss11 code extra => some (11, code.toNat, extra.toNat)
  | .diffSsss12 code extra => some (12, code.toNat, extra.toNat)
  | .diffSsss13 code extra => some (13, code.toNat, extra.toNat)
  | .diffSsss14 code extra => some (14, code.toNat, extra.toNat)
  | .diffSsss15 code extra => some (15, code.toNat, extra.toNat)
  | .diffSsss16 code => some (16, code.toNat, 0)

/-- Why a run of bits is no codeword of a table. -/
inductive CodewordReject where
  /-- The table has no code (42_entropy_decoder R144). -/
  | emptyTable
  /-- The bits end inside the codeword (42_entropy_decoder R143). -/
  | bitsExhausted
  /-- No key within the search bound (30_encoding R89). -/
  | noCode
  deriving DecidableEq, Repr

/-- Shift `n` bits into `acc`, first bit first (30_encoding R83, R84). -/
def takeFrom : Nat → Nat → List Bool → Option (Nat × List Bool)
  | 0, acc, bits => some (acc, bits)
  | _ + 1, _, [] => none
  | n + 1, acc, b :: bits => takeFrom n (shiftIn acc b) bits

/-- Where the Huffman code ends: at the first accumulator value that is a key, tried for at most `n` further bits
(30_encoding R85). -/
def findCode (map : CodeMap) : Nat → Nat → List Bool → Except CodewordReject (Nat × Symbol × List Bool)
  | 0, _, _ => .error .noCode
  | _ + 1, _, [] => .error .bitsExhausted
  | n + 1, acc, b :: bits =>
    match Memory.read map (shiftIn acc b) with
    | some ssss => .ok (shiftIn acc b, ssss, bits)
    | none => findCode map n (shiftIn acc b) bits

/-- The lengths the decoder uses: none for an empty map, which it tests first (42_entropy_decoder R144). -/
def HuffTable.lengths (table : HuffTable) : Option Lengths :=
  if table.map.isEmpty then none else table.lens

/-- The difference codeword at the head of a bit string, and the bits after it (30_encoding R81, R85). -/
def decodeCodeword (table : HuffTable) (bits : List Bool) : Except CodewordReject (Instr × List Bool) :=
  match table.lengths with
  | none => .error .emptyTable
  | some lens =>
    match takeFrom (lens.min.toNat - 1) 1 bits with
    | none => .error .bitsExhausted
    | some (acc, rest) =>
      match findCode table.map lens.max.toNat acc rest with
      | .error e => .error e
      | .ok (code, ssss, rest') =>
        match takeFrom (extraCount ssss) 0 rest' with
        | none => .error .bitsExhausted
        | some (v, rest'') => .ok (codewordOf ssss (BitVec.ofNat 17 code) v, rest'')

/-! ### Encoders -/

/-- The bits of a codeword with these fields: the code, then SSSS extra bits (30_encoding R81). -/
def codewordBits (ssss code v : Nat) : List Bool := codeBits code ++ bitsOf (extraCount ssss) v

/-- What an instruction is stored as: a command word, or a run of bits. -/
inductive Encoded where
  | word (w : Word)
  | bits (bs : List Bool)
  deriving DecidableEq, Repr

/-- The encoding of an instruction, from the tables of 30_encoding R72 and R81. -/
def encode : Instr → Encoded
  | .htbuild key => .word (commandWord 0x01#8 key)
  | .bsextract => .word (commandWord 0x02#8 0#8)
  | .eddiff key => .word (commandWord 0x03#8 key)
  | .prinit => .word (commandWord 0x04#8 0#8)
  | .prsample => .word (commandWord 0x05#8 0#8)
  | .prscan => .word (commandWord 0x06#8 0#8)
  | .scan => .word (commandWord 0x07#8 0#8)
  | .diffSsss0 code => .bits (codewordBits 0 code.toNat 0)
  | .diffSsss1 code extra => .bits (codewordBits 1 code.toNat extra.toNat)
  | .diffSsss2 code extra => .bits (codewordBits 2 code.toNat extra.toNat)
  | .diffSsss3 code extra => .bits (codewordBits 3 code.toNat extra.toNat)
  | .diffSsss4 code extra => .bits (codewordBits 4 code.toNat extra.toNat)
  | .diffSsss5 code extra => .bits (codewordBits 5 code.toNat extra.toNat)
  | .diffSsss6 code extra => .bits (codewordBits 6 code.toNat extra.toNat)
  | .diffSsss7 code extra => .bits (codewordBits 7 code.toNat extra.toNat)
  | .diffSsss8 code extra => .bits (codewordBits 8 code.toNat extra.toNat)
  | .diffSsss9 code extra => .bits (codewordBits 9 code.toNat extra.toNat)
  | .diffSsss10 code extra => .bits (codewordBits 10 code.toNat extra.toNat)
  | .diffSsss11 code extra => .bits (codewordBits 11 code.toNat extra.toNat)
  | .diffSsss12 code extra => .bits (codewordBits 12 code.toNat extra.toNat)
  | .diffSsss13 code extra => .bits (codewordBits 13 code.toNat extra.toNat)
  | .diffSsss14 code extra => .bits (codewordBits 14 code.toNat extra.toNat)
  | .diffSsss15 code extra => .bits (codewordBits 15 code.toNat extra.toNat)
  | .diffSsss16 code => .bits (codewordBits 16 code.toNat 0)

/-- Eight bits of a byte, most significant first (20_memory R57; `bits8` of 41_bitstream_extractor R122). -/
def bits8 (b : Byte) : List Bool := bitsOf 8 b.toNat

/-- The stuffed form of data bytes (30_encoding R80): a data byte 0xFF is written as the pair 0xFF 0x00. -/
def stuff : List Byte → List Byte
  | [] => []
  | b :: bs => if b = 0xFF#8 then 0xFF#8 :: 0x00#8 :: stuff bs else b :: stuff bs

end Sys2Proof
end

