-- ==== Sys2Proof/Config.lean ====
section
/-! DEFINITION. What an implementation fixes (the open parameters of 00_scope R9) and the free values: constants
with no body, so that no proof can learn what they are. -/

namespace Sys2Proof

/-- The open parameters (00_scope R9, 92 D24). `none` is "unbounded". BUSMAP is not modelled: no rule depends on an
address (20_memory R61). -/
structure Params where
  bytesCap : Option Nat
  sampCap  : Option Nat
  ncMax    : Nat
  deriving DecidableEq, Repr

/-- The constraints of 00_scope R9: capacities at least 1, NCMAX in 1..255. -/
def Params.wf (p : Params) : Bool :=
  p.bytesCap.all (1 ≤ ·) && p.sampCap.all (1 ≤ ·) && decide (1 ≤ p.ncMax) && decide (p.ncMax ≤ 255)

/-- The defaults "a model may use" (00_scope R9). -/
def Params.default : Params := { bytesCap := none, sampCap := none, ncMax := 255 }

/-- FREE VALUE: what BYTES[index] holds in a session that has not written it (93 U6; log 2). Arguments: the
session, the index. -/
opaque Config.unwrittenByte : Nat → Nat → Byte

/-- FREE VALUE: what a CLT_SYM cell holds in a session that has not written it (10_state R49; log 2). -/
opaque Config.unwrittenSymbol : Nat → Nat → Byte

/-- FREE VALUE: what BITS[index] holds in a session that has not written it (93 U6; log 2). -/
opaque Config.unwrittenBit : Nat → Nat → Bool

/-- FREE VALUE: what SAMP[index] holds in a session that has not written it (93 U6; log 2). -/
opaque Config.unwrittenSample : Nat → Nat → Sample

/-- FREE VALUE: what the 40-bit FINFO holds when the number a `raise` supplies does not fit it (10_state R35 gives
the width and no rule for a wider number; log 5). -/
opaque Config.wideInfo : Nat → BitVec 40

end Sys2Proof
end

