-- ==== Sys2Proof/Machine/State.lean ====
section
/-! DEFINITION. The machine's state as plain data: all of 10_state R20, and three fields of the model's own (the open
parameters, the host's pending operations, the session counter). The host's operations, the fault codes, the ways a
step can stop, and the state after reset. -/

namespace Sys2Proof.Machine

/-- What the host can name in an access (10_state R20, 20_memory R50, R55): a register, or an element of a space. -/
inductive HostTarget where
  | cmd | frmP | frmW | frmH | frmNc | scnNs | scnSs | scnPt
  | scnTsel (c : Nat)
  | blen | bcur | bitlen | bitpos | slen
  | flagMarker | flagAmbig | flagScandone
  | fault | finfo | diff
  | cltCnt (len : Nat)
  | cltSym (len i : Nat)
  | htValid (key : Byte)
  | htMin (key : Byte)
  | htMax (key : Byte)
  | htMap (key : Byte) (code : Nat)
  | bytes (i : Nat)
  | bits (i : Nat)
  | samp (i : Nat)
  deriving DecidableEq, Repr

/-- One operation of the host (20_memory R55, 70_reset R230). A write to a target of the "write" column of 10_state
R20 has a constructor with a value of the element's width; a write to any other target is `writeOther`. -/
inductive HostOp where
  /-- HostWrite(REG, CMD, w): runs the command `w` encodes. -/
  | cmd (w : Word)
  | writeFrmP (v : BitVec 8)
  | writeFrmW (v : BitVec 16)
  | writeFrmH (v : BitVec 16)
  | writeFrmNc (v : BitVec 8)
  | writeScnNs (v : BitVec 8)
  | writeScnSs (v : BitVec 8)
  | writeScnPt (v : BitVec 4)
  | writeScnTsel (c : Nat) (v : Byte)
  | writeBlen (n : Nat)
  | writeBcur (n : Nat)
  | writeCltCnt (len : Nat) (v : Byte)
  | writeCltSym (len i : Nat) (v : Byte)
  | writeBytes (i : Nat) (v : Byte)
  /-- A HostWrite to a target the host may not write. -/
  | writeOther (t : HostTarget)
  /-- HostRead; what it answers is `hostRead`. -/
  | read (t : HostTarget)
  /-- The reset input. -/
  | reset
  deriving DecidableEq, Repr

/-- What a host read answers: a number, a table entry, "unspecified" (93 `any value`), or nothing because the target
cannot be read or does not exist. -/
inductive HostAnswer where
  | number (v : Int)
  | entry (symbol : Option Symbol)
  | unspecified
  | unreadable
  deriving DecidableEq, Repr

/-- The architectural faults (60_exceptions R200); BAD_PARAM carries its sub-code in FINFO (R207). -/
inductive FaultCode where
  /-- DecodeDiff: no Huffman code matched within the search bound. -/
  | malformedCode
  /-- DecodeDiff: the selected slot was never built. -/
  | noTable
  /-- Predict: a neighbour index below 0 (unreachable, R168). -/
  | neighbor
  /-- DecodeDiff: the selected slot holds an empty table. -/
  | emptyTable
  /-- NextBit: a bit was needed at BITPOS >= BITLEN. -/
  | bitsExhausted
  /-- HTBUILD, BSEXTRACT, PRSAMPLE, PRSCAN, SCAN: a register or table entry outside its legal range. -/
  | badParam
  /-- PRSAMPLE, PRSCAN, SCAN: W x H x Nc above SAMP_CAP. -/
  | capacity
  /-- Command decode: a word that is no command. -/
  | illegalCmd
  deriving DecidableEq, Repr

/-- The ways a step can STOP the machine: none, so the type has no value. Every failure the spec describes is an
architectural fault, a next state with FAULT set (60_exceptions R214; log 8), and everything else completes
(70_reset R244). Safe: a type with no value lets no step stop. -/
inductive Fault where
  deriving DecidableEq, Repr

/-- Why an instruction has no meaning. -/
inductive Refusal where
  /-- Raised by an arm of `exec` for an instruction the model gives no meaning; no arm does. Safe. -/
  | notModelled (mnemonic : String)
  deriving DecidableEq, Repr

/-- The state (10_state R20). FLAGS.SCANDONE is not stored (R34) and CMD holds nothing (R36). -/
structure State where
  /-- The model's own: the open parameters of 00_scope R9; no step changes them (log 3). -/
  params  : Params
  /-- The model's own: resets so far, the argument of the free values of unwritten cells (log 2). -/
  session : Nat
  /-- The model's own: the host operations still to be carried out, oldest first (log 1). -/
  host    : List HostOp
  /-- FRM_P, the sample precision (R21). -/
  frmP    : BitVec 8
  /-- FRM_W, the frame width (R22). -/
  frmW    : BitVec 16
  /-- FRM_H, the frame height (R22). -/
  frmH    : BitVec 16
  /-- FRM_NC, the frame component count (R23). -/
  frmNc   : BitVec 8
  /-- SCN_NS, the scan component count (R24). -/
  scnNs   : BitVec 8
  /-- SCN_SS, the predictor selector (R25). -/
  scnSs   : BitVec 8
  /-- SCN_PT, the point transform (R26). -/
  scnPt   : BitVec 4
  /-- SCN_TSEL, the per-component table keys (R27); entries below NCMAX exist (log 14). -/
  scnTsel : Vector Byte 255
  /-- BLEN, the number of valid bytes (R29). -/
  blen    : Nat
  /-- BCUR, the byte cursor (R29). -/
  bcur    : Nat
  /-- BITLEN, the number of valid bits (R30). -/
  bitlen  : Nat
  /-- BITPOS, the bit cursor (R30). -/
  bitpos  : Nat
  /-- SLEN, the number of samples (R31). -/
  slen    : Nat
  /-- FLAGS.MARKER (R32). -/
  marker  : Bool
  /-- FLAGS.AMBIG (R33). -/
  ambig   : Bool
  /-- FAULT, 0 or a fault code (R35). -/
  fault   : BitVec 4
  /-- FINFO, the number the faulting `raise` supplied (R35). -/
  finfo   : BitVec 40
  /-- DIFF, a signed result (R36). -/
  diff    : BitVec 18
  /-- CLT_CNT[L], at index L - 1 (R37). -/
  cltCnt  : Vector Byte 16
  /-- CLT_SYM[L][i], at index 16 L + i (R38). -/
  cltSym  : Memory Byte
  /-- HT, the built slots by key (R39 to R41); a slot that is not listed has valid = 0 (log 6). -/
  ht      : Memory HuffTable
  /-- BYTES (R43). -/
  bytes   : Memory Byte
  /-- BITS (R44). -/
  bits    : Memory Bool
  /-- SAMP (R45). -/
  samp    : Memory Sample
  deriving DecidableEq, Repr

/-- The state a reset leaves (10_state R49, 70_reset R230): every register and flag 0, every slot invalid, memories
with nothing written. Parameters are the implementation's, not state that reset changes. -/
def State.resetWith (params : Params) (session : Nat) (host : List HostOp) : State :=
  { params := params, session := session, host := host
    frmP := 0, frmW := 0, frmH := 0, frmNc := 0, scnNs := 0, scnSs := 0, scnPt := 0
    scnTsel := Vector.replicate 255 0
    blen := 0, bcur := 0, bitlen := 0, bitpos := 0, slen := 0
    marker := false, ambig := false, fault := 0, finfo := 0, diff := 0
    cltCnt := Vector.replicate 16 0
    cltSym := [], ht := [], bytes := [], bits := [], samp := [] }

/-- The machine right after reset, with the default parameters and no host operation pending. -/
def State.reset : State := State.resetWith Params.default 0 []

end Sys2Proof.Machine
end

