-- ==== Sys2Proof/Machine/Ops.lean ====
section
/-! DEFINITION. The operations every command is written with: reading and writing the indexed spaces of a state,
raising a fault (60_exceptions R214), the fault gate (R215), and procedures that may raise (00_scope R13). -/

namespace Sys2Proof.Machine

/-! ### Faults -/

/-- The code FAULT holds for a fault (60_exceptions R200). -/
def FaultCode.code : FaultCode → BitVec 4
  | .malformedCode => 1
  | .noTable => 2
  | .neighbor => 3
  | .emptyTable => 4
  | .bitsExhausted => 5
  | .badParam => 6
  | .capacity => 7
  | .illegalCmd => 8

/-- The number a `raise` supplies as FINFO holds it: itself when it fits 40 bits (10_state R35); the spec gives no
rule for a wider number, so then a free value (log 5). -/
def finfoOf (info : Nat) : BitVec 40 :=
  if info < 2 ^ 40 then BitVec.ofNat 40 info else Config.wideInfo info

/-- What `raise F(info)` does to the state (60_exceptions R214): FAULT and FINFO are written, nothing else. There is
no handler and no return; only reset clears FAULT (R216). -/
def raise (f : FaultCode) (info : Nat) (s : State) : State :=
  { s with fault := f.code, finfo := finfoOf info }

/-- The end of a procedure that may raise: it returned a value, or it raised and the running command stops. -/
inductive Res (α : Type) where
  | ok (a : α) (s : State)
  | raised (s : State)
  deriving DecidableEq, Repr

/-- `raise F(info)` as the end of a procedure. -/
def Res.raise {α : Type} (f : FaultCode) (info : Nat) (s : State) : Res α :=
  .raised (Sys2Proof.Machine.raise f info s)

/-- Go on with the value and the state, unless a fault was raised (60_exceptions R214: no further line runs). -/
def Res.bind {α β : Type} (r : Res α) (k : α → State → Res β) : Res β :=
  match r with
  | .ok a s => k a s
  | .raised s => .raised s

/-- The state a command ends in, with or without a fault. -/
def Res.state {α : Type} : Res α → State
  | .ok _ s => s
  | .raised s => s

/-- A command: the fault gate, then its body (60_exceptions R215). While FAULT is not 0 nothing changes. -/
def gated {α : Type} (body : State → Res α) (s : State) : Host.Outcome State Fault Refusal :=
  if s.fault = 0 then .next (body s).state else .next s

/-- A CMD word that is no command (30_encoding R71, R87, R92): ILLEGAL_CMD with the word in FINFO. -/
def rejectWord (w : Word) (s : State) : State := raise .illegalCmd w.toNat s

/-! ### The indexed spaces -/

/-- BYTES[i] (10_state R43). -/
def byteAt (s : State) (i : Nat) : Byte :=
  (s.bytes.read i).getD (Config.unwrittenByte s.session i)

/-- BITS[i] (10_state R44). -/
def bitAt (s : State) (i : Nat) : Bool :=
  (s.bits.read i).getD (Config.unwrittenBit s.session i)

/-- SAMP[i] (10_state R45). -/
def sampleAt (s : State) (i : Nat) : Sample :=
  (s.samp.read i).getD (Config.unwrittenSample s.session i)

/-- Where CLT_SYM[len][i] stands in the model's list. -/
def symIndex (len i : Nat) : Nat := 16 * len + i

/-- CLT_CNT[len], len in 1..16 (10_state R37). -/
def cltCount (s : State) (len : Nat) : Nat := (s.cltCnt[len - 1]?.getD 0).toNat

/-- CLT_SYM[len][i] (10_state R38). -/
def cltSymbol (s : State) (len i : Nat) : Byte :=
  (s.cltSym.read (symIndex len i)).getD (Config.unwrittenSymbol s.session (symIndex len i))

/-- SCN_TSEL[c] (10_state R27). -/
def tableKey (s : State) (c : Nat) : Byte := s.scnTsel[c]?.getD 0

/-- The registry slot of a key, `none` while its valid bit is 0 (10_state R39). -/
def slot (s : State) (key : Byte) : Option HuffTable := s.ht.read key.toNat

/-- HTBUILD's one write: all fields of HT[key] at once (10_state R39, 40_huffman_builder R110). -/
def setSlot (key : Byte) (table : HuffTable) (s : State) : State :=
  { s with ht := s.ht.write key.toNat table }

/-- SAMP[SLEN] <- v, SLEN <- SLEN + 1 (43_predictive_reconstructor R175). -/
def appendSample (v : Sample) (s : State) : State :=
  { s with samp := s.samp.write s.slen v, slen := s.slen + 1 }

/-- total = FRM_W x FRM_H x FRM_NC (43_predictive_reconstructor R163). -/
def totalSamples (s : State) : Nat := s.frmW.toNat * s.frmH.toNat * s.frmNc.toNat

end Sys2Proof.Machine
end

