-- ==== Sys2Proof/Machine/Operands.lean ====
section
/-! DEFINITION. How a command gets its operands: bits from BITS at BITPOS (42_entropy_decoder R143), the entries of the
code-length table (40_huffman_builder R101), and for a sample its position and its neighbours
(43_predictive_reconstructor R166, R167). -/

namespace Sys2Proof.Machine

/-! ### Bits -/

/-- NextBit, the only way a bit is consumed (42_entropy_decoder R143). -/
def nextBit (s : State) : Res Bool :=
  if s.bitlen ≤ s.bitpos then Res.raise .bitsExhausted s.bitpos s
  else .ok (bitAt s s.bitpos) { s with bitpos := s.bitpos + 1 }

/-- `repeat n times: acc <- (acc << 1) | NextBit()` (42_entropy_decoder R142). -/
def takeBits : Nat → Nat → State → Res Nat
  | 0, acc, s => .ok acc s
  | n + 1, acc, s => (nextBit s).bind fun b s' => takeBits n (shiftIn acc b) s'

/-! ### The code-length table -/

/-- The entries of one length, in assignment order: the first CLT_CNT[len] symbols (10_state R38). -/
def entriesOfLength (s : State) (len : Nat) : List (Nat × Byte) :=
  (List.range (cltCount s len)).map fun i => (len, cltSymbol s len i)

/-- Every entry HTBUILD reads, in the order L = 1..16 and within L, i = 0 .. CLT_CNT[L]-1 (20_memory R54). -/
def cltEntries (s : State) : List (Nat × Byte) :=
  (List.range' 1 16).flatMap (entriesOfLength s)

/-! ### Position and neighbours -/

/-- component = SLEN % Nc (43_predictive_reconstructor R166). -/
def component (s : State) : Nat := s.slen % s.frmNc.toNat

/-- x = (SLEN div Nc) % W (43_predictive_reconstructor R166). -/
def column (s : State) : Nat := s.slen / s.frmNc.toNat % s.frmW.toNat

/-- y = (SLEN div Nc) div W (43_predictive_reconstructor R166). -/
def row (s : State) : Nat := s.slen / s.frmNc.toNat / s.frmW.toNat

/-- The sample `offset` places back in the flat buffer; `none` when its index would be below 0, which is the fault
NEIGHBOR (43_predictive_reconstructor R167, R168). -/
def neighbour (s : State) (offset : Nat) : Option Int :=
  if s.slen < offset then none else some (sampleAt s (s.slen - offset)).toNat

/-- A, the sample to the left: SAMP[n - Nc]. -/
def leftNeighbour (s : State) : Option Int := neighbour s s.frmNc.toNat

/-- B, the sample above: SAMP[n - W * Nc]. -/
def aboveNeighbour (s : State) : Option Int := neighbour s (s.frmW.toNat * s.frmNc.toNat)

/-- C, the sample above and to the left: SAMP[n - W * Nc - Nc]. -/
def aboveLeftNeighbour (s : State) : Option Int :=
  neighbour s (s.frmW.toNat * s.frmNc.toNat + s.frmNc.toNat)

end Sys2Proof.Machine
end

