-- ==== Sys2Proof/Machine/Builder.lean ====
section
/-! DEFINITION. The Canonical Huffman Table Builder, command HTBUILD (40_huffman_builder). -/

namespace Sys2Proof.Machine

/-! ### The code derivation -/

/-- The loop of the successor step (40_huffman_builder R104): shift trailing 1-bits off until a trailing 0 has been
removed or only the sentinel remains. `fuel` bounds the loop; `nbits c + 1` rounds always suffice. -/
def stripOnes : Nat → Nat → Nat
  | 0, c => c
  | fuel + 1, c => if c = 1 then c else if c % 2 = 0 then c / 2 else stripOnes fuel (c / 2)

/-- The successor step: the loop, then a 1 bit appended (40_huffman_builder R104). -/
def succCode (c : Nat) : Nat := 2 * stripOnes (nbits c + 1) c + 1

/-- Padding: `while nbits(code) < L: code <- code << 1` (40_huffman_builder R105). -/
def padTo (len c : Nat) : Nat := c <<< (len - nbits c)

/-- The code of the next symbol, of length `len`: the first code of the table is the sentinel 1 padded (R103); every
later one is the successor of the previous code, padded (R104, R105). -/
def nextCode (prev : Option Nat) (len : Nat) : Nat :=
  match prev with
  | none => padTo len 1
  | some c => padTo len (succCode c)

/-- The insertions (code, symbol) in the order the pseudocode makes them, `entries` being (length, symbol) pairs in
assignment order (40_huffman_builder R101). -/
def insertions {α : Type} : Option Nat → List (Nat × α) → List (Nat × α)
  | _, [] => []
  | prev, (len, sym) :: rest => (nextCode prev len, sym) :: insertions (some (nextCode prev len)) rest

/-- A CLT_SYM byte as a symbol. CheckCLT has refused every byte above 16, so nothing is lost. -/
def symbolOf (b : Byte) : Symbol := Fin.ofNat 17 b.toNat

/-- The map the insertions build: a repeated code replaces the earlier symbol (40_huffman_builder R109). -/
def mapOf (ins : List (Nat × Symbol)) : CodeMap :=
  ins.foldl (fun map e => Memory.write map e.1 e.2) []

/-- min and max: the least and greatest nbits over the keys, none for an empty map (40_huffman_builder R107,
R108). -/
def lengthsOf (map : CodeMap) : Option Lengths :=
  match (map.map fun e => nbits e.1).min?, (map.map fun e => nbits e.1).max? with
  | some lo, some hi => some { min := BitVec.ofNat 5 lo, max := BitVec.ofNat 5 hi }
  | _, _ => none

/-- The table the code-length table gives (40_huffman_builder R101). -/
def tableOf (entries : List (Nat × Symbol)) : HuffTable :=
  { map := mapOf (insertions none entries), lens := lengthsOf (mapOf (insertions none entries)) }

/-! ### The command -/

/-- Some count is above 16 (40_huffman_builder R102). -/
def badCount (s : State) : Bool := (List.range' 1 16).any fun len => decide (16 < cltCount s len)

/-- Some entry HTBUILD reads is above 16 (40_huffman_builder R102). -/
def badSymbol (s : State) : Bool := (cltEntries s).any fun e => decide (16 < e.2.toNat)

/-- The entries as symbols. -/
def symbolEntries (s : State) : List (Nat × Symbol) := (cltEntries s).map fun e => (e.1, symbolOf e.2)

/-- The body of HTBUILD: CheckCLT before any write (40_huffman_builder R101, R102). -/
def htbuildBody (key : Byte) (s : State) : Res Unit :=
  if badCount s then Res.raise .badParam 1 s
  else if badSymbol s then Res.raise .badParam 2 s
  else .ok () (setSlot key (tableOf (symbolEntries s)) s)

/-- HTBUILD key (40_huffman_builder R101). -/
def execHtbuild (key : Byte) (s : State) : Host.Outcome State Fault Refusal := gated (htbuildBody key) s

end Sys2Proof.Machine
end

