-- ==== Sys2Proof/Machine/Entropy.lean ====
section
/-! DEFINITION. The Entropy (Magnitude-Category) Decoder: DecodeDiff and the command EDDIFF (42_entropy_decoder). -/

namespace Sys2Proof.Machine

/-- Step 2, the search: at most `n` further bits, stopping at the first accumulator value that is a key
(42_entropy_decoder R146). `none` is "not found". -/
def searchCode (map : CodeMap) : Nat → Nat → State → Res (Option Symbol)
  | 0, _, s => .ok none s
  | n + 1, acc, s => (nextBit s).bind fun b s' =>
      match map.read (shiftIn acc b) with
      | some ssss => .ok (some ssss) s'
      | none => searchCode map n (shiftIn acc b) s'

/-- Steps 3 to 6: a miss is fatal, 16 and 0 take no bits, 1..15 take SSSS bits (42_entropy_decoder R148 to R150). -/
def finishDiff (found : Option Symbol) (s : State) : Res Int :=
  match found with
  | none => Res.raise .malformedCode s.bitpos s
  | some ssss => (takeBits (extraCount ssss) 0 s).bind fun v s' => .ok (differenceOf ssss v) s'

/-- DecodeDiff(key) (42_entropy_decoder R142). -/
def decodeDiff (key : Byte) (s : State) : Res Int :=
  match slot s key with
  | none => Res.raise .noTable key.toNat s
  | some table =>
    match table.lengths with
    | none => Res.raise .emptyTable key.toNat s
    | some lens =>
      (takeBits (lens.min.toNat - 1) 1 s).bind fun acc s1 =>
        (searchCode table.map lens.max.toNat acc s1).bind finishDiff

/-- DIFF <- d (10_state R36). -/
def setDiff (d : Int) (s : State) : State := { s with diff := BitVec.ofInt 18 d }

/-- The body of EDDIFF (42_entropy_decoder R141). -/
def eddiffBody (key : Byte) (s : State) : Res Unit :=
  (decodeDiff key s).bind fun d s' => .ok () (setDiff d s')

/-- EDDIFF key (42_entropy_decoder R141). -/
def execEddiff (key : Byte) (s : State) : Host.Outcome State Fault Refusal := gated (eddiffBody key) s

end Sys2Proof.Machine
end

