-- ==== Sys2Proof/Machine/Codeword.lean ====
section
/-! DEFINITION. The seventeen difference codewords (30_encoding R81, R82). A codeword stands in the bit sequence and is
fetched there, at BITPOS, by the entropy decoder (20_memory R66); it is no command. Executed as an instruction it does
what EDDIFF does when this codeword is the one at the cursor: its bits are consumed and the difference goes to DIFF
(log 4). -/

namespace Sys2Proof.Machine

/-- The body of a codeword of category `ssss`: consume its code and its extra bits through NextBit, then DIFF takes
the difference. -/
def codewordBody (ssss : Nat) (code : BitVec 17) (v : Nat) (s : State) : Res Unit :=
  (takeBits (nbits code.toNat + extraCount ssss) 0 s).bind fun _ s' =>
    .ok () (setDiff (differenceOf ssss v) s')

/-- DIFF.SSSS0 (30_encoding R82). -/
def execDiffSsss0 (code : BitVec 17) (s : State) : Host.Outcome State Fault Refusal :=
  gated (codewordBody 0 code 0) s

/-- DIFF.SSSS1 (30_encoding R82). -/
def execDiffSsss1 (code : BitVec 17) (extra : BitVec 1) (s : State) : Host.Outcome State Fault Refusal :=
  gated (codewordBody 1 code extra.toNat) s

/-- DIFF.SSSS2 (30_encoding R82). -/
def execDiffSsss2 (code : BitVec 17) (extra : BitVec 2) (s : State) : Host.Outcome State Fault Refusal :=
  gated (codewordBody 2 code extra.toNat) s

/-- DIFF.SSSS3 (30_encoding R82). -/
def execDiffSsss3 (code : BitVec 17) (extra : BitVec 3) (s : State) : Host.Outcome State Fault Refusal :=
  gated (codewordBody 3 code extra.toNat) s

/-- DIFF.SSSS4 (30_encoding R82). -/
def execDiffSsss4 (code : BitVec 17) (extra : BitVec 4) (s : State) : Host.Outcome State Fault Refusal :=
  gated (codewordBody 4 code extra.toNat) s

/-- DIFF.SSSS5 (30_encoding R82). -/
def execDiffSsss5 (code : BitVec 17) (extra : BitVec 5) (s : State) : Host.Outcome State Fault Refusal :=
  gated (codewordBody 5 code extra.toNat) s

/-- DIFF.SSSS6 (30_encoding R82). -/
def execDiffSsss6 (code : BitVec 17) (extra : BitVec 6) (s : State) : Host.Outcome State Fault Refusal :=
  gated (codewordBody 6 code extra.toNat) s

/-- DIFF.SSSS7 (30_encoding R82). -/
def execDiffSsss7 (code : BitVec 17) (extra : BitVec 7) (s : State) : Host.Outcome State Fault Refusal :=
  gated (codewordBody 7 code extra.toNat) s

/-- DIFF.SSSS8 (30_encoding R82). -/
def execDiffSsss8 (code : BitVec 17) (extra : BitVec 8) (s : State) : Host.Outcome State Fault Refusal :=
  gated (codewordBody 8 code extra.toNat) s

/-- DIFF.SSSS9 (30_encoding R82). -/
def execDiffSsss9 (code : BitVec 17) (extra : BitVec 9) (s : State) : Host.Outcome State Fault Refusal :=
  gated (codewordBody 9 code extra.toNat) s

/-- DIFF.SSSS10 (30_encoding R82). -/
def execDiffSsss10 (code : BitVec 17) (extra : BitVec 10) (s : State) : Host.Outcome State Fault Refusal :=
  gated (codewordBody 10 code extra.toNat) s

/-- DIFF.SSSS11 (30_encoding R82). -/
def execDiffSsss11 (code : BitVec 17) (extra : BitVec 11) (s : State) : Host.Outcome State Fault Refusal :=
  gated (codewordBody 11 code extra.toNat) s

/-- DIFF.SSSS12 (30_encoding R82). -/
def execDiffSsss12 (code : BitVec 17) (extra : BitVec 12) (s : State) : Host.Outcome State Fault Refusal :=
  gated (codewordBody 12 code extra.toNat) s

/-- DIFF.SSSS13 (30_encoding R82). -/
def execDiffSsss13 (code : BitVec 17) (extra : BitVec 13) (s : State) : Host.Outcome State Fault Refusal :=
  gated (codewordBody 13 code extra.toNat) s

/-- DIFF.SSSS14 (30_encoding R82). -/
def execDiffSsss14 (code : BitVec 17) (extra : BitVec 14) (s : State) : Host.Outcome State Fault Refusal :=
  gated (codewordBody 14 code extra.toNat) s

/-- DIFF.SSSS15 (30_encoding R82). -/
def execDiffSsss15 (code : BitVec 17) (extra : BitVec 15) (s : State) : Host.Outcome State Fault Refusal :=
  gated (codewordBody 15 code extra.toNat) s

/-- DIFF.SSSS16 (30_encoding R82). -/
def execDiffSsss16 (code : BitVec 17) (s : State) : Host.Outcome State Fault Refusal :=
  gated (codewordBody 16 code 0) s

end Sys2Proof.Machine
end

