-- ==== Sys2Proof/Machine/Flags.lean ====
section
/-! DEFINITION. The flags (10_state R32 to R34): MARKER and AMBIG are stored and written by the extractor alone;
SCANDONE is computed when it is read. -/

namespace Sys2Proof.Machine

/-- FLAGS.SCANDONE: 1 exactly when SLEN = FRM_W x FRM_H x FRM_NC (10_state R34). -/
def scanDone (s : State) : Bool := decide (s.slen = totalSamples s)

/-- FLAGS.MARKER and FLAGS.AMBIG, both always written (41_bitstream_extractor R121). -/
def setFlags (marker ambig : Bool) (s : State) : State := { s with marker := marker, ambig := ambig }

end Sys2Proof.Machine
end

