-- ==== Sys2Proof/Machine/Extractor.lean ====
section
/-! DEFINITION. The Stuffed-Byte Bitstream Extractor, command BSEXTRACT (41_bitstream_extractor). -/

namespace Sys2Proof.Machine

/-- What Extract returns: the bits, the cursor, and the two flags (41_bitstream_extractor R122). -/
structure Extraction where
  out    : List Bool
  cursor : Nat
  marker : Bool
  ambig  : Bool
  deriving DecidableEq, Repr

/-- A data byte in front of what the rest of the loop yields: `out <- out ++ bits8(b)`. -/
def Extraction.emit (b : Byte) (e : Extraction) : Extraction := { e with out := bits8 b ++ e.out }

/-- The loop of Extract from index `i` (41_bitstream_extractor R122). Each round moves the cursor forward, so
`BLEN - i` rounds suffice (70_reset R244). -/
def extractLoop (s : State) : Nat → Nat → Extraction
  | 0, i => { out := [], cursor := i, marker := false, ambig := false }
  | fuel + 1, i =>
    if s.blen ≤ i then { out := [], cursor := i, marker := false, ambig := false }
    else if byteAt s i ≠ 0xFF#8 then (extractLoop s fuel (i + 1)).emit (byteAt s i)
    else if s.blen ≤ i + 1 then (extractLoop s fuel (i + 1)).emit 0xFF#8
    else if byteAt s (i + 1) = 0x00#8 then (extractLoop s fuel (i + 2)).emit 0xFF#8
    else { out := [], cursor := i, marker := true, ambig := decide (byteAt s (i + 1) = 0xFF#8) }

/-- Extract(start) (41_bitstream_extractor R122). -/
def extract (s : State) (start : Nat) : Extraction := extractLoop s (s.blen - start) start

/-- The result written to the state: BITS[0 ..], BITLEN, BITPOS, BCUR and both flags (41_bitstream_extractor
R121). -/
def storeExtraction (e : Extraction) (s : State) : State :=
  setFlags e.marker e.ambig
    { s with bits := s.bits.writeList 0 e.out, bitlen := e.out.length, bitpos := 0, bcur := e.cursor }

/-- BLEN > BYTES_CAP (41_bitstream_extractor R121). -/
def blenTooLong (s : State) : Bool := s.params.bytesCap.any (· < s.blen)

/-- The body of BSEXTRACT (41_bitstream_extractor R121). -/
def bsextractBody (s : State) : Res Unit :=
  if blenTooLong s then Res.raise .badParam 3 s
  else .ok () (storeExtraction (extract s s.bcur) s)

/-- BSEXTRACT (41_bitstream_extractor R121). -/
def execBsextract (s : State) : Host.Outcome State Fault Refusal := gated bsextractBody s

end Sys2Proof.Machine
end

