-- ==== Sys2Proof/Machine/Reconstructor.lean ====
section
/-! DEFINITION. The Predictive Reconstructor, commands PRINIT, PRSAMPLE, PRSCAN and SCAN
(43_predictive_reconstructor). -/

namespace Sys2Proof.Machine

/-! ### The predictor -/

/-- The origin constant 2^(P - Pt - 1) (43_predictive_reconstructor R171). -/
def originConstant (s : State) : Int := (2 ^ (s.frmP.toNat - s.scnPt.toNat - 1) : Nat)

/-- `v >> 1` on any integer: the floor of half (00_scope R11). -/
def half (v : Int) : Int := v / 2

/-- The predictor table for x > 0 and y > 0 (43_predictive_reconstructor R172, R173): exact integers. -/
def interiorPrediction (ss : Byte) (a b c origin : Int) : Int :=
  match ss.toNat with
  | 0 => 0
  | 1 => a
  | 2 => b
  | 3 => c
  | 4 => a + b - c
  | 5 => a + half (b - c)
  | 6 => b + half (a - c)
  | 7 => half (a + b)
  | _ => origin

/-- Predict (43_predictive_reconstructor R169): the border rule, then the predictor table. `none` when a neighbour's
index is below 0, which R168 proves impossible. -/
def predict (s : State) : Option Int :=
  if column s = 0 ∧ row s = 0 then some (originConstant s)
  else if column s = 0 then aboveNeighbour s
  else if row s = 0 then leftNeighbour s
  else
    match leftNeighbour s, aboveNeighbour s, aboveLeftNeighbour s with
    | some a, some b, some c => some (interiorPrediction s.scnSs a b c (originConstant s))
    | _, _, _ => none

/-! ### One step -/

/-- (pred + d) & (2^P - 1), true wraparound (43_predictive_reconstructor R174). -/
def reconstruct (p : Nat) (pred d : Int) : Sample :=
  BitVec.ofNat 16 ((pred + d) % (2 ^ p : Nat)).toNat

/-- CheckScan(total), in the order of its tests (43_predictive_reconstructor R162): `none` when all pass, else the
fault and its number. -/
def checkScan (s : State) : Option (FaultCode × Nat) :=
  if s.frmP.toNat < 2 ∨ 16 < s.frmP.toNat then some (.badParam, 4)
  else if s.frmP.toNat - 1 < s.scnPt.toNat then some (.badParam, 5)
  else if s.params.ncMax < s.frmNc.toNat then some (.badParam, 6)
  else if s.params.sampCap.any (· < totalSamples s) then some (.capacity, totalSamples s)
  else if totalSamples s < s.slen then some (.badParam, 8)
  else none

/-- Step() (43_predictive_reconstructor R165): true when a sample was appended, false when the buffer was complete. -/
def reconstructStep (s : State) : Res Bool :=
  if s.slen = totalSamples s then .ok false s
  else
    match checkScan s with
    | some (f, info) => Res.raise f info s
    | none =>
      match predict s with
      | none => Res.raise .neighbor s.slen s
      | some pred =>
        if s.scnNs.toNat ≤ component s then Res.raise .badParam 7 s
        else (decodeDiff (tableKey s (component s)) s).bind fun d s' =>
          .ok true (appendSample (reconstruct s.frmP.toNat pred d) s')

/-! ### The commands -/

/-- The body of PRINIT (43_predictive_reconstructor R161). -/
def prinitBody (s : State) : Res Unit := .ok () { s with slen := 0 }

/-- PRINIT (43_predictive_reconstructor R161). -/
def execPrinit (s : State) : Host.Outcome State Fault Refusal := gated prinitBody s

/-- The body of PRSAMPLE: one Step, whose answer is not used (43_predictive_reconstructor R165). -/
def prsampleBody (s : State) : Res Unit := (reconstructStep s).bind fun _ s' => .ok () s'

/-- PRSAMPLE (43_predictive_reconstructor R165). -/
def execPrsample (s : State) : Host.Outcome State Fault Refusal := gated prsampleBody s

/-- `while Step(): do nothing` (43_predictive_reconstructor R178). Each round that goes on adds a sample, so
`total - SLEN + 1` rounds suffice (70_reset R244). -/
def scanLoop : Nat → State → Res Unit
  | 0, s => .ok () s
  | fuel + 1, s => (reconstructStep s).bind fun appended s' => if appended then scanLoop fuel s' else .ok () s'

/-- The body of PRSCAN (43_predictive_reconstructor R178). -/
def prscanBody (s : State) : Res Unit := scanLoop (totalSamples s - s.slen + 1) s

/-- PRSCAN (43_predictive_reconstructor R178). -/
def execPrscan (s : State) : Host.Outcome State Fault Refusal := gated prscanBody s

/-- The body of SCAN (43_predictive_reconstructor R179): a fault in the extraction stops it before SLEN is cleared. -/
def scanBody (s : State) : Res Unit :=
  (bsextractBody s).bind fun _ s1 => (prinitBody s1).bind fun _ s2 => prscanBody s2

/-- SCAN (43_predictive_reconstructor R179). -/
def execScan (s : State) : Host.Outcome State Fault Refusal := gated scanBody s

end Sys2Proof.Machine
end

