-- ==== Sys2Proof/Machine/Dispatch.lean ====
section
/-! DEFINITION. Which meaning each instruction has. -/

namespace Sys2Proof.Machine

def exec (i : Instr) (s : State) : Host.Outcome State Fault Refusal :=
  match i with
  -- the commands (30_encoding R72)
  | .htbuild key => Sys2Proof.Machine.execHtbuild key s
  | .bsextract => Sys2Proof.Machine.execBsextract s
  | .eddiff key => Sys2Proof.Machine.execEddiff key s
  | .prinit => Sys2Proof.Machine.execPrinit s
  | .prsample => Sys2Proof.Machine.execPrsample s
  | .prscan => Sys2Proof.Machine.execPrscan s
  | .scan => Sys2Proof.Machine.execScan s
  -- the difference codewords (30_encoding R82)
  | .diffSsss0 code => Sys2Proof.Machine.execDiffSsss0 code s
  | .diffSsss1 code extra => Sys2Proof.Machine.execDiffSsss1 code extra s
  | .diffSsss2 code extra => Sys2Proof.Machine.execDiffSsss2 code extra s
  | .diffSsss3 code extra => Sys2Proof.Machine.execDiffSsss3 code extra s
  | .diffSsss4 code extra => Sys2Proof.Machine.execDiffSsss4 code extra s
  | .diffSsss5 code extra => Sys2Proof.Machine.execDiffSsss5 code extra s
  | .diffSsss6 code extra => Sys2Proof.Machine.execDiffSsss6 code extra s
  | .diffSsss7 code extra => Sys2Proof.Machine.execDiffSsss7 code extra s
  | .diffSsss8 code extra => Sys2Proof.Machine.execDiffSsss8 code extra s
  | .diffSsss9 code extra => Sys2Proof.Machine.execDiffSsss9 code extra s
  | .diffSsss10 code extra => Sys2Proof.Machine.execDiffSsss10 code extra s
  | .diffSsss11 code extra => Sys2Proof.Machine.execDiffSsss11 code extra s
  | .diffSsss12 code extra => Sys2Proof.Machine.execDiffSsss12 code extra s
  | .diffSsss13 code extra => Sys2Proof.Machine.execDiffSsss13 code extra s
  | .diffSsss14 code extra => Sys2Proof.Machine.execDiffSsss14 code extra s
  | .diffSsss15 code extra => Sys2Proof.Machine.execDiffSsss15 code extra s
  | .diffSsss16 code => Sys2Proof.Machine.execDiffSsss16 code s

end Sys2Proof.Machine
end

