-- ==== Sys2Proof/Machine/HostPort.lean ====
section
/-! DEFINITION. What the host does between commands (20_memory R55, 10_state R20, 70_reset R230): writes, reads and
reset. A CMD write is carried out by Machine/Step.lean. -/

namespace Sys2Proof.Machine

/-- The index lies below the parameter, `none` being unbounded. -/
def belowCap (cap : Option Nat) (i : Nat) : Bool := cap.all (i < ·)

/-- A code length of the code-length table (10_state R37). -/
def isLength (len : Nat) : Bool := decide (1 ≤ len) && decide (len ≤ 16)

/-- A HostWrite (20_memory R55). A target the host may not write, and an element that does not exist, change
nothing (log 17). CMD, reads and reset store nothing here. -/
def hostStore (op : HostOp) (s : State) : State :=
  match op with
  | .cmd _ => s
  | .writeFrmP v => { s with frmP := v }
  | .writeFrmW v => { s with frmW := v }
  | .writeFrmH v => { s with frmH := v }
  | .writeFrmNc v => { s with frmNc := v }
  | .writeScnNs v => { s with scnNs := v }
  | .writeScnSs v => { s with scnSs := v }
  | .writeScnPt v => { s with scnPt := v }
  | .writeScnTsel c v =>
    if c < s.params.ncMax then { s with scnTsel := s.scnTsel.setIfInBounds c v } else s
  | .writeBlen n => { s with blen := n }
  | .writeBcur n => { s with bcur := n }
  | .writeCltCnt len v =>
    if isLength len then { s with cltCnt := s.cltCnt.setIfInBounds (len - 1) v } else s
  | .writeCltSym len i v =>
    if isLength len && decide (i < 16) then { s with cltSym := s.cltSym.write (symIndex len i) v } else s
  | .writeBytes i v =>
    if belowCap s.params.bytesCap i then { s with bytes := s.bytes.write i v } else s
  | .writeOther _ => s
  | .read _ => s
  | .reset => s

/-- Reset (70_reset R230): every register and flag as 10_state R49 lists, every slot invalid, a new session. The
parameters stay, and the host's later operations still follow (log 15). -/
def applyReset (s : State) : State := State.resetWith s.params (s.session + 1) s.host

/-- A written element's value; a cell not written since reset is unspecified (93 U6). -/
def cellAnswer {n : Nat} (v : Option (BitVec n)) : HostAnswer :=
  match v with
  | some b => .number b.toNat
  | none => .unspecified

/-- A field of a built, non-empty table; otherwise unspecified (10_state R41, R49; 93 U1). -/
def lengthAnswer (s : State) (key : Byte) (field : Lengths → BitVec 5) : HostAnswer :=
  match (slot s key).bind HuffTable.lengths with
  | some lens => .number (field lens).toNat
  | none => .unspecified

/-- What a HostRead answers (10_state R20, R40, R41; 20_memory R55; 93 U1, U6; log 7). It changes no state
(20_memory R60). DESIGN CHOICE (log 7): of the map of a valid slot it answers "not in the domain" at a number outside
2 .. 2^17 - 1 too, where 20_memory R50 has no element. -/
def hostRead (t : HostTarget) (s : State) : HostAnswer :=
  match t with
  | .cmd => .unreadable
  | .frmP => .number s.frmP.toNat
  | .frmW => .number s.frmW.toNat
  | .frmH => .number s.frmH.toNat
  | .frmNc => .number s.frmNc.toNat
  | .scnNs => .number s.scnNs.toNat
  | .scnSs => .number s.scnSs.toNat
  | .scnPt => .number s.scnPt.toNat
  | .scnTsel c => if c < s.params.ncMax then .number (tableKey s c).toNat else .unreadable
  | .blen => .number s.blen
  | .bcur => .number s.bcur
  | .bitlen => .number s.bitlen
  | .bitpos => .number s.bitpos
  | .slen => .number s.slen
  | .flagMarker => .number s.marker.toNat
  | .flagAmbig => .number s.ambig.toNat
  | .flagScandone => .number (scanDone s).toNat
  | .fault => .number s.fault.toNat
  | .finfo => .number s.finfo.toNat
  | .diff => .number s.diff.toInt
  | .cltCnt len => if isLength len then .number (cltCount s len) else .unreadable
  | .cltSym len i =>
    if isLength len && decide (i < 16) then
      if i < cltCount s len then cellAnswer (s.cltSym.read (symIndex len i)) else .unspecified
    else .unreadable
  | .htValid key => .number (slot s key).isSome.toNat
  | .htMin key => lengthAnswer s key Lengths.min
  | .htMax key => lengthAnswer s key Lengths.max
  | .htMap key code =>
    match slot s key with
    | some table => .entry (table.map.read code)
    | none => .unspecified
  | .bytes i => if belowCap s.params.bytesCap i then cellAnswer (s.bytes.read i) else .unreadable
  | .bits i =>
    if belowCap (s.params.bytesCap.map (8 * ·)) i then
      if i < s.bitlen then cellAnswer ((s.bits.read i).map BitVec.ofBool) else .unspecified
    else .unreadable
  | .samp i =>
    if belowCap s.params.sampCap i then
      if i < s.slen then cellAnswer (s.samp.read i) else .unspecified
    else .unreadable

end Sys2Proof.Machine
end

