-- ==== Sys2Proof/Machine/Step.lean ====
section
/-! DEFINITION. One step: the host's next operation (20_memory R55, R64). A CMD write runs its command to the end
(10_state R36, 00_scope R14). -/

namespace Sys2Proof.Machine

/-- A word written to CMD (30_encoding R71): first the fault gate, then decode, then the command or ILLEGAL_CMD. -/
def issue (w : Word) (s : State) : Host.Outcome State Fault Refusal :=
  if s.fault = 0 then
    match decode w with
    | .ok i => exec i s
    | .error _ => .next (rejectWord w s)
  else .next s

/-- One host operation. -/
def hostStep (op : HostOp) (s : State) : Host.Outcome State Fault Refusal :=
  match op with
  | .cmd w => issue w s
  | .reset => .next (applyReset s)
  | op => .next (hostStore op s)

/-- One step of the machine: the oldest pending host operation; with none pending nothing happens (log 1). -/
def step (s : State) : Host.Outcome State Fault Refusal :=
  match s.host with
  | [] => .next s
  | op :: rest => hostStep op { s with host := rest }

/-- The state whose very next step runs the word `w` of `nbits` bits: a CMD write of it comes first among the pending
host operations (log 1). -/
def State.withFetchWord (s : State) (nbits w : Nat) : State :=
  { s with host := .cmd (BitVec.ofNat 16 (w % 2 ^ nbits)) :: s.host }

end Sys2Proof.Machine
end

