-- ==== Sys2Proof/Safety.lean ====
section
/-! DEFINITION. The terms claims are stated in: well-formed tables, the invariant every step keeps, the usual statement
of a canonical code (40_huffman_builder R111), codewords lying in the bit sequence, and a legal scan. -/

namespace Sys2Proof.Machine

/-! ### Tables -/

/-- The invariants of a built slot (10_state R42 (a), (b); R41 for an empty map): no lengths for an empty map, else
1 <= min <= max <= 16, every key within them, both reached; the map in canonical form. -/
def WfTable (table : HuffTable) : Prop :=
  Memory.wf table.map = true ∧
  match table.lens with
  | none => table.map = []
  | some lens =>
    1 ≤ lens.min.toNat ∧ lens.min.toNat ≤ lens.max.toNat ∧ lens.max.toNat ≤ 16 ∧
    (∀ e ∈ table.map, 2 ≤ e.1 ∧ lens.min.toNat ≤ nbits e.1 ∧ nbits e.1 ≤ lens.max.toNat) ∧
    (∃ e ∈ table.map, nbits e.1 = lens.min.toNat) ∧ (∃ e ∈ table.map, nbits e.1 = lens.max.toNat)

/-- No key's code bits are a prefix of another key's (10_state R42 (c)). -/
def PrefixFree (map : CodeMap) : Prop :=
  ∀ a ∈ map, ∀ b ∈ map, codeBits a.1 <+: codeBits b.1 → a.1 = b.1

/-- The table maps `code` to `ssss`, and no other key is a prefix of it: the search finds exactly this code
(42_entropy_decoder R146, R154). -/
def FindsCode (table : HuffTable) (ssss code : Nat) : Prop :=
  (∃ sym : Symbol, sym.val = ssss ∧ table.map.read code = some sym) ∧
  ∀ e ∈ table.map, codeBits e.1 <+: codeBits code → e.1 = code

/-- The length table does not ask for more codes than exist (40_huffman_builder R111): for every L, the sum over
l <= L of count l x 2^(L - l) is at most 2^L. -/
def ValidCounts (lengths : List Nat) : Prop :=
  ∀ len, ((lengths.filter (· ≤ len)).map fun l => 2 ^ (len - l)).sum ≤ 2 ^ len

/-- The lengths of the entries HTBUILD reads never fall and lie in 1..16 (20_memory R54). -/
def RisingLengths {α : Type} (entries : List (Nat × α)) : Prop :=
  (entries.map Prod.fst).Pairwise (· ≤ ·) ∧ ∀ e ∈ entries, 1 ≤ e.1 ∧ e.1 ≤ 16

/-- The code bits of a sentinel-prefixed code as a number (40_huffman_builder R111). -/
def codeValue (code : Nat) : Nat := code - 2 ^ nbits code

/-- The usual canonical code of the next symbol, with its sentinel (40_huffman_builder R111): 0 for the first;
previous + 1 at the same length; (previous + 1) x 2^(L - l) for a greater length. -/
def canonicalNext (prev : Option Nat) (len : Nat) : Nat :=
  match prev with
  | none => 2 ^ len
  | some c => 2 ^ len + (codeValue c + 1) * 2 ^ (len - nbits c)

/-- The canonical codes of a list of (length, symbol) entries. -/
def canonicalCodes {α : Type} : Option Nat → List (Nat × α) → List (Nat × α)
  | _, [] => []
  | prev, (len, sym) :: rest =>
    (canonicalNext prev len, sym) :: canonicalCodes (some (canonicalNext prev len)) rest

/-! ### Bits and codewords -/

/-- The valid bits of BITS from `pos` on begin with `bs`. -/
def BitsHold (s : State) : Nat → List Bool → Prop
  | pos, [] => pos ≤ s.bitlen
  | pos, b :: bs => pos < s.bitlen ∧ bitAt s pos = b ∧ BitsHold s (pos + 1) bs

/-- The valid bytes of BYTES from `pos` on begin with `bs`. -/
def BytesHold (s : State) : Nat → List Byte → Prop
  | pos, [] => pos ≤ s.blen
  | pos, b :: bs => pos < s.blen ∧ byteAt s pos = b ∧ BytesHold s (pos + 1) bs

/-- BLEN does not exceed BYTES_CAP (41_bitstream_extractor R121). -/
def BlenFits (s : State) : Prop := ∀ cap, s.params.bytesCap = some cap → s.blen ≤ cap

/-- The counts of the code-length table are at most 16, and so are the symbols HTBUILD reads (40_huffman_builder
R102). -/
def CltLegal (s : State) : Prop :=
  (∀ len, 1 ≤ len → len ≤ 16 → cltCount s len ≤ 16) ∧
  ∀ len, 1 ≤ len → len ≤ 16 → ∀ i < cltCount s len, (cltSymbol s len i).toNat ≤ 16

/-- The bits of a codeword instruction; none for a command. -/
def instrBits (i : Instr) : List Bool :=
  match i.codeword? with
  | none => []
  | some (ssss, code, v) => codewordBits ssss code v

/-- The difference a codeword instruction carries; 0 for a command. -/
def instrDifference (i : Instr) : Int :=
  match i.codeword? with
  | none => 0
  | some (ssss, _, v) => differenceOf ssss v

/-- Executed alone, `i` consumes `n` bits, puts the difference `d` into DIFF, and changes nothing else. -/
def RunsTo (i : Instr) (s : State) (n : Nat) (d : Int) : Prop :=
  exec i s = .next { s with bitpos := s.bitpos + n, diff := BitVec.ofInt 18 d }

/-- The codeword `i` lies in BITS at `pos`, coded with the well-formed table of `key` (30_encoding R81). -/
def CodewordAt (s : State) (key : Byte) (pos : Nat) (i : Instr) : Prop :=
  ∃ table ssss code v,
    slot s key = some table ∧ WfTable table ∧ i.codeword? = some (ssss, code, v) ∧ i.wf = true ∧
    FindsCode table ssss code ∧ BitsHold s pos (codewordBits ssss code v)

/-- One codeword per sample, in sample order, each coded with its component's table: the samples from number `n` on
have their codewords in BITS from `pos` on (30_encoding R81, 43_predictive_reconstructor R164). -/
def CodewordRun (s : State) : Nat → Nat → List Instr → Prop
  | _, _, [] => True
  | pos, n, i :: rest =>
    n % s.frmNc.toNat < s.scnNs.toNat ∧
    CodewordAt s (tableKey s (n % s.frmNc.toNat)) pos i ∧
    CodewordRun s (pos + (instrBits i).length) (n + 1) rest

/-! ### A scan -/

/-- The tests of CheckScan all pass (43_predictive_reconstructor R162). -/
def ScanLegal (s : State) : Prop :=
  2 ≤ s.frmP.toNat ∧ s.frmP.toNat ≤ 16 ∧ s.scnPt.toNat ≤ s.frmP.toNat - 1 ∧
  s.frmNc.toNat ≤ s.params.ncMax ∧ (∀ cap, s.params.sampCap = some cap → totalSamples s ≤ cap) ∧
  s.slen ≤ totalSamples s

/-- The state as it stands when sample number `n` is predicted. -/
def atSample (s : State) (n : Nat) : State := { s with slen := n }

/-- The state as it stands after the extraction part of SCAN and the emptying of the buffer
(43_predictive_reconstructor R179). -/
def afterExtraction (s : State) : State := { storeExtraction (extract s s.bcur) s with slen := 0 }

/-- The two states differ at most in cells no command reads: BITS at or beyond BITLEN and SAMP at or beyond SLEN
(10_state R44, 20_memory R53). -/
def SameBelowLengths (s t : State) : Prop :=
  t = { s with bits := t.bits, samp := t.samp } ∧
  (∀ n < s.bitlen, t.bits.read n = s.bits.read n) ∧ ∀ n < s.slen, t.samp.read n = s.samp.read n

/-- The host owns these, and no command writes them (10_state R20, R47): the descriptors, BLEN, the code-length table,
BYTES; and the model's own fields. -/
def SameInputs (s t : State) : Prop :=
  t.params = s.params ∧ t.session = s.session ∧ t.host = s.host ∧
  t.frmP = s.frmP ∧ t.frmW = s.frmW ∧ t.frmH = s.frmH ∧ t.frmNc = s.frmNc ∧
  t.scnNs = s.scnNs ∧ t.scnSs = s.scnSs ∧ t.scnPt = s.scnPt ∧ t.scnTsel = s.scnTsel ∧
  t.blen = s.blen ∧ t.cltCnt = s.cltCnt ∧ t.cltSym = s.cltSym ∧ t.bytes = s.bytes

/-! ### The invariant -/

/-- The fault codes FAULT can hold (60_exceptions R200; 3 and 9..15 are never written). -/
def faultCodes : List (BitVec 4) := [0, 1, 2, 4, 5, 6, 7, 8]

/-- What every step keeps: legal parameters; every space in canonical form; the bit cursor within the bit sequence
(10_state R30); every valid bit and every sample written (R44, R45); every built slot well formed (R42); a legal
FAULT (60_exceptions R200); and nothing beyond the capacities (00_scope R9). -/
structure Inv (s : State) : Prop where
  params : s.params.wf = true
  bytes_wf : Memory.wf s.bytes = true
  bits_wf : Memory.wf s.bits = true
  samp_wf : Memory.wf s.samp = true
  cltSym_wf : Memory.wf s.cltSym = true
  ht_wf : Memory.wf s.ht = true
  cursor : s.bitpos ≤ s.bitlen
  bits_written : ∀ i < s.bitlen, (s.bits.read i).isSome = true
  samples_written : ∀ i < s.slen, (s.samp.read i).isSome = true
  tables : ∀ k table, s.ht.read k = some table → k < 256 ∧ WfTable table
  fault : s.fault ∈ faultCodes
  bytes_cap : ∀ cap, s.params.bytesCap = some cap →
    s.bitlen ≤ 8 * cap ∧ ∀ i, (s.bytes.read i).isSome = true → i < cap
  samp_cap : ∀ cap, s.params.sampCap = some cap → s.slen ≤ cap

end Sys2Proof.Machine
end

