-- ==== Sys2Proof/Certificates/Slice0/Obligations.lean ====
section
/-! DEFINITION. The statements for the provers, from the numbered rules of spec/. -/

open Sys2Proof Sys2Proof.Machine

/-! ### Reset, decode, the step -/

/-- R49: what reset leaves, and what each command does straight after it. The model's own: the default parameters, for
which every element of BYTES, BITS and SAMP and 255 entries of SCN_TSEL exist (log 3), and what a host read answers of a
slot that is not valid and of cells without a value (log 6, log 7). -/
def Obligations.ResetStateAndFirstCommands : Prop :=
  State.reset.frmP = 0 ∧ State.reset.frmW = 0 ∧ State.reset.frmH = 0 ∧ State.reset.frmNc = 0 ∧
  State.reset.scnNs = 0 ∧ State.reset.scnSs = 0 ∧ State.reset.scnPt = 0 ∧
  (∀ c < 255, hostRead (.scnTsel c) State.reset = .number 0) ∧
  State.reset.blen = 0 ∧ State.reset.bcur = 0 ∧ State.reset.bitlen = 0 ∧ State.reset.bitpos = 0 ∧
  State.reset.slen = 0 ∧ State.reset.marker = false ∧ State.reset.ambig = false ∧
  hostRead .flagScandone State.reset = .number 1 ∧
  State.reset.fault = 0 ∧ State.reset.finfo = 0 ∧ State.reset.diff = 0 ∧
  (∀ len, 1 ≤ len → len ≤ 16 → hostRead (.cltCnt len) State.reset = .number 0) ∧
  (∀ len i, 1 ≤ len → len ≤ 16 → i < 16 → hostRead (.cltSym len i) State.reset = .unspecified) ∧
  (∀ key, hostRead (.htValid key) State.reset = .number 0 ∧ hostRead (.htMin key) State.reset = .unspecified ∧
    hostRead (.htMax key) State.reset = .unspecified ∧
    ∀ code, hostRead (.htMap key code) State.reset = .unspecified) ∧
  (∀ i, hostRead (.bytes i) State.reset = .unspecified ∧ hostRead (.bits i) State.reset = .unspecified ∧
    hostRead (.samp i) State.reset = .unspecified) ∧
  (∀ key, exec (.htbuild key) State.reset =
    .next { State.reset with ht := [(key.toNat, { map := [], lens := none })] }) ∧
  exec .bsextract State.reset = .next State.reset ∧
  (∀ key, exec (.eddiff key) State.reset =
    .next { State.reset with fault := 2, finfo := BitVec.ofNat 40 key.toNat }) ∧
  exec .prinit State.reset = .next State.reset ∧
  exec .prsample State.reset = .next State.reset ∧
  exec .prscan State.reset = .next State.reset ∧
  exec .scan State.reset = .next State.reset

/-- R230 with the model's own fields (log 15): the reset input restores the reset state, from any state. -/
def Obligations.ResetInputRestoresResetState : Prop :=
  ∀ (s : State) (rest : List HostOp), s.host = .reset :: rest →
    step s = .next { State.reset with params := s.params, session := s.session + 1, host := rest }

/-- The invariant holds at reset. -/
def Obligations.InvariantHoldsAtReset : Prop := Inv State.reset

/-- Every step keeps the invariant, from every state that meets it. -/
def Obligations.EveryStepKeepsInvariant : Prop :=
  ∀ s t : State, Inv s → step s = .next t → Inv t

/-- R71 and the model's queue (log 1): a CMD write runs the decoded command, or raises ILLEGAL_CMD. -/
def Obligations.CmdWriteRunsDecodedCommand : Prop :=
  ∀ (s : State) (w : Word) (rest : List HostOp), s.host = .cmd w :: rest →
    (s.fault ≠ 0 → step s = .next { s with host := rest }) ∧
    (s.fault = 0 → ∀ i, decode w = .ok i → step s = exec i { s with host := rest }) ∧
    (s.fault = 0 → ∀ e, decode w = .error e →
      step s = .next { s with host := rest, fault := 8, finfo := w.setWidth 40 })

/-- Words written out from R70, R72 and R93. -/
def Obligations.CommandWordsDecodeAsWritten : Prop :=
  decode 0x0100 = .ok (.htbuild 0x00) ∧ decode 0x01FF = .ok (.htbuild 0xFF) ∧
  decode 0x0200 = .ok .bsextract ∧ decode 0x0310 = .ok (.eddiff 0x10) ∧
  decode 0x0400 = .ok .prinit ∧ decode 0x0500 = .ok .prsample ∧
  decode 0x0600 = .ok .prscan ∧ decode 0x0700 = .ok .scan

/-- The mask and match columns of R72: which words select which row, and that no word selects a codeword row. -/
def Obligations.DecodeFollowsMaskAndMatch : Prop :=
  ∀ w : Word,
    (∀ key, decode w = .ok (.htbuild key) ↔ w &&& 0xFF00 = 0x0100 ∧ key = w.setWidth 8) ∧
    (∀ key, decode w = .ok (.eddiff key) ↔ w &&& 0xFF00 = 0x0300 ∧ key = w.setWidth 8) ∧
    (decode w = .ok .bsextract ↔ w &&& 0xFFFF = 0x0200) ∧
    (decode w = .ok .prinit ↔ w &&& 0xFFFF = 0x0400) ∧
    (decode w = .ok .prsample ↔ w &&& 0xFFFF = 0x0500) ∧
    (decode w = .ok .prscan ↔ w &&& 0xFFFF = 0x0600) ∧
    (decode w = .ok .scan ↔ w &&& 0xFFFF = 0x0700) ∧
    ∀ i, decode w = .ok i → i.codeword? = none

/-- R87 and the model's queue (log 1): a word of no row of R72, written to CMD while FAULT = 0, raises ILLEGAL_CMD and
changes nothing else, but that the operation is removed from the list, which is the model's choice. -/
def Obligations.IllegalWordRaisesIllegalCmd : Prop :=
  ∀ (s : State) (w : Word) (rest : List HostOp), s.host = .cmd w :: rest → s.fault = 0 →
    w &&& 0xFF00 ≠ 0x0100 → w &&& 0xFF00 ≠ 0x0300 →
    w ≠ 0x0200 → w ≠ 0x0400 → w ≠ 0x0500 → w ≠ 0x0600 → w ≠ 0x0700 →
    step s = .next { s with host := rest, fault := 8, finfo := w.setWidth 40 }

/-- Decoding the encoded word of a command gives the command back, for every command and key. -/
def Obligations.CommandDecodeInvertsEncode : Prop :=
  ∀ i : Instr, i.codeword? = none → ∃ w, encode i = .word w ∧ decode w = .ok i

/-- R85: with a well-formed table that finds its code, the encoded codeword, followed by anything, decodes to itself
and leaves what followed. -/
def Obligations.CodewordDecodeInvertsEncode : Prop :=
  ∀ (table : HuffTable) (i : Instr) (ssss code v : Nat) (rest : List Bool),
    WfTable table → i.wf = true → i.codeword? = some (ssss, code, v) → FindsCode table ssss code →
    encode i = .bits (codewordBits ssss code v) ∧
    decodeCodeword table (codewordBits ssss code v ++ rest) = .ok (i, rest)

/-- The other direction: what decodes as a codeword is exactly that codeword's bits followed by the rest. -/
def Obligations.CodewordEncodeInvertsDecode : Prop :=
  ∀ (table : HuffTable) (bits rest : List Bool) (i : Instr),
    WfTable table → decodeCodeword table bits = .ok (i, rest) →
    i.wf = true ∧ encode i = .bits (instrBits i) ∧ bits = instrBits i ++ rest

/-- R215, R55: while FAULT is not 0, no instruction and no CMD write changes any state, whatever the word; every other
host operation stores what it stores without the fault, and host reads answer what they answer without it. R215 speaks of
commands: that a codeword executed alone has the gate too is the model's choice (log 4), and so is the list of operations
from which the step removes the one it carries out (log 1). -/
def Obligations.FaultGateIgnoresCommands : Prop :=
  ∀ s : State, s.fault ≠ 0 →
    (∀ i, exec i s = .next s) ∧
    (∀ w rest, s.host = .cmd w :: rest → step s = .next { s with host := rest }) ∧
    (∀ op rest t, s.host = op :: rest → (∀ w, op ≠ .cmd w) → op ≠ .reset →
      step { s with fault := 0, finfo := 0 } = .next t →
      step s = .next { t with fault := s.fault, finfo := s.finfo }) ∧
    ∀ target, target ≠ .fault → target ≠ .finfo →
      hostRead target s = hostRead target { s with fault := 0, finfo := 0 }

/-- R216, R35: no command and no host write clears or replaces a fault; reset does, and it clears everything else. The
model's own: a codeword executed alone counts among the instructions (log 4), and a reset keeps the parameters and the
later operations and begins a new session (log 15). -/
def Obligations.OnlyResetClearsFault : Prop :=
  (∀ s t : State, s.fault ≠ 0 → s.host.head? ≠ some .reset → step s = .next t →
    t.fault = s.fault ∧ t.finfo = s.finfo) ∧
  (∀ (i : Instr) (s t : State), s.fault ≠ 0 → exec i s = .next t → t.fault = s.fault ∧ t.finfo = s.finfo) ∧
  ∀ (s : State) (rest : List HostOp), s.host = .reset :: rest → ∃ t, step s = .next t ∧ t.fault = 0 ∧ t.finfo = 0 ∧
    t = { State.reset with params := s.params, session := s.session + 1, host := rest }

/-- R244: every instruction, in every state, ends in a next state. R244 speaks of commands: that a codeword executed
alone ends so too is the model's choice (log 4), and that every failure is a next state is deduced (log 8). -/
def Obligations.EveryInstructionTerminates : Prop :=
  ∀ (i : Instr) (s : State), ∃ t, exec i s = .next t

/-! ### Whole-machine frames -/

/-- The core-writes column of R20: no instruction writes a descriptor, BLEN, the code-length table or BYTES, and each
remaining register and space has its own writers (a codeword executed alone writes what EDDIFF writes, log 4). -/
def Obligations.EachStateHasOnlyItsWriters : Prop :=
  ∀ (i : Instr) (s t : State), exec i s = .next t →
    SameInputs s t ∧
    ((∀ key, i ≠ .htbuild key) → t.ht = s.ht) ∧
    (i ≠ .bsextract → i ≠ .scan →
      t.bits = s.bits ∧ t.bitlen = s.bitlen ∧ t.bcur = s.bcur ∧ t.marker = s.marker ∧ t.ambig = s.ambig) ∧
    (i ≠ .prsample → i ≠ .prscan → i ≠ .scan → t.samp = s.samp) ∧
    (i ≠ .prinit → i ≠ .prsample → i ≠ .prscan → i ≠ .scan → t.slen = s.slen) ∧
    ((∀ key, i ≠ .eddiff key) → i.codeword? = none → t.diff = s.diff) ∧
    ((∃ key, i = .htbuild key) ∨ i = .prinit → t.bitpos = s.bitpos)

/-- R30: nothing but BSEXTRACT and SCAN lowers BITPOS, and no instruction at all moves it beyond BITLEN. What a codeword
executed alone does is the model's choice (log 4). -/
def Obligations.BitCursorNeverRewound : Prop :=
  ∀ (i : Instr) (s t : State), exec i s = .next t →
    (i ≠ .bsextract → i ≠ .scan → s.bitpos ≤ t.bitpos) ∧ (s.bitpos ≤ s.bitlen → t.bitpos ≤ t.bitlen)

/-- R44, R53: cells of BITS at or beyond BITLEN and of SAMP at or beyond SLEN influence nothing. What a codeword executed
alone does is the model's choice (log 4), and so is that such cells keep contents at all (log 11). -/
def Obligations.UnusedCellsNeverRead : Prop :=
  ∀ (i : Instr) (s s' t t' : State), SameBelowLengths s s' →
    exec i s = .next t → exec i s' = .next t' → SameBelowLengths t t'

/-! ### HTBUILD -/

/-- R101, completion and frame: on a legal code-length table HTBUILD writes one slot with the table the derivation
gives, and nothing else. -/
def Obligations.HtbuildWritesDerivedTable : Prop :=
  ∀ (s : State) (key : Byte), s.fault = 0 → CltLegal s →
    ∃ t, exec (.htbuild key) s = .next t ∧
      t = { s with ht := s.ht.write key.toNat (tableOf (symbolEntries s)) } ∧
      slot t key = some (tableOf (symbolEntries s)) ∧
      ∀ other, other ≠ key → slot t other = slot s other

/-- R102: counts are tested first, then the symbols read; a refused table leaves every slot as it was. -/
def Obligations.HtbuildRefusesIllegalTable : Prop :=
  ∀ (s : State) (key : Byte), s.fault = 0 →
    ((∃ len, 1 ≤ len ∧ len ≤ 16 ∧ 16 < cltCount s len) →
      exec (.htbuild key) s = .next { s with fault := 6, finfo := 1 }) ∧
    ((∀ len, 1 ≤ len → len ≤ 16 → cltCount s len ≤ 16) →
      (∃ len i, 1 ≤ len ∧ len ≤ 16 ∧ i < cltCount s len ∧ 16 < (cltSymbol s len i).toNat) →
      exec (.htbuild key) s = .next { s with fault := 6, finfo := 2 }) ∧
    (CltLegal s → ∃ t, exec (.htbuild key) s = .next t ∧ t.fault = 0 ∧ t.finfo = s.finfo)

/-- R110: nothing of an old table remains. -/
def Obligations.RebuildReplacesWholeSlot : Prop :=
  ∀ (s t t' : State) (key : Byte) (old : Memory HuffTable), s.fault = 0 → CltLegal s →
    exec (.htbuild key) s = .next t → exec (.htbuild key) { s with ht := old } = .next t' →
    (slot t key).isSome = true ∧ slot t' key = slot t key

/-- R104: `x 0 1..1` becomes `x 1`, a code of all ones becomes `1`, every code is one or the other, the result is at
least 3 for every code from 1 on; and the rule's examples. -/
def Obligations.SuccessorTurnsLeftThenRight : Prop :=
  (∀ x j : Nat, 1 ≤ x → succCode (2 * x * 2 ^ j + (2 ^ j - 1)) = 2 * x + 1) ∧
  (∀ j : Nat, 1 ≤ j → succCode (2 ^ (j + 1) - 1) = 3) ∧
  (∀ c : Nat, 2 ≤ c → (∃ x j, 1 ≤ x ∧ c = 2 * x * 2 ^ j + (2 ^ j - 1)) ∨ ∃ j, 1 ≤ j ∧ c = 2 ^ (j + 1) - 1) ∧
  (∀ c : Nat, 1 ≤ c → 3 ≤ succCode c) ∧
  [0b100, 0b101, 0b110, 0b1100, 0b11110, 0b111, 0b11].map succCode =
    [0b101, 0b11, 0b111, 0b1101, 0b11111, 0b11, 0b11]

/-- R106: every key inserted at length L satisfies 2^L <= key < 2^(L+1), and is at least 2 and below 2^17. -/
def Obligations.InsertedKeysFitTheirLength : Prop :=
  ∀ s : State, List.Forall₂
    (fun e ins => 2 ^ e.1 ≤ ins.1 ∧ ins.1 < 2 ^ (e.1 + 1) ∧ 2 ≤ ins.1 ∧ ins.1 < 2 ^ 17 ∧ ins.2 = e.2)
    (symbolEntries s) (insertions none (symbolEntries s))

/-- R107: min is the least L with CLT_CNT[L] > 0 and max the greatest, and they are the least and greatest nbits over
the keys. -/
def Obligations.LengthsAreLeastAndGreatest : Prop :=
  ∀ (s : State) (lens : Lengths), (tableOf (symbolEntries s)).lens = some lens →
    (1 ≤ lens.min.toNat ∧ lens.min.toNat ≤ 16 ∧ 0 < cltCount s lens.min.toNat) ∧
    (1 ≤ lens.max.toNat ∧ lens.max.toNat ≤ 16 ∧ 0 < cltCount s lens.max.toNat) ∧
    (∀ len, 1 ≤ len → len ≤ 16 → 0 < cltCount s len → lens.min.toNat ≤ len ∧ len ≤ lens.max.toNat) ∧
    (∀ e ∈ (tableOf (symbolEntries s)).map, lens.min.toNat ≤ nbits e.1 ∧ nbits e.1 ≤ lens.max.toNat) ∧
    (∃ e ∈ (tableOf (symbolEntries s)).map, nbits e.1 = lens.min.toNat) ∧
    ∃ e ∈ (tableOf (symbolEntries s)).map, nbits e.1 = lens.max.toNat

/-- R108: all counts 0 give a valid slot with an empty map and lengths that answer "unspecified"; a decode with it
raises EMPTY_TABLE and consumes no bit. The model's own: lengths that are absent and answer so (log 6), and that the map
answers "not in the domain" at a number outside 2 .. 2^17 - 1 too (log 7). -/
def Obligations.EmptyLengthTableGivesEmptyTable : Prop :=
  ∀ (s : State) (key : Byte), s.fault = 0 → (∀ len, 1 ≤ len → len ≤ 16 → cltCount s len = 0) →
    ∃ t, exec (.htbuild key) s = .next t ∧
      t = { s with ht := s.ht.write key.toNat { map := [], lens := none } } ∧
      hostRead (.htValid key) t = .number 1 ∧ (∀ code, hostRead (.htMap key code) t = .entry none) ∧
      hostRead (.htMin key) t = .unspecified ∧ hostRead (.htMax key) t = .unspecified ∧
      exec (.eddiff key) t = .next { t with fault := 4, finfo := BitVec.ofNat 40 key.toNat }

/-- R109 (a): of several insertions with one code the last one stands; a code never inserted is no key. -/
def Obligations.LastInsertionOfACodeStands : Prop :=
  ∀ (ins : List (Nat × Symbol)) (code : Nat),
    (mapOf ins).read code = (ins.reverse.find? fun e => e.1 == code).map Prod.snd

/-- R111: on counts that do not ask for more codes than exist, the derivation is the usual canonical code. -/
def Obligations.DerivationIsCanonical : Prop :=
  ∀ s : State, ValidCounts ((symbolEntries s).map Prod.fst) →
    insertions none (symbolEntries s) = canonicalCodes none (symbolEntries s)

/-- R112: on such counts no key's bits are a prefix of another's. -/
def Obligations.ValidTablesArePrefixFree : Prop :=
  ∀ s : State, ValidCounts ((symbolEntries s).map Prod.fst) →
    PrefixFree (tableOf (symbolEntries s)).map

/-! ### BSEXTRACT -/

/-- R121, completion and frame: the bits go to BITS[0 ..], the cursors and flags are written, nothing else; BLEN above
BYTES_CAP raises BAD_PARAM(3) before any write. -/
def Obligations.BsextractStoresExtraction : Prop :=
  ∀ s : State, s.fault = 0 →
    (BlenFits s → ∃ t, exec .bsextract s = .next t ∧
      t = { s with
        bits := t.bits, bitlen := (extract s s.bcur).out.length, bitpos := 0, bcur := (extract s s.bcur).cursor
        marker := (extract s s.bcur).marker, ambig := (extract s s.bcur).ambig } ∧
      (∀ j < t.bitlen, t.bits.read j = (extract s s.bcur).out[j]?) ∧
      ∀ j, t.bitlen ≤ j → t.bits.read j = s.bits.read j) ∧
    (¬ BlenFits s → exec .bsextract s = .next { s with fault := 6, finfo := 3 })

/-- R80, R122 to R125: extraction undoes stuffing. The stuffed data may end at BLEN, at a marker, or at BLEN with a
last lone 0xFF, which is data. -/
def Obligations.ExtractionUndoesStuffing : Prop :=
  ∀ (s : State) (data : List Byte), s.fault = 0 → BlenFits s →
    (BytesHold s s.bcur (stuff data) → s.blen = s.bcur + (stuff data).length →
      ∃ t, exec .bsextract s = .next t ∧ t.bitlen = 8 * data.length ∧ BitsHold t 0 (data.flatMap bits8) ∧
        t.bitpos = 0 ∧ t.bcur = s.blen ∧ t.marker = false ∧ t.ambig = false) ∧
    (∀ next : Byte, next ≠ 0x00 → BytesHold s s.bcur (stuff data ++ [0xFF, next]) →
      ∃ t, exec .bsextract s = .next t ∧ t.bitlen = 8 * data.length ∧ BitsHold t 0 (data.flatMap bits8) ∧
        t.bitpos = 0 ∧ t.bcur = s.bcur + (stuff data).length ∧ t.marker = true ∧
        t.ambig = decide (next = 0xFF)) ∧
    (BytesHold s s.bcur (stuff data ++ [0xFF]) → s.blen = s.bcur + (stuff data).length + 1 →
      ∃ t, exec .bsextract s = .next t ∧ t.bitlen = 8 * (data.length + 1) ∧
        BitsHold t 0 ((data ++ [0xFF]).flatMap bits8) ∧
        t.bitpos = 0 ∧ t.bcur = s.blen ∧ t.marker = false ∧ t.ambig = false)

/-- R124 to R126: what the two flags and the final cursor say of the byte stream, for any bytes at all. -/
def Obligations.FlagsTellWhereExtractionStopped : Prop :=
  ∀ s t : State, s.fault = 0 → BlenFits s → exec .bsextract s = .next t →
    (t.marker = true → s.bcur ≤ t.bcur ∧ t.bcur + 1 < s.blen ∧ byteAt s t.bcur = 0xFF ∧
      byteAt s (t.bcur + 1) ≠ 0x00) ∧
    (t.marker = false → t.bcur = max s.bcur s.blen ∧ t.ambig = false) ∧
    (t.ambig = true ↔ t.marker = true ∧ byteAt s (t.bcur + 1) = 0xFF)

/-- R128: BITLEN is a multiple of 8 and at most 8 x (BLEN - BCUR). -/
def Obligations.ExtractedLengthBound : Prop :=
  ∀ s t : State, s.fault = 0 → BlenFits s → exec .bsextract s = .next t →
    8 ∣ t.bitlen ∧ t.bitlen ≤ 8 * (s.blen - s.bcur)

/-- R127: an extraction that starts at or beyond the end, or at a marker, gives no bits and leaves BCUR. -/
def Obligations.EmptyExtraction : Prop :=
  ∀ s : State, s.fault = 0 → BlenFits s →
    (s.blen ≤ s.bcur → exec .bsextract s =
      .next { s with bitlen := 0, bitpos := 0, marker := false, ambig := false }) ∧
    (s.bcur + 1 < s.blen → byteAt s s.bcur = 0xFF → byteAt s (s.bcur + 1) ≠ 0x00 → exec .bsextract s =
      .next { s with bitlen := 0, bitpos := 0, marker := true, ambig := decide (byteAt s (s.bcur + 1) = 0xFF) })

/-! ### EDDIFF and the codewords -/

/-- R144: a slot never built and a slot with an empty map are refused before any bit is consumed. -/
def Obligations.EddiffTestsTheTable : Prop :=
  ∀ (s : State) (key : Byte), s.fault = 0 →
    (slot s key = none →
      exec (.eddiff key) s = .next { s with fault := 2, finfo := BitVec.ofNat 40 key.toNat }) ∧
    (∀ table, slot s key = some table → table.map = [] →
      exec (.eddiff key) s = .next { s with fault := 4, finfo := BitVec.ofNat 40 key.toNat })

/-- R142, R150, completion and frame: with a codeword at the cursor EDDIFF consumes exactly its bits and DIFF holds its
difference, in 18 bits without loss. -/
def Obligations.EddiffDecodesCodewordAtCursor : Prop :=
  ∀ (s : State) (key : Byte) (i : Instr), s.fault = 0 → CodewordAt s key s.bitpos i →
    exec (.eddiff key) s =
      .next { s with bitpos := s.bitpos + (instrBits i).length, diff := BitVec.ofInt 18 (instrDifference i) } ∧
    (BitVec.ofInt 18 (instrDifference i)).toInt = instrDifference i

/-- The two formats agree: an EDDIFF that raises nothing did exactly what the codeword at the cursor does when executed
(log 4), and there is such a codeword. -/
def Obligations.EddiffRunsExactlyOneCodeword : Prop :=
  ∀ (s t : State) (key : Byte), s.fault = 0 → (∀ table, slot s key = some table → WfTable table) →
    exec (.eddiff key) s = .next t → t.fault = 0 →
    ∃ i, CodewordAt s key s.bitpos i ∧ exec i s = .next t

/-- R148: with no key among the first (min - 1) + max bits the miss is MALFORMED_CODE after exactly that many bits; if
the bit sequence runs out first it is BITS_EXHAUSTED. DIFF keeps its value. FINFO holds the new BITPOS whenever it fits
40 bits. -/
def Obligations.MissedCodeRaisesAfterTheBound : Prop :=
  (∀ n < 2 ^ 40, (finfoOf n).toNat = n) ∧
  ∀ (s : State) (key : Byte) (table : HuffTable) (lens : Lengths) (bs : List Bool), s.fault = 0 →
    slot s key = some table → WfTable table → table.lens = some lens → BitsHold s s.bitpos bs →
    (∀ e ∈ table.map, ¬ codeBits e.1 <+: bs) →
    (bs.length = lens.min.toNat - 1 + lens.max.toNat →
      exec (.eddiff key) s = .next { s with
        bitpos := s.bitpos + (lens.min.toNat - 1 + lens.max.toNat), fault := 1
        finfo := finfoOf (s.bitpos + (lens.min.toNat - 1 + lens.max.toNat)) }) ∧
    (bs.length < lens.min.toNat - 1 + lens.max.toNat → s.bitlen = s.bitpos + bs.length →
      exec (.eddiff key) s = .next { s with bitpos := s.bitlen, fault := 5, finfo := finfoOf s.bitlen })

/-- R143: bits that end inside a codeword raise BITS_EXHAUSTED, with every remaining bit consumed and DIFF kept. -/
def Obligations.TruncatedCodewordRaisesBitsExhausted : Prop :=
  ∀ (s : State) (key : Byte) (table : HuffTable) (ssss code v : Nat) (bs : List Bool), s.fault = 0 →
    slot s key = some table → WfTable table → FindsCode table ssss code →
    bs <+: codewordBits ssss code v → bs ≠ codewordBits ssss code v →
    BitsHold s s.bitpos bs → s.bitlen = s.bitpos + bs.length →
    exec (.eddiff key) s = .next { s with bitpos := s.bitlen, fault := 5, finfo := finfoOf s.bitlen }

/-- R151: the result lies in -32767 .. 32768; -32768 never occurs, and 32768 only for category 16. -/
def Obligations.DifferenceRange : Prop :=
  (∀ (s s' : State) (key : Byte) (d : Int), decodeDiff key s = .ok d s' → -32767 ≤ d ∧ d ≤ 32768) ∧
  ∀ ssss v : Nat, ssss ≤ 16 → v < 2 ^ ssss → (differenceOf ssss v = 32768 ↔ ssss = 16)

/-- R152: a successful decode consumes n + e bits, n the length of the matched code, which is the key found at the
cursor, and e = SSSS for 1..15, else 0; so 1 to 31 bits. -/
def Obligations.DecodeConsumesOneToThirtyOneBits : Prop :=
  ∀ (s t : State) (key : Byte) (table : HuffTable) (lens : Lengths), s.fault = 0 → slot s key = some table →
    WfTable table → table.lens = some lens → exec (.eddiff key) s = .next t → t.fault = 0 →
    ∃ e ∈ table.map, FindsCode table e.2.val e.1 ∧ BitsHold s s.bitpos (codeBits e.1) ∧
      lens.min.toNat ≤ nbits e.1 ∧ nbits e.1 ≤ lens.max.toNat ∧
      t.bitpos = s.bitpos + nbits e.1 + (if e.2.val = 16 then 0 else e.2.val) ∧
      1 ≤ t.bitpos - s.bitpos ∧ t.bitpos - s.bitpos ≤ 31

/-- R155: the sign-magnitude rule and its inverse, both ways round, with the inverse as the rule states it: the number
of bits of the magnitude, and d or d - 1 + 2^SSSS. -/
def Obligations.DifferenceRoundTrip : Prop :=
  (∀ d : Int, -32767 ≤ d → d ≤ 32768 →
    categoryOf d ≤ 16 ∧ extraOf d < 2 ^ extraCount (categoryOf d) ∧ differenceOf (categoryOf d) (extraOf d) = d) ∧
  (∀ d : Int, d ≠ 0 → -32767 ≤ d → d ≤ 32767 →
    2 ^ (categoryOf d - 1) ≤ d.natAbs ∧ d.natAbs < 2 ^ categoryOf d ∧ 1 ≤ categoryOf d ∧ categoryOf d ≤ 15 ∧
    (0 < d → (extraOf d : Int) = d) ∧ (d < 0 → (extraOf d : Int) = d - 1 + 2 ^ categoryOf d)) ∧
  ∀ ssss v : Nat, 1 ≤ ssss → ssss ≤ 15 → v < 2 ^ ssss →
    categoryOf (differenceOf ssss v) = ssss ∧ extraOf (differenceOf ssss v) = v

/-- R81, R82, completion and frame of all seventeen codewords, executed alone (log 4): the code and the extra bits are
consumed and DIFF holds the difference of the table of R82. -/
def Obligations.CodewordsRunAlone : Prop :=
  ∀ (s : State) (code : BitVec 17), s.fault = 0 →
    (s.bitpos + nbits code.toNat ≤ s.bitlen → RunsTo (.diffSsss0 code) s (nbits code.toNat) 0) ∧
    (∀ e : BitVec 1, s.bitpos + (nbits code.toNat + 1) ≤ s.bitlen → RunsTo (.diffSsss1 code e) s
      (nbits code.toNat + 1) (if e.msb then (e.toNat : Int) else (e.toNat : Int) + 1 - 2)) ∧
    (∀ e : BitVec 2, s.bitpos + (nbits code.toNat + 2) ≤ s.bitlen → RunsTo (.diffSsss2 code e) s
      (nbits code.toNat + 2) (if e.msb then (e.toNat : Int) else (e.toNat : Int) + 1 - 4)) ∧
    (∀ e : BitVec 3, s.bitpos + (nbits code.toNat + 3) ≤ s.bitlen → RunsTo (.diffSsss3 code e) s
      (nbits code.toNat + 3) (if e.msb then (e.toNat : Int) else (e.toNat : Int) + 1 - 8)) ∧
    (∀ e : BitVec 4, s.bitpos + (nbits code.toNat + 4) ≤ s.bitlen → RunsTo (.diffSsss4 code e) s
      (nbits code.toNat + 4) (if e.msb then (e.toNat : Int) else (e.toNat : Int) + 1 - 16)) ∧
    (∀ e : BitVec 5, s.bitpos + (nbits code.toNat + 5) ≤ s.bitlen → RunsTo (.diffSsss5 code e) s
      (nbits code.toNat + 5) (if e.msb then (e.toNat : Int) else (e.toNat : Int) + 1 - 32)) ∧
    (∀ e : BitVec 6, s.bitpos + (nbits code.toNat + 6) ≤ s.bitlen → RunsTo (.diffSsss6 code e) s
      (nbits code.toNat + 6) (if e.msb then (e.toNat : Int) else (e.toNat : Int) + 1 - 64)) ∧
    (∀ e : BitVec 7, s.bitpos + (nbits code.toNat + 7) ≤ s.bitlen → RunsTo (.diffSsss7 code e) s
      (nbits code.toNat + 7) (if e.msb then (e.toNat : Int) else (e.toNat : Int) + 1 - 128)) ∧
    (∀ e : BitVec 8, s.bitpos + (nbits code.toNat + 8) ≤ s.bitlen → RunsTo (.diffSsss8 code e) s
      (nbits code.toNat + 8) (if e.msb then (e.toNat : Int) else (e.toNat : Int) + 1 - 256)) ∧
    (∀ e : BitVec 9, s.bitpos + (nbits code.toNat + 9) ≤ s.bitlen → RunsTo (.diffSsss9 code e) s
      (nbits code.toNat + 9) (if e.msb then (e.toNat : Int) else (e.toNat : Int) + 1 - 512)) ∧
    (∀ e : BitVec 10, s.bitpos + (nbits code.toNat + 10) ≤ s.bitlen → RunsTo (.diffSsss10 code e) s
      (nbits code.toNat + 10) (if e.msb then (e.toNat : Int) else (e.toNat : Int) + 1 - 1024)) ∧
    (∀ e : BitVec 11, s.bitpos + (nbits code.toNat + 11) ≤ s.bitlen → RunsTo (.diffSsss11 code e) s
      (nbits code.toNat + 11) (if e.msb then (e.toNat : Int) else (e.toNat : Int) + 1 - 2048)) ∧
    (∀ e : BitVec 12, s.bitpos + (nbits code.toNat + 12) ≤ s.bitlen → RunsTo (.diffSsss12 code e) s
      (nbits code.toNat + 12) (if e.msb then (e.toNat : Int) else (e.toNat : Int) + 1 - 4096)) ∧
    (∀ e : BitVec 13, s.bitpos + (nbits code.toNat + 13) ≤ s.bitlen → RunsTo (.diffSsss13 code e) s
      (nbits code.toNat + 13) (if e.msb then (e.toNat : Int) else (e.toNat : Int) + 1 - 8192)) ∧
    (∀ e : BitVec 14, s.bitpos + (nbits code.toNat + 14) ≤ s.bitlen → RunsTo (.diffSsss14 code e) s
      (nbits code.toNat + 14) (if e.msb then (e.toNat : Int) else (e.toNat : Int) + 1 - 16384)) ∧
    (∀ e : BitVec 15, s.bitpos + (nbits code.toNat + 15) ≤ s.bitlen → RunsTo (.diffSsss15 code e) s
      (nbits code.toNat + 15) (if e.msb then (e.toNat : Int) else (e.toNat : Int) + 1 - 32768)) ∧
    (s.bitpos + nbits code.toNat ≤ s.bitlen → RunsTo (.diffSsss16 code) s (nbits code.toNat) 32768)

/-- R143 for a codeword executed alone: missing bits raise BITS_EXHAUSTED and DIFF keeps its value. -/
def Obligations.CodewordWithMissingBitsRaises : Prop :=
  ∀ (s : State) (i : Instr), s.fault = 0 → i.codeword? ≠ none → s.bitpos ≤ s.bitlen →
    s.bitlen < s.bitpos + (instrBits i).length →
    exec i s = .next { s with bitpos := s.bitlen, fault := 5, finfo := finfoOf s.bitlen }

/-! ### PRINIT, PRSAMPLE, PRSCAN, SCAN -/

/-- R161: SLEN becomes 0 and nothing else changes, unless the fault gate is closed; SCANDONE follows SLEN. -/
def Obligations.PrinitEmptiesTheBuffer : Prop :=
  ∀ s : State,
    (s.fault ≠ 0 → exec .prinit s = .next s) ∧
    (s.fault = 0 → exec .prinit s = .next { s with slen := 0 }) ∧
    hostRead .flagScandone { s with slen := 0 } = .number (if totalSamples s = 0 then 1 else 0)

/-- R163: the total has at most 40 bits; on a complete buffer nothing is reconstructed, consumed, raised or checked; with
W, H or Nc = 0 the total is 0 and neither command ever produces a sample. -/
def Obligations.CompleteBufferDoesNothing : Prop :=
  ∀ s : State, totalSamples s = s.frmW.toNat * s.frmH.toNat * s.frmNc.toNat ∧ totalSamples s < 2 ^ 40 ∧
    (s.slen = totalSamples s → exec .prsample s = .next s ∧ exec .prscan s = .next s) ∧
    (s.frmW = 0 ∨ s.frmH = 0 ∨ s.frmNc = 0 → totalSamples s = 0 ∧
      ∀ t, exec .prsample s = .next t ∨ exec .prscan s = .next t → t.slen = s.slen ∧ t.samp = s.samp)

/-- R162: the tests of CheckScan in their order, for a buffer that is not complete. -/
def Obligations.ScanTestsInOrder : Prop :=
  ∀ (s : State) (i : Instr), s.fault = 0 → s.slen ≠ totalSamples s → i = .prsample ∨ i = .prscan →
    (s.frmP.toNat < 2 ∨ 16 < s.frmP.toNat → exec i s = .next { s with fault := 6, finfo := 4 }) ∧
    (2 ≤ s.frmP.toNat → s.frmP.toNat ≤ 16 →
      (s.frmP.toNat - 1 < s.scnPt.toNat → exec i s = .next { s with fault := 6, finfo := 5 }) ∧
      (s.scnPt.toNat ≤ s.frmP.toNat - 1 →
        (s.params.ncMax < s.frmNc.toNat → exec i s = .next { s with fault := 6, finfo := 6 }) ∧
        (s.frmNc.toNat ≤ s.params.ncMax →
          (∀ cap, s.params.sampCap = some cap → cap < totalSamples s →
            exec i s = .next { s with fault := 7, finfo := BitVec.ofNat 40 (totalSamples s) }) ∧
          ((∀ cap, s.params.sampCap = some cap → totalSamples s ≤ cap) → totalSamples s < s.slen →
            exec i s = .next { s with fault := 6, finfo := 8 }))))

/-- R164: the tests after CheckScan: a component the scan gives no selector for raises BAD_PARAM(7); a slot never built
NO_TABLE; an empty slot EMPTY_TABLE. No sample is appended and no bit consumed. -/
def Obligations.TableSelectionFaults : Prop :=
  ∀ s : State, s.fault = 0 → ScanLegal s → s.slen < totalSamples s →
    (s.scnNs.toNat ≤ s.slen % s.frmNc.toNat → exec .prsample s = .next { s with fault := 6, finfo := 7 }) ∧
    (s.slen % s.frmNc.toNat < s.scnNs.toNat →
      (slot s (tableKey s (s.slen % s.frmNc.toNat)) = none → exec .prsample s = .next { s with
        fault := 2, finfo := BitVec.ofNat 40 (tableKey s (s.slen % s.frmNc.toNat)).toNat }) ∧
      (∀ table, slot s (tableKey s (s.slen % s.frmNc.toNat)) = some table → table.map = [] →
        exec .prsample s = .next { s with
          fault := 4, finfo := BitVec.ofNat 40 (tableKey s (s.slen % s.frmNc.toNat)).toNat }))

/-- R166, and the index map of R45: the position derived from SLEN lies in the frame, and the map gives SLEN back. -/
def Obligations.PositionLiesInFrame : Prop :=
  ∀ s : State, s.slen < totalSamples s → 0 < s.frmNc.toNat ∧ 0 < s.frmW.toNat ∧
    component s = s.slen % s.frmNc.toNat ∧ column s = s.slen / s.frmNc.toNat % s.frmW.toNat ∧
    row s = s.slen / s.frmNc.toNat / s.frmW.toNat ∧
    component s < s.frmNc.toNat ∧ column s < s.frmW.toNat ∧ row s < s.frmH.toNat ∧
    (row s * s.frmW.toNat + column s) * s.frmNc.toNat + component s = s.slen

/-- R167: the neighbours' indices are those of (c, x-1, y), (c, x, y-1) and (c, x-1, y-1). -/
def Obligations.NeighbourOffsetsNameTheirPositions : Prop :=
  ∀ s : State, s.slen < totalSamples s →
    (0 < column s → s.frmNc.toNat ≤ s.slen ∧
      component (atSample s (s.slen - s.frmNc.toNat)) = component s ∧
      column (atSample s (s.slen - s.frmNc.toNat)) = column s - 1 ∧
      row (atSample s (s.slen - s.frmNc.toNat)) = row s) ∧
    (0 < row s → s.frmW.toNat * s.frmNc.toNat ≤ s.slen ∧
      component (atSample s (s.slen - s.frmW.toNat * s.frmNc.toNat)) = component s ∧
      column (atSample s (s.slen - s.frmW.toNat * s.frmNc.toNat)) = column s ∧
      row (atSample s (s.slen - s.frmW.toNat * s.frmNc.toNat)) = row s - 1) ∧
    (0 < column s → 0 < row s → s.frmW.toNat * s.frmNc.toNat + s.frmNc.toNat ≤ s.slen ∧
      component (atSample s (s.slen - s.frmW.toNat * s.frmNc.toNat - s.frmNc.toNat)) = component s ∧
      column (atSample s (s.slen - s.frmW.toNat * s.frmNc.toNat - s.frmNc.toNat)) = column s - 1 ∧
      row (atSample s (s.slen - s.frmW.toNat * s.frmNc.toNat - s.frmNc.toNat)) = row s - 1)

/-- R168: a neighbour read is always in range, so NEIGHBOR is never raised. What a codeword executed alone does is the
model's choice (log 4). -/
def Obligations.NeighborFaultIsUnreachable : Prop :=
  (∀ s : State, s.slen < totalSamples s → (predict s).isSome = true) ∧
  ∀ (i : Instr) (s t : State), s.fault = 0 → exec i s = .next t → t.fault ≠ 3

/-- R170: the border rule, whatever the predictor selector; elsewhere the selector's table; the first Nc samples all get
the origin constant. -/
def Obligations.BordersOverrideTheSelector : Prop :=
  ∀ s : State, s.slen < totalSamples s →
    (column s = 0 → row s = 0 → predict s = some ((2 ^ (s.frmP.toNat - s.scnPt.toNat - 1) : Nat) : Int)) ∧
    (column s = 0 → 0 < row s →
      predict s = some ((sampleAt s (s.slen - s.frmW.toNat * s.frmNc.toNat)).toNat : Int)) ∧
    (0 < column s → row s = 0 → predict s = some ((sampleAt s (s.slen - s.frmNc.toNat)).toNat : Int)) ∧
    (0 < column s → 0 < row s → predict s = some (interiorPrediction s.scnSs
      (sampleAt s (s.slen - s.frmNc.toNat)).toNat (sampleAt s (s.slen - s.frmW.toNat * s.frmNc.toNat)).toNat
      (sampleAt s (s.slen - (s.frmW.toNat * s.frmNc.toNat + s.frmNc.toNat))).toNat
      ((2 ^ (s.frmP.toNat - s.scnPt.toNat - 1) : Nat) : Int))) ∧
    (s.slen < s.frmNc.toNat → predict s = some ((2 ^ (s.frmP.toNat - s.scnPt.toNat - 1) : Nat) : Int))

/-- R172, R173: the predictor table in the interior, over exact integers, `>> 1` being the floor of half; and the rule's
own example. -/
def Obligations.InteriorFollowsPredictorTable : Prop :=
  (∀ (s : State) (a b c : Int), s.slen < totalSamples s → 0 < column s → 0 < row s →
    a = (sampleAt s (s.slen - s.frmNc.toNat)).toNat →
    b = (sampleAt s (s.slen - s.frmW.toNat * s.frmNc.toNat)).toNat →
    c = (sampleAt s (s.slen - (s.frmW.toNat * s.frmNc.toNat + s.frmNc.toNat))).toNat →
    (s.scnSs = 0 → predict s = some 0) ∧ (s.scnSs = 1 → predict s = some a) ∧
    (s.scnSs = 2 → predict s = some b) ∧ (s.scnSs = 3 → predict s = some c) ∧
    (s.scnSs = 4 → predict s = some (a + b - c)) ∧
    (s.scnSs = 5 → predict s = some (a + (b - c).fdiv 2)) ∧
    (s.scnSs = 6 → predict s = some (b + (a - c).fdiv 2)) ∧
    (s.scnSs = 7 → predict s = some ((a + b).fdiv 2)) ∧
    (8 ≤ s.scnSs.toNat →
      predict s = some ((2 ^ (s.frmP.toNat - s.scnPt.toNat - 1) : Nat) : Int))) ∧
  (List.range 9).map (fun ss => interiorPrediction (BitVec.ofNat 8 ss) 7 2 9 128) = [0, 7, 2, 9, 0, 3, 1, 4, 128]

/-- R174: the stored value is (pred + d) mod 2^P, in 0 .. 2^P - 1, for negative sums too; the rule's two examples; the
escape difference changes nothing below P = 16 and inverts bit 15 at P = 16. -/
def Obligations.StoredValueWrapsModuloTwoToTheP : Prop :=
  (∀ (p : Nat) (pred d : Int), 2 ≤ p → p ≤ 16 →
    ((reconstruct p pred d).toNat : Int) = (pred + d) % 2 ^ p ∧ (reconstruct p pred d).toNat < 2 ^ p) ∧
  reconstruct 8 0 (-1) = 255 ∧ reconstruct 8 134 127 = 5 ∧
  (∀ (p : Nat) (pred : Int), 2 ≤ p → p ≤ 15 → reconstruct p pred 32768 = reconstruct p pred 0) ∧
  ∀ pred : Int, reconstruct 16 pred 32768 = reconstruct 16 pred 0 ^^^ 0x8000

/-- R165, completion and frame: with a codeword of the component's table at the cursor, PRSAMPLE appends the
reconstructed value, consumes exactly the codeword, and changes nothing else. -/
def Obligations.PrsampleAppendsOneSample : Prop :=
  ∀ (s : State) (i : Instr), s.fault = 0 → ScanLegal s → s.slen < totalSamples s →
    s.slen % s.frmNc.toNat < s.scnNs.toNat →
    CodewordAt s (tableKey s (s.slen % s.frmNc.toNat)) s.bitpos i →
    ∃ pred, predict s = some pred ∧
      exec .prsample s = .next { s with
        samp := s.samp.write s.slen (reconstruct s.frmP.toNat pred (instrDifference i))
        slen := s.slen + 1, bitpos := s.bitpos + (instrBits i).length }

/-- R213 for one step: a PRSAMPLE that faults appends nothing, keeps DIFF and SLEN, and leaves every sample. -/
def Obligations.FaultingPrsampleAppendsNothing : Prop :=
  ∀ s t : State, s.fault = 0 → exec .prsample s = .next t → t.fault ≠ 0 →
    t = { s with bitpos := t.bitpos, fault := t.fault, finfo := t.finfo }

/-- R46, R181: every sample a command appends is below 2^P, the total is never passed, and no command changes a sample
below SLEN; SCAN fills the buffer from the start. -/
def Obligations.AppendedSamplesFitPrecision : Prop :=
  ∀ (i : Instr) (s t : State), s.fault = 0 → exec i s = .next t →
    (i = .prsample ∨ i = .prscan →
      s.slen ≤ t.slen ∧ (t.slen ≤ totalSamples s ∨ t.slen = s.slen) ∧
      (∀ n < s.slen, t.samp.read n = s.samp.read n) ∧
      ∀ n, s.slen ≤ n → n < t.slen → ∃ v, t.samp.read n = some v ∧ v.toNat < 2 ^ s.frmP.toNat) ∧
    (i = .scan → BlenFits s → t.slen ≤ totalSamples s ∧
      ∀ n < t.slen, ∃ v, t.samp.read n = some v ∧ v.toNat < 2 ^ s.frmP.toNat)

/-- R178: PRSCAN goes on from the current SLEN and BITPOS as repeated PRSAMPLE commands do, ends at a complete buffer or
at the first fault, and without a fault ends with SLEN = W x H x Nc and SCANDONE = 1; behind the fault gate it does
nothing. -/
def Obligations.PrscanRepeatsPrsample : Prop :=
  (∀ s : State, s.fault ≠ 0 ∨ s.slen = totalSamples s → exec .prscan s = .next s) ∧
  ∀ s : State, s.fault = 0 →
    (∀ s1, s.slen ≠ totalSamples s → exec .prsample s = .next s1 →
      (s1.fault = 0 → exec .prscan s = exec .prscan s1) ∧ (s1.fault ≠ 0 → exec .prscan s = .next s1)) ∧
    ∃ t, exec .prscan s = .next t ∧
      (t.fault = 0 → t.slen = totalSamples t ∧ hostRead .flagScandone t = .number 1)

/-- R178, R81, completion and frame: with one codeword per sample still owed in the bit sequence, PRSCAN completes the
image. Every new sample is (predicted + difference) mod 2^P, the prediction made from the finished buffer. -/
def Obligations.PrscanDecodesCodewordRun : Prop :=
  ∀ (s : State) (is : List Instr), s.fault = 0 → ScanLegal s →
    s.slen + is.length = totalSamples s → CodewordRun s s.bitpos s.slen is →
    ∃ t, exec .prscan s = .next t ∧
      t = { s with samp := t.samp, slen := totalSamples s
                   bitpos := s.bitpos + (is.map fun i => (instrBits i).length).sum } ∧
      (∀ n, n < s.slen ∨ totalSamples s ≤ n → t.samp.read n = s.samp.read n) ∧
      ∀ j i pred, is[j]? = some i → predict (atSample t (s.slen + j)) = some pred →
        t.samp.read (s.slen + j) = some (reconstruct s.frmP.toNat pred (instrDifference i))

/-- R179, R232: SCAN is BSEXTRACT, then PRINIT, then PRSCAN, from every state, faults included. -/
def Obligations.ScanIsBsextractPrinitPrscan : Prop :=
  ∀ s s1 s2 s3 : State, exec .bsextract s = .next s1 → exec .prinit s1 = .next s2 →
    exec .prscan s2 = .next s3 → exec .scan s = .next s3

/-- R179, completion: when the extracted bits begin with one codeword per sample, SCAN decodes the whole image; BITPOS
is just after the last codeword, so padding is never read. -/
def Obligations.ScanDecodesWholeImage : Prop :=
  ∀ (s : State) (is : List Instr), s.fault = 0 → BlenFits s → ScanLegal (afterExtraction s) →
    is.length = totalSamples s → CodewordRun (afterExtraction s) 0 0 is →
    ∃ t, exec .scan s = .next t ∧ t.fault = 0 ∧ t.slen = totalSamples s ∧
      t.bcur = (extract s s.bcur).cursor ∧ t.bitlen = (extract s s.bcur).out.length ∧
      t.marker = (extract s s.bcur).marker ∧ t.ambig = (extract s s.bcur).ambig ∧
      t.bitpos = (is.map fun i => (instrBits i).length).sum ∧ t.diff = s.diff ∧ t.ht = s.ht ∧
      SameInputs s t ∧
      ∀ j i pred, is[j]? = some i → predict (atSample t j) = some pred →
        t.samp.read j = some (reconstruct s.frmP.toNat pred (instrDifference i))

/-! ### The host -/

/-- R55: a HostWrite to a "write" target stores there and nowhere else; on any other target, on an element that does
not exist, and on a read, nothing changes. The model's own: the list the operation is removed from (log 1), BLEN and BCUR
without a bound, so that every number is kept whatever BYTES_CAP (log 9), SCN_TSEL of 255 entries, those at NCMAX and
above not existing (log 14), and no effect of a write to an element that does not exist (log 17). -/
def Obligations.HostWritesOnlyItsTarget : Prop :=
  ∀ (s : State) (rest : List HostOp),
    (∀ v, s.host = .writeFrmP v :: rest → step s = .next { s with host := rest, frmP := v }) ∧
    (∀ v, s.host = .writeFrmW v :: rest → step s = .next { s with host := rest, frmW := v }) ∧
    (∀ v, s.host = .writeFrmH v :: rest → step s = .next { s with host := rest, frmH := v }) ∧
    (∀ v, s.host = .writeFrmNc v :: rest → step s = .next { s with host := rest, frmNc := v }) ∧
    (∀ v, s.host = .writeScnNs v :: rest → step s = .next { s with host := rest, scnNs := v }) ∧
    (∀ v, s.host = .writeScnSs v :: rest → step s = .next { s with host := rest, scnSs := v }) ∧
    (∀ v, s.host = .writeScnPt v :: rest → step s = .next { s with host := rest, scnPt := v }) ∧
    (∀ n, s.host = .writeBlen n :: rest → step s = .next { s with host := rest, blen := n }) ∧
    (∀ n, s.host = .writeBcur n :: rest → step s = .next { s with host := rest, bcur := n }) ∧
    (∀ c v, s.host = .writeScnTsel c v :: rest →
      (s.params.ncMax ≤ c → step s = .next { s with host := rest }) ∧
      (c < s.params.ncMax → c < 255 → ∃ t, step s = .next t ∧ t = { s with host := rest, scnTsel := t.scnTsel } ∧
        tableKey t c = v ∧ ∀ c', c' ≠ c → tableKey t c' = tableKey s c')) ∧
    (∀ len v, s.host = .writeCltCnt len v :: rest →
      (len = 0 ∨ 16 < len → step s = .next { s with host := rest }) ∧
      (1 ≤ len → len ≤ 16 → ∃ t, step s = .next t ∧ t = { s with host := rest, cltCnt := t.cltCnt } ∧
        cltCount t len = v.toNat ∧
        ∀ len', 1 ≤ len' → len' ≠ len → cltCount t len' = cltCount s len')) ∧
    (∀ len i v, s.host = .writeCltSym len i v :: rest →
      (len = 0 ∨ 16 < len ∨ 16 ≤ i → step s = .next { s with host := rest }) ∧
      (1 ≤ len → len ≤ 16 → i < 16 → ∃ t, step s = .next t ∧ t = { s with host := rest, cltSym := t.cltSym } ∧
        cltSymbol t len i = v ∧
        ∀ len' i', i' < 16 → len' ≠ len ∨ i' ≠ i → cltSymbol t len' i' = cltSymbol s len' i')) ∧
    (∀ i v, s.host = .writeBytes i v :: rest →
      (∀ cap, s.params.bytesCap = some cap → cap ≤ i → step s = .next { s with host := rest }) ∧
      ((∀ cap, s.params.bytesCap = some cap → i < cap) → ∃ t, step s = .next t ∧
        t = { s with host := rest, bytes := t.bytes } ∧
        t.bytes.read i = some v ∧ ∀ i', i' ≠ i → t.bytes.read i' = s.bytes.read i')) ∧
    (∀ target, s.host = .writeOther target :: rest → step s = .next { s with host := rest }) ∧
    (∀ target, s.host = .read target :: rest → step s = .next { s with host := rest })
end

