-- ==== Sys2Proof/Laws/Mem.lean ====
section
/-! SUPPORT. The laws of an indexed space: a read after a write, the canonical form kept, and entries against reads. -/

namespace Sys2Proof.Memory

variable {α : Type}

@[simp] theorem read_nil (i : Nat) : Memory.read ([] : Memory α) i = none := rfl

@[simp] theorem read_write_same (m : Memory α) (i : Nat) (v : α) : (m.write i v).read i = some v := by
  induction m with
  | nil => simp [Memory.write, Memory.read]
  | cons e rest ih =>
    obtain ⟨j, w⟩ := e
    simp only [Memory.write]
    split
    · simp [Memory.read]
    · split
      · simp [Memory.read]
      · simp_all [Memory.read]

theorem read_write_ne (m : Memory α) {i k : Nat} (v : α) (h : k ≠ i) : (m.write i v).read k = m.read k := by
  induction m with
  | nil => simp [Memory.write, Memory.read, h]
  | cons e rest ih =>
    obtain ⟨j, w⟩ := e
    simp only [Memory.write]
    split
    · simp [Memory.read, h]
    · split
      · simp_all [Memory.read]
      · simp [Memory.read, ih]

theorem read_write (m : Memory α) (i k : Nat) (v : α) :
    (m.write i v).read k = if k = i then some v else m.read k := by
  split
  · rename_i h; rw [h]; exact read_write_same m i v
  · exact read_write_ne m v ‹_›

/-- Every index of a list in canonical form is above the first. -/
theorem lt_of_mem_tail {i : Nat} {v : α} {rest : Memory α} (h : Memory.wf ((i, v) :: rest) = true) :
    ∀ e ∈ rest, i < e.1 := by
  induction rest generalizing i v with
  | nil => simp
  | cons f rest ih =>
    obtain ⟨j, w⟩ := f
    simp only [Memory.wf, Bool.and_eq_true, decide_eq_true_eq] at h
    intro e he
    rcases List.mem_cons.mp he with rfl | he
    · exact h.1
    · exact lt_trans h.1 (ih h.2 e he)

theorem wf_tail {e : Nat × α} {rest : Memory α} (h : Memory.wf (e :: rest) = true) : Memory.wf rest = true := by
  cases rest with
  | nil => rfl
  | cons f rest => simp only [Memory.wf, Bool.and_eq_true] at h; exact h.2

theorem wf_cons_iff {i : Nat} {v : α} {rest : Memory α} :
    Memory.wf ((i, v) :: rest) = true ↔ (∀ e ∈ rest, i < e.1) ∧ Memory.wf rest = true := by
  constructor
  · exact fun h => ⟨lt_of_mem_tail h, wf_tail h⟩
  · rintro ⟨h, hw⟩
    cases rest with
    | nil => rfl
    | cons f rest => simp only [Memory.wf, Bool.and_eq_true, decide_eq_true_eq]; exact ⟨h f (by simp), hw⟩

theorem mem_write {m : Memory α} {i : Nat} {v : α} {e : Nat × α} (h : e ∈ m.write i v) : e = (i, v) ∨ e ∈ m := by
  induction m with
  | nil => simpa [Memory.write] using h
  | cons f rest ih =>
    obtain ⟨j, w⟩ := f
    simp only [Memory.write] at h
    split at h
    · simpa using h
    · split at h
      · rcases List.mem_cons.mp h with h | h <;> simp [h]
      · rcases List.mem_cons.mp h with h | h
        · simp [h]
        · rcases ih h with h | h <;> simp [h]

/-- A write keeps the canonical form. -/
theorem write_wf {m : Memory α} (h : Memory.wf m = true) (i : Nat) (v : α) : Memory.wf (m.write i v) = true := by
  induction m with
  | nil => rfl
  | cons f rest ih =>
    obtain ⟨j, w⟩ := f
    have hj := lt_of_mem_tail h
    simp only [Memory.write]
    split
    · rename_i hij
      refine wf_cons_iff.mpr ⟨?_, h⟩
      intro e he
      rcases List.mem_cons.mp he with rfl | he
      · exact hij
      · exact lt_trans hij (hj e he)
    · split
      · subst_vars; exact wf_cons_iff.mpr ⟨hj, wf_tail h⟩
      · refine wf_cons_iff.mpr ⟨?_, ih (wf_tail h)⟩
        intro e he
        rcases mem_write he with rfl | he
        · show j < i; omega
        · exact hj e he

theorem writeList_wf {m : Memory α} (h : Memory.wf m = true) (start : Nat) (vs : List α) :
    Memory.wf (m.writeList start vs) = true := by
  induction vs generalizing m start with
  | nil => exact h
  | cons v vs ih => exact ih (write_wf h start v) (start + 1)

/-- What a run of writes leaves at each index. -/
theorem read_writeList (m : Memory α) (start : Nat) (vs : List α) (k : Nat) :
    (m.writeList start vs).read k =
      if start ≤ k ∧ k < start + vs.length then vs[k - start]? else m.read k := by
  induction vs generalizing m start with
  | nil => simp [Memory.writeList]
  | cons v vs ih =>
    simp only [Memory.writeList, ih, List.length_cons]
    by_cases h1 : k = start
    · subst h1; simp
    · by_cases h2 : start + 1 ≤ k ∧ k < start + 1 + vs.length
      · have : start ≤ k ∧ k < start + (vs.length + 1) := by omega
        obtain ⟨n, hn⟩ : ∃ n, k - start = n + 1 := ⟨k - start - 1, by omega⟩
        have hk : k - (start + 1) = n := by omega
        simp [h2, this, hn, hk]
      · have : ¬ (start ≤ k ∧ k < start + (vs.length + 1)) := by omega
        rw [if_neg h2, if_neg this, read_write_ne m v h1]

theorem mem_of_read {m : Memory α} {i : Nat} {v : α} (h : m.read i = some v) : (i, v) ∈ m := by
  induction m with
  | nil => simp at h
  | cons f rest ih =>
    obtain ⟨j, w⟩ := f
    simp only [Memory.read] at h
    split at h
    · simp_all
    · exact List.mem_cons_of_mem _ (ih h)

theorem read_of_mem {m : Memory α} (hw : Memory.wf m = true) {e : Nat × α} (h : e ∈ m) :
    m.read e.1 = some e.2 := by
  induction m with
  | nil => simp at h
  | cons f rest ih =>
    obtain ⟨j, w⟩ := f
    rcases List.mem_cons.mp h with rfl | h
    · simp [Memory.read]
    · have := lt_of_mem_tail hw e h
      simp only [Memory.read]
      rw [if_neg (by omega), ih (wf_tail hw) h]

theorem isSome_read_of_mem {m : Memory α} {e : Nat × α} (h : e ∈ m) : (m.read e.1).isSome = true := by
  induction m with
  | nil => simp at h
  | cons f rest ih =>
    obtain ⟨j, w⟩ := f
    simp only [Memory.read]
    split
    · rfl
    · rcases List.mem_cons.mp h with rfl | h
      · simp_all
      · exact ih h

end Sys2Proof.Memory
end

