-- ==== Sys2Proof/Laws/Codes.lean ====
section
/-! SUPPORT. Bit strings as numbers, sentinel-prefixed codes as bit strings, and what the search for a code and the
taking of extra bits can answer. -/

namespace Sys2Proof

@[simp] theorem length_bitsOf (n v : Nat) : (bitsOf n v).length = n := by
  induction n with
  | zero => rfl
  | succ n ih => simp [bitsOf, ih]

theorem foldl_shiftIn_bitsOf (n v acc : Nat) : (bitsOf n v).foldl shiftIn acc = acc * 2 ^ n + v % 2 ^ n := by
  induction n generalizing acc with
  | zero => simp [bitsOf, Nat.mod_one]
  | succ n ih =>
    rw [bitsOf, List.foldl_cons, ih, shiftIn]
    have h : v % 2 ^ (n + 1) = v % 2 ^ n + 2 ^ n * (v.testBit n).toNat := by
      rw [Nat.mod_pow_succ, Nat.toNat_testBit]
    rw [h, pow_succ]; ring

/-- A bit string, first bit most significant, as a number below 2^length. -/
theorem foldl_shiftIn (bs : List Bool) (acc : Nat) :
    bs.foldl shiftIn acc = acc * 2 ^ bs.length + bs.foldl shiftIn 0 := by
  induction bs generalizing acc with
  | nil => simp
  | cons b bs ih =>
    rw [List.foldl_cons, List.foldl_cons, ih, ih (shiftIn 0 b)]
    simp only [shiftIn, List.length_cons, pow_succ]; ring

theorem foldl_shiftIn_lt (bs : List Bool) : bs.foldl shiftIn 0 < 2 ^ bs.length := by
  induction bs with
  | nil => simp
  | cons b bs ih =>
    rw [List.foldl_cons, foldl_shiftIn]
    cases b <;> simp [shiftIn, pow_succ] <;> omega

theorem nbits_eq {c n : Nat} (h1 : 2 ^ n ≤ c) (h2 : c < 2 ^ (n + 1)) : nbits c = n := by
  have hc : c ≠ 0 := by have := Nat.two_pow_pos n; omega
  exact (Nat.log2_eq_iff hc).mpr ⟨h1, h2⟩

theorem two_pow_nbits_le {c : Nat} (h : 1 ≤ c) : 2 ^ nbits c ≤ c := Nat.log2_self_le (by omega)

theorem lt_two_pow_nbits (c : Nat) : c < 2 ^ (nbits c + 1) := Nat.lt_log2_self

theorem nbits_pos {c : Nat} (h : 2 ≤ c) : 1 ≤ nbits c := by
  by_contra hn
  have := lt_two_pow_nbits c
  have h0 : nbits c = 0 := by omega
  rw [h0] at this; omega

/-- The bits of a string with the sentinel in front are that string. -/
theorem nbits_foldl_shiftIn (bs : List Bool) : nbits (bs.foldl shiftIn 1) = bs.length := by
  have h := foldl_shiftIn_lt bs
  rw [foldl_shiftIn]
  apply nbits_eq
  · omega
  · rw [pow_succ]; omega

theorem bitsOf_foldl_shiftIn (bs : List Bool) (acc : Nat) :
    bitsOf bs.length (bs.foldl shiftIn acc) = bs := by
  induction bs generalizing acc with
  | nil => rfl
  | cons b bs ih =>
    rw [List.foldl_cons, List.length_cons, bitsOf, ih]
    congr 1
    rw [foldl_shiftIn, Nat.testBit, Nat.shiftRight_eq_div_pow]
    have h := foldl_shiftIn_lt bs
    have hp := Nat.two_pow_pos bs.length
    have : (shiftIn acc b * 2 ^ bs.length + List.foldl shiftIn 0 bs) / 2 ^ bs.length = shiftIn acc b := by
      rw [Nat.mul_comm, Nat.mul_add_div hp, Nat.div_eq_of_lt h]; simp
    rw [this]
    cases b <;> simp [shiftIn, Nat.and_comm 1, Nat.and_one_is_mod]

theorem codeBits_foldl_shiftIn (bs : List Bool) : codeBits (bs.foldl shiftIn 1) = bs := by
  rw [codeBits, nbits_foldl_shiftIn, bitsOf_foldl_shiftIn]

/-- A code is its bits behind the sentinel. -/
theorem foldl_codeBits {c : Nat} (h : 1 ≤ c) : (codeBits c).foldl shiftIn 1 = c := by
  rw [codeBits, foldl_shiftIn_bitsOf]
  have h1 := two_pow_nbits_le h
  have h2 := lt_two_pow_nbits c
  rw [pow_succ] at h2
  have : c % 2 ^ nbits c = c - 2 ^ nbits c := by
    rw [Nat.mod_eq_sub_mod h1, Nat.mod_eq_of_lt (by omega)]
  omega

@[simp] theorem length_codeBits (c : Nat) : (codeBits c).length = nbits c := by simp [codeBits]

theorem codeBits_inj {a b : Nat} (ha : 1 ≤ a) (hb : 1 ≤ b) (h : codeBits a = codeBits b) : a = b := by
  rw [← foldl_codeBits ha, ← foldl_codeBits hb, h]

/-! ### Taking bits and searching a code -/

theorem takeFrom_append (bs rest : List Bool) (acc : Nat) :
    takeFrom bs.length acc (bs ++ rest) = some (bs.foldl shiftIn acc, rest) := by
  induction bs generalizing acc with
  | nil => rfl
  | cons b bs ih => simp [takeFrom, ih]

theorem takeFrom_eq_some {n acc v : Nat} {bits rest : List Bool} (h : takeFrom n acc bits = some (v, rest)) :
    ∃ bs, bits = bs ++ rest ∧ bs.length = n ∧ v = bs.foldl shiftIn acc := by
  induction n generalizing acc bits with
  | zero => simp [takeFrom] at h; exact ⟨[], by simp [h]⟩
  | succ n ih =>
    cases bits with
    | nil => simp [takeFrom] at h
    | cons b bits =>
      obtain ⟨bs, h1, h2, h3⟩ := ih h
      exact ⟨b :: bs, by simp [h1], by simp [h2], by simp [h3]⟩

theorem takeFrom_eq_none {n acc : Nat} {bits : List Bool} : takeFrom n acc bits = none ↔ bits.length < n := by
  induction n generalizing acc bits with
  | zero => simp [takeFrom]
  | succ n ih => cases bits <;> simp [takeFrom, ih]

/-- No accumulator value along `bits` is a key. -/
def NoKeyAlong (map : CodeMap) (acc : Nat) (bits : List Bool) : Prop :=
  ∀ p, p <+: bits → p ≠ [] → map.read (p.foldl shiftIn acc) = none

theorem noKeyAlong_cons {map : CodeMap} {acc : Nat} {b : Bool} {bits : List Bool} :
    NoKeyAlong map acc (b :: bits) ↔
      map.read (shiftIn acc b) = none ∧ NoKeyAlong map (shiftIn acc b) bits := by
  constructor
  · intro h
    refine ⟨h [b] (by simp) (by simp), fun p hp hne => ?_⟩
    exact h (b :: p) (by simpa using hp) (by simp)
  · rintro ⟨h1, h2⟩ p hp hne
    cases p with
    | nil => exact absurd rfl hne
    | cons c p =>
      obtain ⟨rfl, hp'⟩ := List.cons_prefix_cons.mp hp
      cases p with
      | nil => exact h1
      | cons d p => exact h2 (d :: p) hp' (by simp)

theorem findCode_hit {map : CodeMap} {n acc : Nat} {mid rest : List Bool} {b : Bool} {ssss : Symbol}
    (hn : mid.length < n) (hmiss : NoKeyAlong map acc mid)
    (hhit : map.read ((mid ++ [b]).foldl shiftIn acc) = some ssss) :
    findCode map n acc (mid ++ b :: rest) = .ok ((mid ++ [b]).foldl shiftIn acc, ssss, rest) := by
  induction mid generalizing n acc with
  | nil =>
    obtain ⟨n, rfl⟩ : ∃ m, n = m + 1 := ⟨n - 1, by simp at hn; omega⟩
    simp only [List.nil_append, List.foldl_cons, List.foldl_nil] at hhit ⊢
    simp [findCode, hhit]
  | cons c mid ih =>
    obtain ⟨n, rfl⟩ : ∃ m, n = m + 1 := ⟨n - 1, by simp at hn; omega⟩
    obtain ⟨h1, h2⟩ := noKeyAlong_cons.mp hmiss
    simp only [List.cons_append, List.foldl_cons] at hhit ⊢
    simp only [findCode, h1]
    exact ih (by simpa using hn) h2 hhit

theorem findCode_eq_ok {map : CodeMap} {n acc code : Nat} {bits rest : List Bool} {ssss : Symbol}
    (h : findCode map n acc bits = .ok (code, ssss, rest)) :
    ∃ mid b, bits = mid ++ b :: rest ∧ mid.length < n ∧ NoKeyAlong map acc mid ∧
      code = (mid ++ [b]).foldl shiftIn acc ∧ map.read code = some ssss := by
  induction n generalizing acc bits with
  | zero => simp [findCode] at h
  | succ n ih =>
    cases bits with
    | nil => simp [findCode] at h
    | cons b bits =>
      simp only [findCode] at h
      split at h
      · rename_i sym hs
        simp only [Except.ok.injEq, Prod.mk.injEq] at h
        obtain ⟨h1, h2, h3⟩ := h
        subst h1 h2 h3
        refine ⟨[], b, by simp, by simp, ?_, by simp, hs⟩
        intro p hp hne
        exact absurd (List.prefix_nil.mp hp) hne
      · rename_i hs
        obtain ⟨mid, c, h1, h2, h3, h4, h5⟩ := ih h
        exact ⟨b :: mid, c, by simp [h1], by simpa using h2, noKeyAlong_cons.mpr ⟨hs, h3⟩, by simp [h4], h5⟩

/-- The search fails for want of bits exactly when the bits run out within the bound and no key lies along them. -/
theorem findCode_exhausted {map : CodeMap} {n acc : Nat} {bits : List Bool} :
    findCode map n acc bits = .error .bitsExhausted ↔ bits.length < n ∧ NoKeyAlong map acc bits := by
  induction n generalizing acc bits with
  | zero => simp [findCode]
  | succ n ih =>
    cases bits with
    | nil => simp [findCode, NoKeyAlong]
    | cons b bits =>
      simp only [findCode, noKeyAlong_cons]
      split
      · rename_i hs; simp [hs]
      · rename_i hs; simp [ih, hs]

/-- The search misses exactly when no key lies along the first `n` bits. -/
theorem findCode_noCode {map : CodeMap} {n acc : Nat} {bits : List Bool} :
    findCode map n acc bits = .error .noCode ↔ n ≤ bits.length ∧ NoKeyAlong map acc (bits.take n) := by
  induction n generalizing acc bits with
  | zero => simp [findCode, NoKeyAlong]
  | succ n ih =>
    cases bits with
    | nil => simp [findCode]
    | cons b bits =>
      simp only [findCode, List.take_succ_cons, noKeyAlong_cons]
      split
      · rename_i hs; simp [hs]
      · rename_i hs; simp [ih, hs]

theorem findCode_ne_emptyTable {map : CodeMap} {n acc : Nat} {bits : List Bool} :
    findCode map n acc bits ≠ .error .emptyTable := by
  induction n generalizing acc bits with
  | zero => simp [findCode]
  | succ n ih =>
    cases bits with
    | nil => simp [findCode]
    | cons b bits => simp only [findCode]; split <;> simp_all

/-! ### The fields of a codeword -/

/-- The fields of the codeword instruction of a symbol, when the extra bits fit. -/
theorem codeword?_codewordOf (ssss : Symbol) (code : BitVec 17) {v : Nat} (hv : v < 2 ^ extraCount ssss) :
    (codewordOf ssss code v).codeword? = some (ssss.val, code.toNat, v) := by
  obtain ⟨n, hn⟩ := ssss
  interval_cases n <;>
    simp_all [codewordOf, Instr.codeword?, extraCount, Nat.mod_eq_of_lt]

theorem wf_codewordOf (ssss : Symbol) (code : BitVec 17) (v : Nat) :
    (codewordOf ssss code v).wf = codeWf code := by
  obtain ⟨n, hn⟩ := ssss
  interval_cases n <;> rfl

/-- What the fields of an instruction say about it. -/
theorem codeword?_spec {i : Instr} {ssss code v : Nat} (h : i.codeword? = some (ssss, code, v)) :
    ssss ≤ 16 ∧ code < 2 ^ 17 ∧ v < 2 ^ extraCount ssss ∧ (i.wf = true ↔ 2 ≤ code) ∧
    encode i = .bits (codewordBits ssss code v) ∧
    ∀ hs : ssss < 17, codewordOf ⟨ssss, hs⟩ (BitVec.ofNat 17 code) v = i := by
  cases i <;> simp only [Instr.codeword?, Option.some.injEq, Prod.mk.injEq, reduceCtorEq] at h <;>
    obtain ⟨rfl, rfl, rfl⟩ := h <;>
    refine ⟨by decide, BitVec.isLt _, ?_, by simp [Instr.wf, codeWf], rfl, fun _ => by simp [codewordOf]⟩ <;>
    first | exact BitVec.isLt _ | simp [extraCount]

end Sys2Proof
end

