-- ==== Sys2Proof/Laws/State.lean ====
section
/-! SUPPORT. One lemma per field of State per named update: what the update leaves in the field. -/

namespace Sys2Proof.Machine

/-- Writing back the value a field holds changes nothing. -/
theorem with_bitpos_eq {s : State} {p : Nat} (h : p = s.bitpos) : ({ s with bitpos := p } : State) = s := by
  subst h; rfl

@[simp] theorem raise_params (f : FaultCode) (info : Nat) (s : State) : (raise f info s).params = s.params := rfl
@[simp] theorem raise_session (f : FaultCode) (info : Nat) (s : State) : (raise f info s).session = s.session := rfl
@[simp] theorem raise_host (f : FaultCode) (info : Nat) (s : State) : (raise f info s).host = s.host := rfl
@[simp] theorem raise_frmP (f : FaultCode) (info : Nat) (s : State) : (raise f info s).frmP = s.frmP := rfl
@[simp] theorem raise_frmW (f : FaultCode) (info : Nat) (s : State) : (raise f info s).frmW = s.frmW := rfl
@[simp] theorem raise_frmH (f : FaultCode) (info : Nat) (s : State) : (raise f info s).frmH = s.frmH := rfl
@[simp] theorem raise_frmNc (f : FaultCode) (info : Nat) (s : State) : (raise f info s).frmNc = s.frmNc := rfl
@[simp] theorem raise_scnNs (f : FaultCode) (info : Nat) (s : State) : (raise f info s).scnNs = s.scnNs := rfl
@[simp] theorem raise_scnSs (f : FaultCode) (info : Nat) (s : State) : (raise f info s).scnSs = s.scnSs := rfl
@[simp] theorem raise_scnPt (f : FaultCode) (info : Nat) (s : State) : (raise f info s).scnPt = s.scnPt := rfl
@[simp] theorem raise_scnTsel (f : FaultCode) (info : Nat) (s : State) : (raise f info s).scnTsel = s.scnTsel := rfl
@[simp] theorem raise_blen (f : FaultCode) (info : Nat) (s : State) : (raise f info s).blen = s.blen := rfl
@[simp] theorem raise_bcur (f : FaultCode) (info : Nat) (s : State) : (raise f info s).bcur = s.bcur := rfl
@[simp] theorem raise_bitlen (f : FaultCode) (info : Nat) (s : State) : (raise f info s).bitlen = s.bitlen := rfl
@[simp] theorem raise_bitpos (f : FaultCode) (info : Nat) (s : State) : (raise f info s).bitpos = s.bitpos := rfl
@[simp] theorem raise_slen (f : FaultCode) (info : Nat) (s : State) : (raise f info s).slen = s.slen := rfl
@[simp] theorem raise_marker (f : FaultCode) (info : Nat) (s : State) : (raise f info s).marker = s.marker := rfl
@[simp] theorem raise_ambig (f : FaultCode) (info : Nat) (s : State) : (raise f info s).ambig = s.ambig := rfl
@[simp] theorem raise_fault (f : FaultCode) (info : Nat) (s : State) : (raise f info s).fault = f.code := rfl
@[simp] theorem raise_finfo (f : FaultCode) (info : Nat) (s : State) : (raise f info s).finfo = finfoOf info := rfl
@[simp] theorem raise_diff (f : FaultCode) (info : Nat) (s : State) : (raise f info s).diff = s.diff := rfl
@[simp] theorem raise_cltCnt (f : FaultCode) (info : Nat) (s : State) : (raise f info s).cltCnt = s.cltCnt := rfl
@[simp] theorem raise_cltSym (f : FaultCode) (info : Nat) (s : State) : (raise f info s).cltSym = s.cltSym := rfl
@[simp] theorem raise_ht (f : FaultCode) (info : Nat) (s : State) : (raise f info s).ht = s.ht := rfl
@[simp] theorem raise_bytes (f : FaultCode) (info : Nat) (s : State) : (raise f info s).bytes = s.bytes := rfl
@[simp] theorem raise_bits (f : FaultCode) (info : Nat) (s : State) : (raise f info s).bits = s.bits := rfl
@[simp] theorem raise_samp (f : FaultCode) (info : Nat) (s : State) : (raise f info s).samp = s.samp := rfl

@[simp] theorem setSlot_params (key : Byte) (table : HuffTable) (s : State) : (setSlot key table s).params = s.params := rfl
@[simp] theorem setSlot_session (key : Byte) (table : HuffTable) (s : State) : (setSlot key table s).session = s.session := rfl
@[simp] theorem setSlot_host (key : Byte) (table : HuffTable) (s : State) : (setSlot key table s).host = s.host := rfl
@[simp] theorem setSlot_frmP (key : Byte) (table : HuffTable) (s : State) : (setSlot key table s).frmP = s.frmP := rfl
@[simp] theorem setSlot_frmW (key : Byte) (table : HuffTable) (s : State) : (setSlot key table s).frmW = s.frmW := rfl
@[simp] theorem setSlot_frmH (key : Byte) (table : HuffTable) (s : State) : (setSlot key table s).frmH = s.frmH := rfl
@[simp] theorem setSlot_frmNc (key : Byte) (table : HuffTable) (s : State) : (setSlot key table s).frmNc = s.frmNc := rfl
@[simp] theorem setSlot_scnNs (key : Byte) (table : HuffTable) (s : State) : (setSlot key table s).scnNs = s.scnNs := rfl
@[simp] theorem setSlot_scnSs (key : Byte) (table : HuffTable) (s : State) : (setSlot key table s).scnSs = s.scnSs := rfl
@[simp] theorem setSlot_scnPt (key : Byte) (table : HuffTable) (s : State) : (setSlot key table s).scnPt = s.scnPt := rfl
@[simp] theorem setSlot_scnTsel (key : Byte) (table : HuffTable) (s : State) : (setSlot key table s).scnTsel = s.scnTsel := rfl
@[simp] theorem setSlot_blen (key : Byte) (table : HuffTable) (s : State) : (setSlot key table s).blen = s.blen := rfl
@[simp] theorem setSlot_bcur (key : Byte) (table : HuffTable) (s : State) : (setSlot key table s).bcur = s.bcur := rfl
@[simp] theorem setSlot_bitlen (key : Byte) (table : HuffTable) (s : State) : (setSlot key table s).bitlen = s.bitlen := rfl
@[simp] theorem setSlot_bitpos (key : Byte) (table : HuffTable) (s : State) : (setSlot key table s).bitpos = s.bitpos := rfl
@[simp] theorem setSlot_slen (key : Byte) (table : HuffTable) (s : State) : (setSlot key table s).slen = s.slen := rfl
@[simp] theorem setSlot_marker (key : Byte) (table : HuffTable) (s : State) : (setSlot key table s).marker = s.marker := rfl
@[simp] theorem setSlot_ambig (key : Byte) (table : HuffTable) (s : State) : (setSlot key table s).ambig = s.ambig := rfl
@[simp] theorem setSlot_fault (key : Byte) (table : HuffTable) (s : State) : (setSlot key table s).fault = s.fault := rfl
@[simp] theorem setSlot_finfo (key : Byte) (table : HuffTable) (s : State) : (setSlot key table s).finfo = s.finfo := rfl
@[simp] theorem setSlot_diff (key : Byte) (table : HuffTable) (s : State) : (setSlot key table s).diff = s.diff := rfl
@[simp] theorem setSlot_cltCnt (key : Byte) (table : HuffTable) (s : State) : (setSlot key table s).cltCnt = s.cltCnt := rfl
@[simp] theorem setSlot_cltSym (key : Byte) (table : HuffTable) (s : State) : (setSlot key table s).cltSym = s.cltSym := rfl
@[simp] theorem setSlot_ht (key : Byte) (table : HuffTable) (s : State) : (setSlot key table s).ht = s.ht.write key.toNat table := rfl
@[simp] theorem setSlot_bytes (key : Byte) (table : HuffTable) (s : State) : (setSlot key table s).bytes = s.bytes := rfl
@[simp] theorem setSlot_bits (key : Byte) (table : HuffTable) (s : State) : (setSlot key table s).bits = s.bits := rfl
@[simp] theorem setSlot_samp (key : Byte) (table : HuffTable) (s : State) : (setSlot key table s).samp = s.samp := rfl

@[simp] theorem appendSample_params (v : Sample) (s : State) : (appendSample v s).params = s.params := rfl
@[simp] theorem appendSample_session (v : Sample) (s : State) : (appendSample v s).session = s.session := rfl
@[simp] theorem appendSample_host (v : Sample) (s : State) : (appendSample v s).host = s.host := rfl
@[simp] theorem appendSample_frmP (v : Sample) (s : State) : (appendSample v s).frmP = s.frmP := rfl
@[simp] theorem appendSample_frmW (v : Sample) (s : State) : (appendSample v s).frmW = s.frmW := rfl
@[simp] theorem appendSample_frmH (v : Sample) (s : State) : (appendSample v s).frmH = s.frmH := rfl
@[simp] theorem appendSample_frmNc (v : Sample) (s : State) : (appendSample v s).frmNc = s.frmNc := rfl
@[simp] theorem appendSample_scnNs (v : Sample) (s : State) : (appendSample v s).scnNs = s.scnNs := rfl
@[simp] theorem appendSample_scnSs (v : Sample) (s : State) : (appendSample v s).scnSs = s.scnSs := rfl
@[simp] theorem appendSample_scnPt (v : Sample) (s : State) : (appendSample v s).scnPt = s.scnPt := rfl
@[simp] theorem appendSample_scnTsel (v : Sample) (s : State) : (appendSample v s).scnTsel = s.scnTsel := rfl
@[simp] theorem appendSample_blen (v : Sample) (s : State) : (appendSample v s).blen = s.blen := rfl
@[simp] theorem appendSample_bcur (v : Sample) (s : State) : (appendSample v s).bcur = s.bcur := rfl
@[simp] theorem appendSample_bitlen (v : Sample) (s : State) : (appendSample v s).bitlen = s.bitlen := rfl
@[simp] theorem appendSample_bitpos (v : Sample) (s : State) : (appendSample v s).bitpos = s.bitpos := rfl
@[simp] theorem appendSample_slen (v : Sample) (s : State) : (appendSample v s).slen = s.slen + 1 := rfl
@[simp] theorem appendSample_marker (v : Sample) (s : State) : (appendSample v s).marker = s.marker := rfl
@[simp] theorem appendSample_ambig (v : Sample) (s : State) : (appendSample v s).ambig = s.ambig := rfl
@[simp] theorem appendSample_fault (v : Sample) (s : State) : (appendSample v s).fault = s.fault := rfl
@[simp] theorem appendSample_finfo (v : Sample) (s : State) : (appendSample v s).finfo = s.finfo := rfl
@[simp] theorem appendSample_diff (v : Sample) (s : State) : (appendSample v s).diff = s.diff := rfl
@[simp] theorem appendSample_cltCnt (v : Sample) (s : State) : (appendSample v s).cltCnt = s.cltCnt := rfl
@[simp] theorem appendSample_cltSym (v : Sample) (s : State) : (appendSample v s).cltSym = s.cltSym := rfl
@[simp] theorem appendSample_ht (v : Sample) (s : State) : (appendSample v s).ht = s.ht := rfl
@[simp] theorem appendSample_bytes (v : Sample) (s : State) : (appendSample v s).bytes = s.bytes := rfl
@[simp] theorem appendSample_bits (v : Sample) (s : State) : (appendSample v s).bits = s.bits := rfl
@[simp] theorem appendSample_samp (v : Sample) (s : State) : (appendSample v s).samp = s.samp.write s.slen v := rfl

@[simp] theorem setFlags_params (m a : Bool) (s : State) : (setFlags m a s).params = s.params := rfl
@[simp] theorem setFlags_session (m a : Bool) (s : State) : (setFlags m a s).session = s.session := rfl
@[simp] theorem setFlags_host (m a : Bool) (s : State) : (setFlags m a s).host = s.host := rfl
@[simp] theorem setFlags_frmP (m a : Bool) (s : State) : (setFlags m a s).frmP = s.frmP := rfl
@[simp] theorem setFlags_frmW (m a : Bool) (s : State) : (setFlags m a s).frmW = s.frmW := rfl
@[simp] theorem setFlags_frmH (m a : Bool) (s : State) : (setFlags m a s).frmH = s.frmH := rfl
@[simp] theorem setFlags_frmNc (m a : Bool) (s : State) : (setFlags m a s).frmNc = s.frmNc := rfl
@[simp] theorem setFlags_scnNs (m a : Bool) (s : State) : (setFlags m a s).scnNs = s.scnNs := rfl
@[simp] theorem setFlags_scnSs (m a : Bool) (s : State) : (setFlags m a s).scnSs = s.scnSs := rfl
@[simp] theorem setFlags_scnPt (m a : Bool) (s : State) : (setFlags m a s).scnPt = s.scnPt := rfl
@[simp] theorem setFlags_scnTsel (m a : Bool) (s : State) : (setFlags m a s).scnTsel = s.scnTsel := rfl
@[simp] theorem setFlags_blen (m a : Bool) (s : State) : (setFlags m a s).blen = s.blen := rfl
@[simp] theorem setFlags_bcur (m a : Bool) (s : State) : (setFlags m a s).bcur = s.bcur := rfl
@[simp] theorem setFlags_bitlen (m a : Bool) (s : State) : (setFlags m a s).bitlen = s.bitlen := rfl
@[simp] theorem setFlags_bitpos (m a : Bool) (s : State) : (setFlags m a s).bitpos = s.bitpos := rfl
@[simp] theorem setFlags_slen (m a : Bool) (s : State) : (setFlags m a s).slen = s.slen := rfl
@[simp] theorem setFlags_marker (m a : Bool) (s : State) : (setFlags m a s).marker = m := rfl
@[simp] theorem setFlags_ambig (m a : Bool) (s : State) : (setFlags m a s).ambig = a := rfl
@[simp] theorem setFlags_fault (m a : Bool) (s : State) : (setFlags m a s).fault = s.fault := rfl
@[simp] theorem setFlags_finfo (m a : Bool) (s : State) : (setFlags m a s).finfo = s.finfo := rfl
@[simp] theorem setFlags_diff (m a : Bool) (s : State) : (setFlags m a s).diff = s.diff := rfl
@[simp] theorem setFlags_cltCnt (m a : Bool) (s : State) : (setFlags m a s).cltCnt = s.cltCnt := rfl
@[simp] theorem setFlags_cltSym (m a : Bool) (s : State) : (setFlags m a s).cltSym = s.cltSym := rfl
@[simp] theorem setFlags_ht (m a : Bool) (s : State) : (setFlags m a s).ht = s.ht := rfl
@[simp] theorem setFlags_bytes (m a : Bool) (s : State) : (setFlags m a s).bytes = s.bytes := rfl
@[simp] theorem setFlags_bits (m a : Bool) (s : State) : (setFlags m a s).bits = s.bits := rfl
@[simp] theorem setFlags_samp (m a : Bool) (s : State) : (setFlags m a s).samp = s.samp := rfl

@[simp] theorem storeExtraction_params (e : Extraction) (s : State) : (storeExtraction e s).params = s.params := rfl
@[simp] theorem storeExtraction_session (e : Extraction) (s : State) : (storeExtraction e s).session = s.session := rfl
@[simp] theorem storeExtraction_host (e : Extraction) (s : State) : (storeExtraction e s).host = s.host := rfl
@[simp] theorem storeExtraction_frmP (e : Extraction) (s : State) : (storeExtraction e s).frmP = s.frmP := rfl
@[simp] theorem storeExtraction_frmW (e : Extraction) (s : State) : (storeExtraction e s).frmW = s.frmW := rfl
@[simp] theorem storeExtraction_frmH (e : Extraction) (s : State) : (storeExtraction e s).frmH = s.frmH := rfl
@[simp] theorem storeExtraction_frmNc (e : Extraction) (s : State) : (storeExtraction e s).frmNc = s.frmNc := rfl
@[simp] theorem storeExtraction_scnNs (e : Extraction) (s : State) : (storeExtraction e s).scnNs = s.scnNs := rfl
@[simp] theorem storeExtraction_scnSs (e : Extraction) (s : State) : (storeExtraction e s).scnSs = s.scnSs := rfl
@[simp] theorem storeExtraction_scnPt (e : Extraction) (s : State) : (storeExtraction e s).scnPt = s.scnPt := rfl
@[simp] theorem storeExtraction_scnTsel (e : Extraction) (s : State) : (storeExtraction e s).scnTsel = s.scnTsel := rfl
@[simp] theorem storeExtraction_blen (e : Extraction) (s : State) : (storeExtraction e s).blen = s.blen := rfl
@[simp] theorem storeExtraction_bcur (e : Extraction) (s : State) : (storeExtraction e s).bcur = e.cursor := rfl
@[simp] theorem storeExtraction_bitlen (e : Extraction) (s : State) : (storeExtraction e s).bitlen = e.out.length := rfl
@[simp] theorem storeExtraction_bitpos (e : Extraction) (s : State) : (storeExtraction e s).bitpos = 0 := rfl
@[simp] theorem storeExtraction_slen (e : Extraction) (s : State) : (storeExtraction e s).slen = s.slen := rfl
@[simp] theorem storeExtraction_marker (e : Extraction) (s : State) : (storeExtraction e s).marker = e.marker := rfl
@[simp] theorem storeExtraction_ambig (e : Extraction) (s : State) : (storeExtraction e s).ambig = e.ambig := rfl
@[simp] theorem storeExtraction_fault (e : Extraction) (s : State) : (storeExtraction e s).fault = s.fault := rfl
@[simp] theorem storeExtraction_finfo (e : Extraction) (s : State) : (storeExtraction e s).finfo = s.finfo := rfl
@[simp] theorem storeExtraction_diff (e : Extraction) (s : State) : (storeExtraction e s).diff = s.diff := rfl
@[simp] theorem storeExtraction_cltCnt (e : Extraction) (s : State) : (storeExtraction e s).cltCnt = s.cltCnt := rfl
@[simp] theorem storeExtraction_cltSym (e : Extraction) (s : State) : (storeExtraction e s).cltSym = s.cltSym := rfl
@[simp] theorem storeExtraction_ht (e : Extraction) (s : State) : (storeExtraction e s).ht = s.ht := rfl
@[simp] theorem storeExtraction_bytes (e : Extraction) (s : State) : (storeExtraction e s).bytes = s.bytes := rfl
@[simp] theorem storeExtraction_bits (e : Extraction) (s : State) : (storeExtraction e s).bits = s.bits.writeList 0 e.out := rfl
@[simp] theorem storeExtraction_samp (e : Extraction) (s : State) : (storeExtraction e s).samp = s.samp := rfl

@[simp] theorem setDiff_params (d : Int) (s : State) : (setDiff d s).params = s.params := rfl
@[simp] theorem setDiff_session (d : Int) (s : State) : (setDiff d s).session = s.session := rfl
@[simp] theorem setDiff_host (d : Int) (s : State) : (setDiff d s).host = s.host := rfl
@[simp] theorem setDiff_frmP (d : Int) (s : State) : (setDiff d s).frmP = s.frmP := rfl
@[simp] theorem setDiff_frmW (d : Int) (s : State) : (setDiff d s).frmW = s.frmW := rfl
@[simp] theorem setDiff_frmH (d : Int) (s : State) : (setDiff d s).frmH = s.frmH := rfl
@[simp] theorem setDiff_frmNc (d : Int) (s : State) : (setDiff d s).frmNc = s.frmNc := rfl
@[simp] theorem setDiff_scnNs (d : Int) (s : State) : (setDiff d s).scnNs = s.scnNs := rfl
@[simp] theorem setDiff_scnSs (d : Int) (s : State) : (setDiff d s).scnSs = s.scnSs := rfl
@[simp] theorem setDiff_scnPt (d : Int) (s : State) : (setDiff d s).scnPt = s.scnPt := rfl
@[simp] theorem setDiff_scnTsel (d : Int) (s : State) : (setDiff d s).scnTsel = s.scnTsel := rfl
@[simp] theorem setDiff_blen (d : Int) (s : State) : (setDiff d s).blen = s.blen := rfl
@[simp] theorem setDiff_bcur (d : Int) (s : State) : (setDiff d s).bcur = s.bcur := rfl
@[simp] theorem setDiff_bitlen (d : Int) (s : State) : (setDiff d s).bitlen = s.bitlen := rfl
@[simp] theorem setDiff_bitpos (d : Int) (s : State) : (setDiff d s).bitpos = s.bitpos := rfl
@[simp] theorem setDiff_slen (d : Int) (s : State) : (setDiff d s).slen = s.slen := rfl
@[simp] theorem setDiff_marker (d : Int) (s : State) : (setDiff d s).marker = s.marker := rfl
@[simp] theorem setDiff_ambig (d : Int) (s : State) : (setDiff d s).ambig = s.ambig := rfl
@[simp] theorem setDiff_fault (d : Int) (s : State) : (setDiff d s).fault = s.fault := rfl
@[simp] theorem setDiff_finfo (d : Int) (s : State) : (setDiff d s).finfo = s.finfo := rfl
@[simp] theorem setDiff_diff (d : Int) (s : State) : (setDiff d s).diff = BitVec.ofInt 18 d := rfl
@[simp] theorem setDiff_cltCnt (d : Int) (s : State) : (setDiff d s).cltCnt = s.cltCnt := rfl
@[simp] theorem setDiff_cltSym (d : Int) (s : State) : (setDiff d s).cltSym = s.cltSym := rfl
@[simp] theorem setDiff_ht (d : Int) (s : State) : (setDiff d s).ht = s.ht := rfl
@[simp] theorem setDiff_bytes (d : Int) (s : State) : (setDiff d s).bytes = s.bytes := rfl
@[simp] theorem setDiff_bits (d : Int) (s : State) : (setDiff d s).bits = s.bits := rfl
@[simp] theorem setDiff_samp (d : Int) (s : State) : (setDiff d s).samp = s.samp := rfl

end Sys2Proof.Machine
end

