-- ==== Sys2Proof/Laws/Ops.lean ====
section
/-! SUPPORT. The shared operations: how a procedure that may raise ends, what a command answers, and FINFO. -/

namespace Sys2Proof.Machine

/-! ### Procedures -/

@[simp] theorem Res.bind_ok {α β : Type} (a : α) (s : State) (k : α → State → Res β) :
    (Res.ok a s).bind k = k a s := rfl

@[simp] theorem Res.bind_raised {α β : Type} (s : State) (k : α → State → Res β) :
    (Res.raised s : Res α).bind k = .raised s := rfl

@[simp] theorem Res.bind_raise {α β : Type} (f : FaultCode) (n : Nat) (s : State) (k : α → State → Res β) :
    (Res.raise f n s : Res α).bind k = Res.raise f n s := rfl

@[simp] theorem Res.state_ok {α : Type} (a : α) (s : State) : (Res.ok a s).state = s := rfl

@[simp] theorem Res.state_raised {α : Type} (s : State) : (Res.raised s : Res α).state = s := rfl

@[simp] theorem Res.state_raise {α : Type} (f : FaultCode) (n : Nat) (s : State) :
    (Res.raise f n s : Res α).state = Machine.raise f n s := rfl

theorem Res.bind_eq_ok {α β : Type} {r : Res α} {k : α → State → Res β} {b : β} {t : State} :
    r.bind k = .ok b t ↔ ∃ a s, r = .ok a s ∧ k a s = .ok b t := by
  cases r <;> simp [Res.bind]

theorem Res.bind_eq_raised {α β : Type} {r : Res α} {k : α → State → Res β} {t : State} :
    r.bind k = .raised t ↔ r = .raised t ∨ ∃ a s, r = .ok a s ∧ k a s = .raised t := by
  cases r <;> simp [Res.bind]

theorem Res.bind_assoc {α β γ : Type} (r : Res α) (k : α → State → Res β) (l : β → State → Res γ) :
    (r.bind k).bind l = r.bind fun a s => (k a s).bind l := by
  cases r <;> rfl

/-- What a procedure did, whichever way it ended: a property of the state it ends in. -/
def Res.Ends {α : Type} (r : Res α) (p : State → Prop) : Prop := p r.state

theorem Res.ends_bind {α β : Type} {r : Res α} {k : α → State → Res β} {p : State → Prop}
    (hr : ∀ s, r = .raised s → p s) (hk : ∀ a s, r = .ok a s → (k a s).Ends p) : (r.bind k).Ends p := by
  cases r with
  | ok a s => exact hk a s rfl
  | raised s => exact hr s rfl

/-! ### Commands -/

theorem gated_run {α : Type} (body : State → Res α) {s : State} (h : s.fault = 0) :
    gated body s = .next (body s).state := if_pos h

theorem gated_blocked {α : Type} (body : State → Res α) {s : State} (h : s.fault ≠ 0) :
    gated body s = .next s := if_neg h

/-- What a command answers, said once: the state its body ends in, or the same state behind the fault gate. -/
theorem gated_cases {α : Type} {body : State → Res α} {s t : State} (h : gated body s = .next t) :
    (s.fault = 0 ∧ t = (body s).state) ∨ (s.fault ≠ 0 ∧ t = s) := by
  by_cases hs : s.fault = 0
  · rw [gated_run body hs] at h; exact .inl ⟨hs, by simpa using h.symm⟩
  · rw [gated_blocked body hs] at h; exact .inr ⟨hs, by simpa using h.symm⟩

/-! ### FINFO and fault codes -/

theorem finfoOf_of_lt {n : Nat} (h : n < 2 ^ 40) : finfoOf n = BitVec.ofNat 40 n := if_pos h

theorem code_ne_zero (f : FaultCode) : f.code ≠ 0 := by cases f <;> decide

theorem code_mem_faultCodes {f : FaultCode} (h : f ≠ .neighbor) : f.code ∈ faultCodes := by
  cases f <;> first | exact absurd rfl h | decide

theorem code_eq_three {f : FaultCode} : f.code = 3 ↔ f = .neighbor := by cases f <;> decide

/-- The total has at most 40 bits (43_predictive_reconstructor R163). -/
theorem totalSamples_lt (s : State) : totalSamples s < 2 ^ 40 := by
  have hw := s.frmW.isLt
  have hh := s.frmH.isLt
  have hc := s.frmNc.isLt
  calc totalSamples s = s.frmW.toNat * s.frmH.toNat * s.frmNc.toNat := rfl
    _ ≤ 65535 * 65535 * 255 := Nat.mul_le_mul (Nat.mul_le_mul (by omega) (by omega)) (by omega)
    _ < 2 ^ 40 := by norm_num

/-! ### The dispatch -/

/-- The body behind the fault gate of each instruction. -/
def instrBody : Instr → State → Res Unit
  | .htbuild key => htbuildBody key
  | .bsextract => bsextractBody
  | .eddiff key => eddiffBody key
  | .prinit => prinitBody
  | .prsample => prsampleBody
  | .prscan => prscanBody
  | .scan => scanBody
  | .diffSsss0 code => codewordBody 0 code 0
  | .diffSsss1 code extra => codewordBody 1 code extra.toNat
  | .diffSsss2 code extra => codewordBody 2 code extra.toNat
  | .diffSsss3 code extra => codewordBody 3 code extra.toNat
  | .diffSsss4 code extra => codewordBody 4 code extra.toNat
  | .diffSsss5 code extra => codewordBody 5 code extra.toNat
  | .diffSsss6 code extra => codewordBody 6 code extra.toNat
  | .diffSsss7 code extra => codewordBody 7 code extra.toNat
  | .diffSsss8 code extra => codewordBody 8 code extra.toNat
  | .diffSsss9 code extra => codewordBody 9 code extra.toNat
  | .diffSsss10 code extra => codewordBody 10 code extra.toNat
  | .diffSsss11 code extra => codewordBody 11 code extra.toNat
  | .diffSsss12 code extra => codewordBody 12 code extra.toNat
  | .diffSsss13 code extra => codewordBody 13 code extra.toNat
  | .diffSsss14 code extra => codewordBody 14 code extra.toNat
  | .diffSsss15 code extra => codewordBody 15 code extra.toNat
  | .diffSsss16 code => codewordBody 16 code 0

/-- Every instruction is its body behind the fault gate (60_exceptions R215). -/
theorem exec_eq_gated (i : Instr) (s : State) : exec i s = gated (instrBody i) s := by cases i <;> rfl

/-- A codeword's body depends on its fields alone. -/
theorem instrBody_codeword {i : Instr} {ssss code v : Nat} (h : i.codeword? = some (ssss, code, v)) :
    instrBody i = codewordBody ssss (BitVec.ofNat 17 code) v := by
  cases i <;> simp only [Instr.codeword?, Option.some.injEq, Prod.mk.injEq, reduceCtorEq] at h <;>
    obtain ⟨rfl, rfl, rfl⟩ := h <;> simp [instrBody]

end Sys2Proof.Machine
end

