-- ==== Sys2Proof/Laws/Bits.lean ====
section
/-! SUPPORT. Consuming bits: NextBit, runs of bits, the search, and DecodeDiff against the decoder of the codeword
format. -/

namespace Sys2Proof.Machine

/-! ### Bits that lie in the sequence -/

theorem BitsHold.le {s : State} {pos : Nat} {bs : List Bool} (h : BitsHold s pos bs) :
    pos + bs.length ≤ s.bitlen := by
  induction bs generalizing pos with
  | nil => exact h
  | cons b bs ih => have := ih h.2.2; simp only [List.length_cons]; omega

theorem bitsHold_append {s : State} {pos : Nat} {xs ys : List Bool} :
    BitsHold s pos (xs ++ ys) ↔ BitsHold s pos xs ∧ BitsHold s (pos + xs.length) ys := by
  induction xs generalizing pos with
  | nil =>
    simp only [List.nil_append, List.length_nil, Nat.add_zero]
    exact ⟨fun h => ⟨(Nat.le_add_right _ _).trans h.le, h⟩, fun h => h.2⟩
  | cons x xs ih =>
    simp only [List.cons_append, BitsHold, ih, List.length_cons]
    rw [show pos + 1 + xs.length = pos + (xs.length + 1) by omega]
    tauto

theorem BitsHold.get {s : State} {pos j : Nat} {bs : List Bool} (h : BitsHold s pos bs) (hj : j < bs.length) :
    bitAt s (pos + j) = bs[j] := by
  induction bs generalizing pos j with
  | nil => simp at hj
  | cons b bs ih =>
    cases j with
    | zero => exact h.2.1
    | succ j =>
      have := ih h.2.2 (j := j) (by simpa using hj)
      rw [show pos + (j + 1) = pos + 1 + j by omega]; simpa using this

/-- The bits from `pos` on, `n` of them. -/
def bitsFrom (s : State) : Nat → Nat → List Bool
  | _, 0 => []
  | pos, n + 1 => bitAt s pos :: bitsFrom s (pos + 1) n

@[simp] theorem length_bitsFrom (s : State) (pos n : Nat) : (bitsFrom s pos n).length = n := by
  induction n generalizing pos with
  | zero => rfl
  | succ n ih => simp [bitsFrom, ih]

theorem bitsHold_bitsFrom {s : State} {pos n : Nat} (h : pos + n ≤ s.bitlen) : BitsHold s pos (bitsFrom s pos n) := by
  induction n generalizing pos with
  | zero => simpa [bitsFrom, BitsHold] using h
  | succ n ih => exact ⟨by omega, rfl, ih (by omega)⟩

theorem bitsHold_iff {s : State} {pos : Nat} {bs : List Bool} :
    BitsHold s pos bs ↔ pos + bs.length ≤ s.bitlen ∧ bs = bitsFrom s pos bs.length := by
  induction bs generalizing pos with
  | nil => simp [BitsHold, bitsFrom]
  | cons b bs ih =>
    simp only [BitsHold, ih, List.length_cons, bitsFrom, List.cons.injEq]
    constructor
    · rintro ⟨h1, h2, h3, h4⟩; exact ⟨by omega, h2.symm, h4⟩
    · rintro ⟨h1, h2, h3⟩; exact ⟨by omega, h2.symm, by omega, h3⟩

/-- Only BITS, BITLEN and the session matter to what lies in the sequence. -/
theorem bitsHold_congr {s t : State} (hb : t.bits = s.bits) (hl : t.bitlen = s.bitlen) (hs : t.session = s.session)
    {pos : Nat} {bs : List Bool} : BitsHold t pos bs ↔ BitsHold s pos bs := by
  induction bs generalizing pos with
  | nil => simp [BitsHold, hl]
  | cons b bs ih => simp [BitsHold, bitAt, ih, hb, hl, hs]

/-! ### NextBit and runs of bits -/

theorem nextBit_ok {s : State} (h : s.bitpos < s.bitlen) :
    nextBit s = .ok (bitAt s s.bitpos) { s with bitpos := s.bitpos + 1 } := by
  simp [nextBit, Nat.not_le.mpr h]

theorem nextBit_exhausted {s : State} (h : s.bitlen ≤ s.bitpos) :
    nextBit s = Res.raise .bitsExhausted s.bitpos s := by
  simp [nextBit, h]

/-- The state after the last bit has been consumed and one more was wanted. -/
def exhausted (s : State) : State := raise .bitsExhausted s.bitlen { s with bitpos := s.bitlen }

theorem takeBits_hold {s : State} {bs : List Bool} (h : BitsHold s s.bitpos bs) (acc : Nat) :
    takeBits bs.length acc s = .ok (bs.foldl shiftIn acc) { s with bitpos := s.bitpos + bs.length } := by
  induction bs generalizing s acc with
  | nil => rfl
  | cons b bs ih =>
    obtain ⟨h1, h2, h3⟩ := h
    simp only [List.length_cons, takeBits, nextBit_ok h1, Res.bind_ok, h2]
    rw [ih ((bitsHold_congr (by rfl) (by rfl) (by rfl)).mpr h3)]
    simp [Nat.add_comm 1, Nat.add_assoc]

theorem takeBits_exhausted {s : State} {n : Nat} (acc : Nat) (h1 : s.bitpos ≤ s.bitlen)
    (h2 : s.bitlen < s.bitpos + n) : takeBits n acc s = .raised (exhausted s) := by
  induction n generalizing s acc with
  | zero => omega
  | succ n ih =>
    by_cases h : s.bitpos < s.bitlen
    · simp only [takeBits, nextBit_ok h, Res.bind_ok]
      rw [ih _ (by simpa using h) (by simp only; omega)]
      rfl
    · have he : s.bitpos = s.bitlen := by omega
      rw [takeBits, nextBit_exhausted (by omega), Res.bind_raise, exhausted, with_bitpos_eq he.symm, he]
      rfl

/-! ### The search -/

/-- The search over the state is the search over the remaining bits. -/
theorem searchCode_eq {s : State} {map : CodeMap} {n acc : Nat} {bs : List Bool} (h : BitsHold s s.bitpos bs)
    (hall : s.bitlen = s.bitpos + bs.length) :
    searchCode map n acc s =
      match findCode map n acc bs with
      | .ok (_, ssss, rest) => .ok (some ssss) { s with bitpos := s.bitlen - rest.length }
      | .error .bitsExhausted => .raised (exhausted s)
      | .error _ => .ok none { s with bitpos := s.bitpos + n } := by
  induction n generalizing s acc bs with
  | zero => rfl
  | succ n ih =>
    cases bs with
    | nil =>
      have he : s.bitpos = s.bitlen := by simpa using hall.symm
      simp only [searchCode, findCode, nextBit_exhausted (by omega : s.bitlen ≤ s.bitpos), Res.bind_raise]
      rw [exhausted, with_bitpos_eq he.symm, he]; rfl
    | cons b bs =>
      obtain ⟨h1, h2, h3⟩ := h
      simp only [List.length_cons] at hall
      simp only [searchCode, findCode, nextBit_ok h1, Res.bind_ok, h2]
      cases hm : map.read (shiftIn acc b) with
      | some ssss =>
        have : s.bitpos + 1 = s.bitlen - bs.length := by omega
        simp [this]
      | none =>
        simp only
        rw [ih (s := { s with bitpos := s.bitpos + 1 }) (bs := bs)
          ((bitsHold_congr (by rfl) (by rfl) (by rfl)).mpr h3) (by simp only; omega)]
        split
        · rfl
        · rfl
        · simp [Nat.add_comm 1, Nat.add_assoc]

/-! ### DecodeDiff -/

/-- DecodeDiff is the codeword decoder run on the remaining bits (30_encoding R81, R85; 42_entropy_decoder R142). -/
theorem decodeDiff_eq {s : State} {key : Byte} {table : HuffTable} {bs : List Bool} (hk : slot s key = some table)
    (h : BitsHold s s.bitpos bs) (hall : s.bitlen = s.bitpos + bs.length) :
    decodeDiff key s =
      match decodeCodeword table bs with
      | .ok (i, rest) => .ok (instrDifference i) { s with bitpos := s.bitlen - rest.length }
      | .error .emptyTable => Res.raise .emptyTable key.toNat s
      | .error .bitsExhausted => .raised (exhausted s)
      | .error .noCode =>
        let n := (table.lengths.elim 0 fun lens => lens.min.toNat - 1 + lens.max.toNat)
        Res.raise .malformedCode (s.bitpos + n) { s with bitpos := s.bitpos + n } := by
  unfold decodeDiff decodeCodeword
  rw [hk]
  simp only
  cases hl : table.lengths with
  | none => rfl
  | some lens =>
    simp only [Option.elim_some]
    cases ht : takeFrom (lens.min.toNat - 1) 1 bs with
    | none =>
      rw [takeFrom_eq_none] at ht
      rw [takeBits_exhausted 1 (by omega) (by omega)]
      rfl
    | some p =>
      obtain ⟨acc, rest⟩ := p
      obtain ⟨pre, rfl, hpre, rfl⟩ := takeFrom_eq_some ht
      obtain ⟨hp, hr⟩ := bitsHold_append.mp h
      rw [← hpre, takeBits_hold hp]
      simp only [Res.bind_ok]
      have hr' : BitsHold { s with bitpos := s.bitpos + pre.length } (s.bitpos + pre.length) rest :=
        (bitsHold_congr (by rfl) (by rfl) (by rfl)).mpr hr
      simp only [List.length_append] at hall
      rw [searchCode_eq (bs := rest) hr' (by simp only; omega)]
      cases hf : findCode table.map lens.max.toNat (List.foldl shiftIn 1 pre) rest with
      | error e =>
        cases e with
        | emptyTable => exact absurd hf findCode_ne_emptyTable
        | bitsExhausted => rfl
        | noCode => simp only [Res.bind_ok, finishDiff, Nat.add_assoc]
      | ok q =>
        obtain ⟨code, ssss, rest'⟩ := q
        obtain ⟨mid, b, rfl, -, -, -, -⟩ := findCode_eq_ok hf
        simp only [Res.bind_ok, finishDiff]
        have hr2 : BitsHold s (s.bitlen - rest'.length) rest' := by
          have := (bitsHold_append.mp hr).2
          have hb := (bitsHold_append (xs := [b]) (ys := rest')).mp this
          have he : s.bitlen - rest'.length = s.bitpos + pre.length + mid.length + [b].length := by
            simp only [List.length_append, List.length_cons, List.length_nil] at hall ⊢; omega
          rw [he]; exact hb.2
        cases ht2 : takeFrom (extraCount ssss) 0 rest' with
        | none =>
          rw [takeFrom_eq_none] at ht2
          rw [takeBits_exhausted 0 (by simp only; omega)
            (by simp only [List.length_append, List.length_cons] at hall ⊢; omega)]
          rfl
        | some q =>
          obtain ⟨v, rest''⟩ := q
          obtain ⟨ex, rfl, hex, rfl⟩ := takeFrom_eq_some ht2
          have hx := (bitsHold_append.mp hr2).1
          rw [← hex, takeBits_hold (s := { s with bitpos := _ })
            ((bitsHold_congr (by rfl) (by rfl) (by rfl)).mpr hx)]
          simp only [Res.bind_ok]
          have hlt : ex.foldl shiftIn 0 < 2 ^ extraCount ssss := hex ▸ foldl_shiftIn_lt ex
          rw [instrDifference, codeword?_codewordOf ssss _ hlt]
          have : s.bitlen - (ex ++ rest'').length + ex.length = s.bitlen - rest''.length := by
            simp only [List.length_append, List.length_cons] at hall ⊢; omega
          rw [this]

/-- A decode that returned moved BITPOS and nothing else. -/
theorem takeBits_frame {n acc : Nat} {s : State} :
    (∀ v t, takeBits n acc s = .ok v t → t = { s with bitpos := s.bitpos + n } ∧ s.bitpos + n ≤ max s.bitpos s.bitlen) ∧
    (∀ t, takeBits n acc s = .raised t →
      ∃ p, s.bitpos ≤ p ∧ s.bitlen ≤ p ∧ p ≤ max s.bitpos s.bitlen ∧
        t = raise .bitsExhausted p { s with bitpos := p }) := by
  induction n generalizing acc s with
  | zero => constructor <;> simp [takeBits]
  | succ n ih =>
    by_cases h : s.bitpos < s.bitlen
    · simp only [takeBits, nextBit_ok h, Res.bind_ok]
      have := ih (acc := shiftIn acc (bitAt s s.bitpos)) (s := { s with bitpos := s.bitpos + 1 })
      constructor
      · intro v t ht
        obtain ⟨rfl, hle⟩ := this.1 v t ht
        refine ⟨by simp [Nat.add_comm 1, Nat.add_assoc], ?_⟩
        simp only at hle; omega
      · intro t ht
        obtain ⟨p, h1, h2, h3, rfl⟩ := this.2 t ht
        simp only at h1 h2 h3
        exact ⟨p, by omega, h2, by omega, rfl⟩
    · simp only [takeBits, nextBit_exhausted (Nat.not_lt.mp h), Res.bind_raise]
      constructor
      · intro v t ht; simp [Res.raise] at ht
      · intro t ht
        simp only [Res.raise, Res.raised.injEq] at ht
        exact ⟨s.bitpos, le_refl _, Nat.not_lt.mp h, le_max_left _ _, by rw [← ht]⟩

end Sys2Proof.Machine
end

