-- ==== Sys2Proof/Laws/Builder.lean ====
section
/-! SUPPORT. The builder: the successor step and the padding as arithmetic, and what lies in the map. -/

namespace Sys2Proof.Machine

/-! ### The successor step and the padding -/

theorem stripOnes_zero {x j fuel : Nat} (hx : 1 ≤ x) (hf : j < fuel) :
    stripOnes fuel (2 * x * 2 ^ j + (2 ^ j - 1)) = x := by
  induction j generalizing fuel with
  | zero =>
    obtain ⟨n, rfl⟩ : ∃ n, fuel = n + 1 := ⟨fuel - 1, by omega⟩
    simp [stripOnes]
  | succ j ih =>
    obtain ⟨n, rfl⟩ : ∃ n, fuel = n + 1 := ⟨fuel - 1, by omega⟩
    have hp := Nat.two_pow_pos j
    have hxp : 2 ^ j ≤ x * 2 ^ j := Nat.le_mul_of_pos_left _ hx
    have e : 2 * x * 2 ^ (j + 1) + (2 ^ (j + 1) - 1) = 2 * (2 * x * 2 ^ j + (2 ^ j - 1)) + 1 := by
      rw [pow_succ]
      have : 2 * x * (2 ^ j * 2) = 2 * (2 * x * 2 ^ j) := by ring
      omega
    rw [e, stripOnes, if_neg (by rw [Nat.mul_assoc]; omega), if_neg (by omega),
      show (2 * (2 * x * 2 ^ j + (2 ^ j - 1)) + 1) / 2 = 2 * x * 2 ^ j + (2 ^ j - 1) by omega]
    exact ih (by omega)

theorem stripOnes_ones {j fuel : Nat} (hf : j < fuel) : stripOnes fuel (2 ^ (j + 1) - 1) = 1 := by
  induction j generalizing fuel with
  | zero =>
    obtain ⟨n, rfl⟩ : ∃ n, fuel = n + 1 := ⟨fuel - 1, by omega⟩
    simp [stripOnes]
  | succ j ih =>
    obtain ⟨n, rfl⟩ : ∃ n, fuel = n + 1 := ⟨fuel - 1, by omega⟩
    have hp := Nat.two_pow_pos j
    have e : 2 ^ (j + 1 + 1) - 1 = 2 * (2 ^ (j + 1) - 1) + 1 := by rw [pow_succ 2 (j + 1), pow_succ]; omega
    rw [e, stripOnes, if_neg (by rw [pow_succ]; omega), if_neg (by omega),
      show (2 * (2 ^ (j + 1) - 1) + 1) / 2 = 2 ^ (j + 1) - 1 by omega]
    exact ih (by omega)

/-- Every code is `x 0 1..1` or all ones. -/
theorem code_cases {c : Nat} (hc : 1 ≤ c) :
    (∃ x j, 1 ≤ x ∧ c = 2 * x * 2 ^ j + (2 ^ j - 1)) ∨ ∃ j, c = 2 ^ (j + 1) - 1 := by
  induction c using Nat.strong_induction_on with
  | _ c ih =>
    by_cases h1 : c = 1
    · exact .inr ⟨0, by simp [h1]⟩
    by_cases h2 : c % 2 = 0
    · exact .inl ⟨c / 2, 0, by omega, by simp; omega⟩
    · rcases ih (c / 2) (by omega) (by omega) with ⟨x, j, hx, e⟩ | ⟨j, e⟩
      · refine .inl ⟨x, j + 1, hx, ?_⟩
        have hp := Nat.two_pow_pos j
        have h3 : c = 2 * (c / 2) + 1 := by omega
        have h4 : 2 * x * 2 ^ (j + 1) = 2 * (2 * x * 2 ^ j) := by rw [pow_succ]; ring
        rw [h4, pow_succ]; omega
      · refine .inr ⟨j + 1, ?_⟩
        have hp := Nat.two_pow_pos j
        rw [pow_succ 2 (j + 1)]; rw [pow_succ] at e ⊢; omega

theorem nbits_zero_ones {x j : Nat} (hx : 1 ≤ x) : nbits (2 * x * 2 ^ j + (2 ^ j - 1)) = nbits x + 1 + j := by
  have h1 := two_pow_nbits_le hx
  have h2 := lt_two_pow_nbits x
  have hp := Nat.two_pow_pos j
  apply nbits_eq
  · calc 2 ^ (nbits x + 1 + j) = 2 * 2 ^ nbits x * 2 ^ j := by rw [pow_add, pow_succ]; ring
      _ ≤ 2 * x * 2 ^ j := Nat.mul_le_mul_right _ (by omega)
      _ ≤ _ := Nat.le_add_right _ _
  · calc 2 * x * 2 ^ j + (2 ^ j - 1) < (2 * x + 1) * 2 ^ j := by
          rw [Nat.add_mul, Nat.one_mul]; omega
      _ ≤ (2 * 2 ^ (nbits x + 1)) * 2 ^ j := Nat.mul_le_mul_right _ (by omega)
      _ = 2 ^ (nbits x + 1 + j + 1) := by rw [pow_succ, pow_add]; ring

theorem nbits_ones (j : Nat) : nbits (2 ^ (j + 1) - 1) = j := by
  have hp := Nat.two_pow_pos j
  apply nbits_eq <;> rw [pow_succ] <;> omega

/-- The successor step never lengthens a code, and yields at least 3 (R104, R105). -/
theorem succCode_spec {c : Nat} (hc : 2 ≤ c) : 3 ≤ succCode c ∧ nbits (succCode c) ≤ nbits c := by
  rcases code_cases (by omega : 1 ≤ c) with ⟨x, j, hx, rfl⟩ | ⟨j, rfl⟩
  · rw [succCode, stripOnes_zero hx (by rw [nbits_zero_ones hx]; omega), nbits_zero_ones hx]
    refine ⟨by omega, ?_⟩
    have : nbits (2 * x + 1) = nbits x + 1 := by
      have h1 := two_pow_nbits_le hx
      have h2 := lt_two_pow_nbits x
      apply nbits_eq
      · rw [pow_succ]; omega
      · rw [pow_succ]; omega
    omega
  · rw [succCode, stripOnes_ones (by rw [nbits_ones]; omega), nbits_ones]
    refine ⟨by omega, ?_⟩
    have hj : 1 ≤ j := by
      by_contra h
      have : j = 0 := by omega
      subst this; simp at hc
    have : nbits (2 * 1 + 1) = 1 := nbits_eq (by norm_num) (by norm_num)
    omega

/-- Padding gives a code of exactly the length (R105, R106). -/
theorem padTo_spec {len c : Nat} (hc : 1 ≤ c) (h : nbits c ≤ len) :
    2 ^ len ≤ padTo len c ∧ padTo len c < 2 ^ (len + 1) := by
  have h1 := two_pow_nbits_le hc
  have h2 := lt_two_pow_nbits c
  rw [padTo, Nat.shiftLeft_eq]
  constructor
  · calc 2 ^ len = 2 ^ nbits c * 2 ^ (len - nbits c) := by rw [← pow_add]; congr 1; omega
      _ ≤ _ := Nat.mul_le_mul_right _ h1
  · calc c * 2 ^ (len - nbits c) < 2 ^ (nbits c + 1) * 2 ^ (len - nbits c) :=
          Nat.mul_lt_mul_of_pos_right h2 (Nat.two_pow_pos _)
      _ = 2 ^ (len + 1) := by rw [← pow_add]; congr 1; omega

/-- Every next code has its length, when the lengths do not fall. -/
theorem nextCode_spec {prev : Option Nat} {len : Nat} (h : ∀ c, prev = some c → 2 ≤ c ∧ nbits c ≤ len) :
    2 ^ len ≤ nextCode prev len ∧ nextCode prev len < 2 ^ (len + 1) := by
  cases prev with
  | none => exact padTo_spec (le_refl 1) (by rw [show nbits 1 = 0 by decide]; omega)
  | some c =>
    obtain ⟨h2, hn⟩ := h c rfl
    have := succCode_spec h2
    exact padTo_spec (by omega) (by omega)

/-! ### Entries and insertions -/

theorem mem_cltEntries {s : State} {e : Nat × Byte} :
    e ∈ cltEntries s ↔ ∃ len i, 1 ≤ len ∧ len ≤ 16 ∧ i < cltCount s len ∧ e = (len, cltSymbol s len i) := by
  simp only [cltEntries, entriesOfLength, List.mem_flatMap, List.mem_range'_1, List.mem_map, List.mem_range]
  constructor
  · rintro ⟨len, ⟨h1, h2⟩, i, hi, rfl⟩; exact ⟨len, i, h1, by omega, hi, rfl⟩
  · rintro ⟨len, i, h1, h2, hi, rfl⟩; exact ⟨len, ⟨h1, by omega⟩, i, hi, rfl⟩

theorem mem_symbolEntries {s : State} {e : Nat × Symbol} :
    e ∈ symbolEntries s ↔
      ∃ len i, 1 ≤ len ∧ len ≤ 16 ∧ i < cltCount s len ∧ e = (len, symbolOf (cltSymbol s len i)) := by
  simp only [symbolEntries, List.mem_map, mem_cltEntries]
  constructor
  · rintro ⟨_, ⟨len, i, h1, h2, h3, rfl⟩, rfl⟩; exact ⟨len, i, h1, h2, h3, rfl⟩
  · rintro ⟨len, i, h1, h2, h3, rfl⟩; exact ⟨_, ⟨len, i, h1, h2, h3, rfl⟩, rfl⟩

/-- The entries come length by length, 1 to 16 (20_memory R54). -/
theorem rising_symbolEntries (s : State) : RisingLengths (symbolEntries s) := by
  constructor
  · have : (symbolEntries s).map Prod.fst =
        (List.range' 1 16).flatMap fun len => List.replicate (cltCount s len) len := by
      simp only [symbolEntries, cltEntries, entriesOfLength, List.map_map, List.map_flatMap]
      congr 1
      funext len
      simp [Function.comp_def, List.map_const']
    rw [this, List.flatMap_def, List.pairwise_flatten]
    constructor
    · intro l hl
      obtain ⟨len, -, rfl⟩ := List.mem_map.mp hl
      exact List.pairwise_replicate.mpr (.inr (le_refl _))
    · refine List.Pairwise.map _ (R := (· < ·)) ?_ List.pairwise_lt_range'
      intro a b hab x hx y hy
      rw [List.eq_of_mem_replicate hx, List.eq_of_mem_replicate hy]; omega
  · intro e he
    obtain ⟨len, i, h1, h2, -, rfl⟩ := mem_symbolEntries.mp he
    exact ⟨h1, h2⟩

theorem badCount_iff {s : State} : badCount s = true ↔ ∃ len, 1 ≤ len ∧ len ≤ 16 ∧ 16 < cltCount s len := by
  simp only [badCount, List.any_eq_true, List.mem_range'_1, decide_eq_true_eq]
  constructor
  · rintro ⟨len, ⟨h1, h2⟩, h3⟩; exact ⟨len, h1, by omega, h3⟩
  · rintro ⟨len, h1, h2, h3⟩; exact ⟨len, ⟨h1, by omega⟩, h3⟩

theorem badSymbol_iff {s : State} : badSymbol s = true ↔
    ∃ len i, 1 ≤ len ∧ len ≤ 16 ∧ i < cltCount s len ∧ 16 < (cltSymbol s len i).toNat := by
  simp only [badSymbol, List.any_eq_true, decide_eq_true_eq, mem_cltEntries]
  constructor
  · rintro ⟨_, ⟨len, i, h1, h2, h3, rfl⟩, h4⟩; exact ⟨len, i, h1, h2, h3, h4⟩
  · rintro ⟨len, i, h1, h2, h3, h4⟩; exact ⟨_, ⟨len, i, h1, h2, h3, rfl⟩, h4⟩

theorem cltLegal_iff {s : State} : CltLegal s ↔ badCount s = false ∧ badSymbol s = false := by
  rw [← Bool.not_eq_true, ← Bool.not_eq_true, badCount_iff, badSymbol_iff]
  unfold CltLegal
  push Not
  tauto

/-! ### The map -/

theorem mapOf_snoc (ins : List (Nat × Symbol)) (e : Nat × Symbol) :
    mapOf (ins ++ [e]) = (mapOf ins).write e.1 e.2 := by
  simp [mapOf]

theorem mapOf_wf (ins : List (Nat × Symbol)) : Memory.wf (mapOf ins) = true := by
  induction ins using List.reverseRecOn with
  | nil => rfl
  | append_singleton ins e ih => rw [mapOf_snoc]; exact Memory.write_wf ih _ _

theorem mem_of_mem_mapOf {ins : List (Nat × Symbol)} {e : Nat × Symbol} (h : e ∈ mapOf ins) : e ∈ ins := by
  induction ins using List.reverseRecOn with
  | nil => simp [mapOf] at h
  | append_singleton ins f ih =>
    rw [mapOf_snoc] at h
    rcases Memory.mem_write h with rfl | h
    · simp
    · exact List.mem_append_left _ (ih h)

theorem key_mem_mapOf {ins : List (Nat × Symbol)} {e : Nat × Symbol} (h : e ∈ ins) :
    ∃ f ∈ mapOf ins, f.1 = e.1 := by
  have : ((mapOf ins).read e.1).isSome = true := by
    induction ins using List.reverseRecOn with
    | nil => simp at h
    | append_singleton ins f ih =>
      rw [mapOf_snoc, Memory.read_write]
      split
      · rfl
      · rcases List.mem_append.mp h with h | h
        · exact ih h
        · simp_all
  obtain ⟨v, hv⟩ := Option.isSome_iff_exists.mp this
  exact ⟨_, Memory.mem_of_read hv, rfl⟩

/-! ### The insertions and the table -/

/-- Elements of two lists related one by one have partners. -/
theorem forall₂_mem {α β : Type} {R : α → β → Prop} {as : List α} {bs : List β} (h : List.Forall₂ R as bs) :
    (∀ a ∈ as, ∃ b ∈ bs, R a b) ∧ ∀ b ∈ bs, ∃ a ∈ as, R a b := by
  induction h with
  | nil => simp
  | cons h _ ih =>
    refine ⟨fun a ha => ?_, fun b hb => ?_⟩
    · rcases List.mem_cons.mp ha with rfl | ha
      · exact ⟨_, List.mem_cons_self, h⟩
      · obtain ⟨b, hb, hr⟩ := ih.1 a ha; exact ⟨b, List.mem_cons_of_mem _ hb, hr⟩
    · rcases List.mem_cons.mp hb with rfl | hb
      · exact ⟨_, List.mem_cons_self, h⟩
      · obtain ⟨a, ha, hr⟩ := ih.2 b hb; exact ⟨a, List.mem_cons_of_mem _ ha, hr⟩

theorem rising_tail {e : Nat × Symbol} {rest} (h : RisingLengths (e :: rest)) : RisingLengths rest := by
  obtain ⟨h1, h2⟩ := h
  exact ⟨(List.pairwise_cons.mp h1).2, fun e he => h2 e (List.mem_cons_of_mem _ he)⟩

/-- Every insertion has its entry's length and symbol (40_huffman_builder R106). -/
theorem insertions_spec {entries : List (Nat × Symbol)} (h : RisingLengths entries) {prev : Option Nat}
    (hp : ∀ c, prev = some c → 2 ≤ c ∧ ∀ e ∈ entries, nbits c ≤ e.1) :
    List.Forall₂
      (fun e ins => 2 ^ e.1 ≤ ins.1 ∧ ins.1 < 2 ^ (e.1 + 1) ∧ 2 ≤ ins.1 ∧ ins.1 < 2 ^ 17 ∧ ins.2 = e.2)
      entries (insertions prev entries) := by
  induction entries generalizing prev with
  | nil => exact .nil
  | cons e rest ih =>
    obtain ⟨len, sym⟩ := e
    have hl := h.2 (len, sym) (by simp)
    simp only at hl
    obtain ⟨n1, n2⟩ := nextCode_spec (prev := prev) (len := len) (fun c hc => ⟨(hp c hc).1, (hp c hc).2 (len, sym) (by simp)⟩)
    have h2 : 2 ≤ nextCode prev len := by
      calc 2 = 2 ^ 1 := rfl
        _ ≤ 2 ^ len := Nat.pow_le_pow_right (by norm_num) hl.1
        _ ≤ _ := n1
    have h17 : nextCode prev len < 2 ^ 17 := n2.trans_le (Nat.pow_le_pow_right (by norm_num) (by omega))
    refine .cons ⟨n1, n2, h2, h17, rfl⟩ (ih (rising_tail h) ?_)
    intro c hc
    cases hc
    refine ⟨h2, fun e he => ?_⟩
    rw [nbits_eq n1 n2]
    exact (List.pairwise_cons.mp h.1).1 e.1 (List.mem_map_of_mem he)

/-- The table of a code-length table: empty without entries, else with lengths that bound its keys. -/
theorem tableOf_cases (s : State) :
    (symbolEntries s = [] ∧ tableOf (symbolEntries s) = { map := [], lens := none }) ∨
    ∃ lo hi, (tableOf (symbolEntries s)).lens = some { min := BitVec.ofNat 5 lo, max := BitVec.ofNat 5 hi } ∧
      1 ≤ lo ∧ hi ≤ 16 ∧ lo ≤ hi ∧
      (∀ e ∈ (tableOf (symbolEntries s)).map, 2 ≤ e.1 ∧ lo ≤ nbits e.1 ∧ nbits e.1 ≤ hi) ∧
      (∃ e ∈ (tableOf (symbolEntries s)).map, nbits e.1 = lo) ∧
      ∃ e ∈ (tableOf (symbolEntries s)).map, nbits e.1 = hi := by
  set es := symbolEntries s with hes
  have hfa := insertions_spec (rising_symbolEntries s) (prev := none) (by simp)
  rw [← hes] at hfa
  cases he : es with
  | nil => exact .inl ⟨rfl, rfl⟩
  | cons e0 rest0 =>
  right
  rw [← he]
  set map := mapOf (insertions none es) with hmap
  have hmapne : map ≠ [] := by
    rw [he] at hmap
    intro hc
    have : (nextCode none e0.1, e0.2) ∈ insertions none (e0 :: rest0) := by simp [insertions]
    obtain ⟨f, hf, -⟩ := key_mem_mapOf this
    rw [← hmap, hc] at hf; simp at hf
  have hkey : ∀ e ∈ map, 2 ≤ e.1 ∧ 1 ≤ nbits e.1 ∧ nbits e.1 ≤ 16 := by
    intro e hem
    have := mem_of_mem_mapOf hem
    have h2 : 2 ≤ e.1 ∧ e.1 < 2 ^ 17 := by
      obtain ⟨x, -, hx⟩ := (forall₂_mem hfa).2 e this
      exact ⟨hx.2.2.1, hx.2.2.2.1⟩
    refine ⟨h2.1, nbits_pos h2.1, ?_⟩
    by_contra hc
    have h1 := two_pow_nbits_le (c := e.1) (by omega)
    have : 2 ^ 17 ≤ 2 ^ nbits e.1 := Nat.pow_le_pow_right (by norm_num) (by omega)
    omega
  obtain ⟨lo, hlo⟩ := Option.ne_none_iff_exists'.mp
    (show (map.map fun e => nbits e.1).min? ≠ none by simpa using hmapne)
  obtain ⟨hi, hhi⟩ := Option.ne_none_iff_exists'.mp
    (show (map.map fun e => nbits e.1).max? ≠ none by simpa using hmapne)
  obtain ⟨lo1, lo2⟩ := List.min?_eq_some_iff.mp hlo
  obtain ⟨hi1, hi2⟩ := List.max?_eq_some_iff.mp hhi
  obtain ⟨e1, e1m, e1e⟩ := List.mem_map.mp lo1
  obtain ⟨e2, e2m, e2e⟩ := List.mem_map.mp hi1
  have hb : ∀ e ∈ map, lo ≤ nbits e.1 ∧ nbits e.1 ≤ hi := fun e he =>
    ⟨lo2 _ (List.mem_map.mpr ⟨e, he, rfl⟩), hi2 _ (List.mem_map.mpr ⟨e, he, rfl⟩)⟩
  refine ⟨lo, hi, ?_, ?_, ?_, ?_, ?_, ?_, ?_⟩
  · simp only [tableOf, lengthsOf]; rw [← hmap, hlo, hhi]
  · rw [← e1e]; exact (hkey e1 e1m).2.1
  · rw [← e2e]; exact (hkey e2 e2m).2.2
  · rw [← e1e]; exact (hb e1 e1m).2
  · intro e he; exact ⟨(hkey e he).1, hb e he⟩
  · exact ⟨e1, e1m, e1e⟩
  · exact ⟨e2, e2m, e2e⟩

/-- Every table HTBUILD builds is well formed (10_state R42). -/
theorem wf_tableOf (s : State) : WfTable (tableOf (symbolEntries s)) := by
  refine ⟨mapOf_wf _, ?_⟩
  rcases tableOf_cases s with ⟨h, e⟩ | ⟨lo, hi, e, h1, h2, h3, h4, h5, h6⟩
  · rw [e]
  · rw [e]
    have a : (BitVec.ofNat 5 lo).toNat = lo := by simp; omega
    have b : (BitVec.ofNat 5 hi).toNat = hi := by simp; omega
    simp only [a, b]
    exact ⟨h1, h3, h2, h4, h5, h6⟩

end Sys2Proof.Machine
end

