-- ==== Sys2Proof/Laws/Entropy.lean ====
section
/-! SUPPORT. The entropy decoder: the range of a difference, and everything DecodeDiff can do to the state. -/

namespace Sys2Proof.Machine

/-- Two states that differ at most in BITPOS, FAULT and FINFO, the bit cursor moving forward and not beyond BITLEN. -/
def BitsConsumed (s t : State) : Prop :=
  t = { s with bitpos := t.bitpos, fault := t.fault, finfo := t.finfo } ∧
  s.bitpos ≤ t.bitpos ∧ t.bitpos ≤ max s.bitpos s.bitlen

theorem BitsConsumed.refl (s : State) : BitsConsumed s s := ⟨rfl, le_refl _, le_max_left _ _⟩

theorem BitsConsumed.trans {s t u : State} (h1 : BitsConsumed s t) (h2 : BitsConsumed t u) : BitsConsumed s u := by
  obtain ⟨e1, a1, b1⟩ := h1
  obtain ⟨e2, a2, b2⟩ := h2
  have hl : t.bitlen = s.bitlen := by rw [e1]
  refine ⟨by rw [e2, e1], a1.trans a2, ?_⟩
  rw [hl] at b2; omega

theorem bitsConsumed_raise (f : FaultCode) (n : Nat) (s : State) : BitsConsumed s (raise f n s) :=
  ⟨rfl, le_refl _, le_max_left _ _⟩

/-- The faults of DecodeDiff (42_entropy_decoder R141). -/
def decodeFaults : List (BitVec 4) := [1, 2, 4, 5]

/-- How a decode procedure ends: it returned with FAULT and FINFO as they were, or it raised one of its own faults. -/
def DecodeEnd {α : Type} (s : State) : Res α → Prop
  | .ok _ t => BitsConsumed s t ∧ t.fault = s.fault ∧ t.finfo = s.finfo
  | .raised t => BitsConsumed s t ∧ t.fault ∈ decodeFaults

theorem DecodeEnd.bind {α β : Type} {s : State} {r : Res α} {k : α → State → Res β} (hr : DecodeEnd s r)
    (hk : ∀ a t, r = .ok a t → DecodeEnd t (k a t)) : DecodeEnd s (r.bind k) := by
  cases r with
  | raised t => exact hr
  | ok a t =>
    have h2 := hk a t rfl
    simp only [Res.bind_ok]
    cases h : k a t with
    | ok b u => rw [h] at h2; exact ⟨hr.1.trans h2.1, h2.2.1.trans hr.2.1, h2.2.2.trans hr.2.2⟩
    | raised u => rw [h] at h2; exact ⟨hr.1.trans h2.1, h2.2⟩

theorem decodeEnd_ok {α : Type} (s : State) (a : α) : DecodeEnd s (.ok a s) := ⟨.refl s, rfl, rfl⟩

theorem decodeEnd_raise {α : Type} {s : State} {f : FaultCode} (n : Nat) (hf : f.code ∈ decodeFaults) :
    DecodeEnd s (Res.raise f n s : Res α) := ⟨bitsConsumed_raise f n s, hf⟩

theorem decodeEnd_nextBit (s : State) : DecodeEnd s (nextBit s) := by
  by_cases h : s.bitpos < s.bitlen
  · rw [nextBit_ok h]
    exact ⟨⟨rfl, Nat.le_succ _, by show s.bitpos + 1 ≤ _; omega⟩, rfl, rfl⟩
  · rw [nextBit_exhausted (Nat.not_lt.mp h)]; exact decodeEnd_raise _ (by decide)

theorem decodeEnd_takeBits (n acc : Nat) (s : State) : DecodeEnd s (takeBits n acc s) := by
  induction n generalizing acc s with
  | zero => exact decodeEnd_ok s acc
  | succ n ih => exact (decodeEnd_nextBit s).bind fun b t _ => ih _ t

theorem decodeEnd_searchCode (map : CodeMap) (n acc : Nat) (s : State) : DecodeEnd s (searchCode map n acc s) := by
  induction n generalizing acc s with
  | zero => exact decodeEnd_ok s none
  | succ n ih =>
    refine (decodeEnd_nextBit s).bind fun b t _ => ?_
    split
    · exact decodeEnd_ok t _
    · exact ih _ t

theorem decodeEnd_finishDiff (found : Option Symbol) (s : State) : DecodeEnd s (finishDiff found s) := by
  cases found with
  | none => exact decodeEnd_raise _ (by decide)
  | some ssss => exact (decodeEnd_takeBits _ _ s).bind fun v t _ => decodeEnd_ok t _

/-- Everything DecodeDiff can do to the state (42_entropy_decoder R141, R142). -/
theorem decodeEnd_decodeDiff (key : Byte) (s : State) : DecodeEnd s (decodeDiff key s) := by
  unfold decodeDiff
  split
  · exact decodeEnd_raise _ (by decide)
  · split
    · exact decodeEnd_raise _ (by decide)
    · exact (decodeEnd_takeBits _ _ s).bind fun acc t _ =>
        (decodeEnd_searchCode _ _ _ t).bind fun found u _ => decodeEnd_finishDiff found u

/-! ### Ranges -/

theorem takeBits_lt {n acc v : Nat} {s t : State} (h : takeBits n acc s = .ok v t) : v < (acc + 1) * 2 ^ n := by
  induction n generalizing acc s with
  | zero => simp only [takeBits, Res.ok.injEq] at h; omega
  | succ n ih =>
    obtain ⟨b, u, -, h⟩ := Res.bind_eq_ok.mp h
    have := ih h
    calc v < (shiftIn acc b + 1) * 2 ^ n := this
      _ ≤ ((acc + 1) * 2) * 2 ^ n := by
        apply Nat.mul_le_mul_right; cases b <;> simp [shiftIn] <;> omega
      _ = (acc + 1) * 2 ^ (n + 1) := by rw [pow_succ]; ring

/-- A sign bit of 1 means the upper half of the category's numbers. -/
theorem testBit_top {n v : Nat} (h : v < 2 ^ (n + 1)) : v.testBit n = decide (2 ^ n ≤ v) := by
  rw [Nat.testBit_eq_decide_div_mod_eq]
  have hp := Nat.two_pow_pos n
  rw [pow_succ] at h
  by_cases hv : 2 ^ n ≤ v
  · have : v / 2 ^ n = 1 := Nat.div_eq_of_lt_le (by omega) (by omega)
    simp [this, hv]
  · simp [Nat.div_eq_of_lt (Nat.not_le.mp hv), hv]

/-- The difference of a category 1..15, by halves (30_encoding R82). -/
theorem differenceOf_mid {n v : Nat} (hn : n + 1 ≤ 15) (hv : v < 2 ^ (n + 1)) :
    differenceOf (n + 1) v = if 2 ^ n ≤ v then (v : Int) else (v : Int) + 1 - (2 ^ (n + 1) : Nat) := by
  have h16 : n + 1 ≠ 16 := by omega
  simp only [differenceOf, h16, if_false, Nat.add_one_ne_zero, Nat.add_sub_cancel, testBit_top hv,
    decide_eq_true_eq]

theorem differenceOf_range {ssss v : Nat} (hs : ssss ≤ 16) (hv : v < 2 ^ extraCount ssss) :
    -32767 ≤ differenceOf ssss v ∧ differenceOf ssss v ≤ 32768 := by
  rcases Nat.eq_zero_or_pos ssss with rfl | h0
  · simp [differenceOf]
  by_cases h16 : ssss = 16
  · subst h16; simp [differenceOf]
  obtain ⟨n, rfl⟩ : ∃ n, ssss = n + 1 := ⟨ssss - 1, by omega⟩
  simp only [extraCount, h16, if_false] at hv
  rw [differenceOf_mid (by omega) hv]
  have h1 : 2 ^ (n + 1) ≤ 2 ^ 15 := Nat.pow_le_pow_right (by norm_num) (by omega)
  rw [show (2 : Nat) ^ 15 = 32768 by norm_num] at h1
  generalize 2 ^ (n + 1) = top at *
  split <;> omega

/-! ### EDDIFF -/

/-- Everything EDDIFF can do (42_entropy_decoder R141). -/
theorem eddiff_end (key : Byte) (s : State) :
    ∃ t d, (eddiffBody key s).state = { t with diff := d } ∧ BitsConsumed s t ∧
      ((t.fault = s.fault ∧ t.finfo = s.finfo) ∨ t.fault ∈ decodeFaults ∧ d = s.diff) := by
  have h := decodeEnd_decodeDiff key s
  unfold eddiffBody
  cases hd : decodeDiff key s with
  | raised t =>
    rw [hd] at h
    refine ⟨t, t.diff, rfl, h.1, .inr ⟨h.2, by rw [h.1.1]⟩⟩
  | ok d t =>
    rw [hd] at h
    exact ⟨t, _, rfl, h.1, .inl h.2⟩

end Sys2Proof.Machine
end

