-- ==== Sys2Proof/Laws/Codewords.lean ====
section
/-! SUPPORT. The codeword decoder against well-formed tables: what it answers on a codeword, and what any success
means. -/

namespace Sys2Proof.Machine

/-- A well-formed table with a key has lengths, and the decoder uses them. -/
theorem wf_lengths {table : HuffTable} (h : WfTable table) (hne : table.map ≠ []) :
    ∃ lens, table.lens = some lens ∧ table.lengths = some lens := by
  cases hl : table.lens with
  | none => have := h.2; rw [hl] at this; exact absurd this hne
  | some lens => exact ⟨lens, rfl, by simp [HuffTable.lengths, hl, hne]⟩

/-- The bounds a well-formed table's lengths and keys obey (10_state R42). -/
theorem wf_bounds {table : HuffTable} {lens : Lengths} (h : WfTable table) (hl : table.lens = some lens) :
    1 ≤ lens.min.toNat ∧ lens.min.toNat ≤ lens.max.toNat ∧ lens.max.toNat ≤ 16 ∧
    (∀ e ∈ table.map, 2 ≤ e.1 ∧ lens.min.toNat ≤ nbits e.1 ∧ nbits e.1 ≤ lens.max.toNat) ∧
    (∃ e ∈ table.map, nbits e.1 = lens.min.toNat) ∧ (∃ e ∈ table.map, nbits e.1 = lens.max.toNat) := by
  have := h.2; rw [hl] at this; exact this

/-- No proper prefix of a code the search finds is itself a key. -/
theorem findsCode_miss {table : HuffTable} {ssss code : Nat} (hf : FindsCode table ssss code) {p : List Bool}
    (hp : p <+: codeBits code) (hne : p ≠ codeBits code) : table.map.read (p.foldl shiftIn 1) = none := by
  by_contra h
  obtain ⟨v, hv⟩ := Option.ne_none_iff_exists'.mp h
  have hm := Memory.mem_of_read hv
  have := hf.2 _ hm (by rw [codeBits_foldl_shiftIn]; exact hp)
  simp only at this
  rw [← this, codeBits_foldl_shiftIn] at hne
  exact hne rfl

/-- What the codeword decoder answers on a codeword's bits (30_encoding R81, R85). -/
theorem decodeCodeword_hit {table : HuffTable} {sym : Symbol} {code v : Nat} {rest : List Bool}
    (hw : WfTable table) (hf : FindsCode table sym.val code) (hv : v < 2 ^ extraCount sym) :
    decodeCodeword table (codewordBits sym code v ++ rest) = .ok (codewordOf sym (BitVec.ofNat 17 code) v, rest) := by
  obtain ⟨sym', hs', hr⟩ := hf.1
  obtain rfl : sym' = sym := Fin.ext hs'
  have hmem := Memory.mem_of_read hr
  obtain ⟨lens, hl, hl'⟩ := wf_lengths hw (List.ne_nil_of_mem hmem)
  obtain ⟨h1, h2, h3, h4, -, -⟩ := wf_bounds hw hl
  obtain ⟨hc, hmin, hmax⟩ := h4 _ hmem
  simp only at hc hmin hmax
  have hlen := length_codeBits code
  unfold decodeCodeword
  rw [hl']
  simp only
  set pre := (codeBits code).take (lens.min.toNat - 1) with hpre
  set post := (codeBits code).drop (lens.min.toNat - 1) with hpost
  have hsplit : codeBits code = pre ++ post := (List.take_append_drop _ _).symm
  have hprel : pre.length = lens.min.toNat - 1 := by simp [hpre]; omega
  have hpostl : post.length = nbits code - (lens.min.toNat - 1) := by simp [hpost]
  have hpne : post ≠ [] := by intro e; rw [e] at hpostl; simp at hpostl; omega
  obtain ⟨mid, b, hmb⟩ : ∃ mid b, post = mid ++ [b] :=
    ⟨post.dropLast, post.getLast hpne, (List.dropLast_append_getLast hpne).symm⟩
  have hcw : codewordBits sym' code v ++ rest = pre ++ (mid ++ b :: (bitsOf (extraCount sym') v ++ rest)) := by
    simp [codewordBits, hsplit, hmb]
  rw [hcw, ← hprel, takeFrom_append]
  simp only
  have hfold : (mid ++ [b]).foldl shiftIn (pre.foldl shiftIn 1) = code := by
    rw [← List.foldl_append, ← hmb, ← hsplit, foldl_codeBits (by omega)]
  rw [findCode_hit (n := lens.max.toNat) (ssss := sym') ?_ ?_ (by rw [hfold]; exact hr)]
  · simp only [hfold]
    have ht := takeFrom_append (bitsOf (extraCount sym') v) rest 0
    rw [length_bitsOf] at ht
    rw [ht]
    simp only [foldl_shiftIn_bitsOf, Nat.zero_mul, Nat.zero_add, Nat.mod_eq_of_lt hv]
  · have : mid.length + 1 = post.length := by rw [hmb]; simp
    omega
  · intro p hp hpn
    rw [← List.foldl_append]
    apply findsCode_miss hf
    · rw [hsplit, hmb]; exact List.prefix_append_right_inj _ |>.mpr (hp.trans (List.prefix_append _ _))
    · rw [hsplit, hmb]; intro e
      have := congrArg List.length e
      have := hp.length_le
      simp at *; omega

/-- Everything a codeword decode that succeeds can have done. -/
theorem decodeCodeword_ok {table : HuffTable} {bits rest : List Bool} {i : Instr}
    (h : decodeCodeword table bits = .ok (i, rest)) (hw : WfTable table) :
    ∃ lens sym code v, table.lens = some lens ∧ table.map.read code = some sym ∧ 2 ≤ code ∧ code < 2 ^ 17 ∧
      v < 2 ^ extraCount sym ∧ i = codewordOf sym (BitVec.ofNat 17 code) v ∧
      bits = codewordBits sym code v ++ rest ∧ FindsCode table sym code := by
  unfold decodeCodeword at h
  split at h
  · cases h
  rename_i lens hl
  have hl2 : table.lens = some lens := by
    unfold HuffTable.lengths at hl; split at hl
    · cases hl
    · exact hl
  obtain ⟨h1, h2, h3, h4, -, -⟩ := wf_bounds hw hl2
  split at h
  · cases h
  rename_i acc rest1 ht
  split at h
  · cases h
  rename_i code sym rest2 hf
  split at h
  · cases h
  rename_i v rest3 ht2
  simp only [Except.ok.injEq, Prod.mk.injEq] at h
  obtain ⟨rfl, rfl⟩ := h
  obtain ⟨pre, rfl, hprel, rfl⟩ := takeFrom_eq_some ht
  obtain ⟨mid, b, rfl, hm, hno, hcode, hr⟩ := findCode_eq_ok hf
  obtain ⟨ex, rfl, hexl, rfl⟩ := takeFrom_eq_some ht2
  have hmem := Memory.mem_of_read hr
  obtain ⟨hc2, hmin, hmax⟩ := h4 _ hmem
  simp only at hc2 hmin hmax
  have hcb : codeBits code = pre ++ (mid ++ [b]) := by
    rw [hcode, ← List.foldl_append, codeBits_foldl_shiftIn]
  have hlt : ex.foldl shiftIn 0 < 2 ^ extraCount sym := hexl ▸ foldl_shiftIn_lt ex
  refine ⟨lens, sym, code, ex.foldl shiftIn 0, hl2, hr, hc2, ?_, hlt, rfl, ?_, ⟨sym, rfl, hr⟩, ?_⟩
  · calc code < 2 ^ (nbits code + 1) := lt_two_pow_nbits code
      _ ≤ 2 ^ 17 := Nat.pow_le_pow_right (by norm_num) (by omega)
  · rw [codewordBits, hcb, ← hexl, bitsOf_foldl_shiftIn]; simp
  · intro e he hpre
    obtain ⟨hc2', hmin', hmax'⟩ := h4 _ he
    have hread := Memory.read_of_mem hw.1 he
    by_contra hne
    have hneb : codeBits e.1 ≠ codeBits code := fun h => hne (codeBits_inj (by omega) (by omega) h)
    rw [hcb] at hpre hneb
    have hlen := length_codeBits e.1
    obtain ⟨q, hq⟩ := hpre
    have hle : pre.length ≤ (codeBits e.1).length := by omega
    obtain ⟨p, hp⟩ : ∃ p, codeBits e.1 = pre ++ p := by
      have : pre <+: codeBits e.1 := List.prefix_of_prefix_length_le (List.prefix_append _ _) ⟨q, hq⟩ hle
      obtain ⟨p, hp⟩ := this; exact ⟨p, hp.symm⟩
    rw [hp, List.append_assoc, List.append_cancel_left_eq] at hq
    have hpm : p <+: mid := by
      cases q using List.reverseRecOn with
      | nil => simp at hq; rw [hp, hq] at hneb; exact absurd rfl hneb
      | append_singleton q c =>
        rw [← List.append_assoc] at hq
        have := List.append_inj_left' hq rfl
        exact ⟨q, this⟩
    have hpn : p ≠ [] := by
      intro e0; rw [hp, e0] at hlen; simp at hlen; omega
    have := hno p hpm hpn
    rw [← List.foldl_append, ← hp, foldl_codeBits (by omega)] at this
    rw [this] at hread; cases hread

/-! ### DecodeDiff and codewords executed alone -/

/-- The bits not yet consumed. -/
def remaining (s : State) : List Bool := bitsFrom s s.bitpos (s.bitlen - s.bitpos)

theorem remaining_hold {s : State} (h : s.bitpos ≤ s.bitlen) :
    BitsHold s s.bitpos (remaining s) ∧ s.bitlen = s.bitpos + (remaining s).length := by
  constructor
  · exact bitsHold_bitsFrom (by omega)
  · simp [remaining]; omega

theorem hold_prefix {s : State} {bs : List Bool} (h : BitsHold s s.bitpos bs) : ∃ rest, remaining s = bs ++ rest := by
  obtain ⟨h1, h2⟩ := bitsHold_iff.mp h
  refine ⟨bitsFrom s (s.bitpos + bs.length) (s.bitlen - (s.bitpos + bs.length)), ?_⟩
  have hb : BitsHold s s.bitpos
      (bs ++ bitsFrom s (s.bitpos + bs.length) (s.bitlen - (s.bitpos + bs.length))) :=
    bitsHold_append.mpr ⟨h, bitsHold_bitsFrom (by omega)⟩
  rw [(bitsHold_iff.mp hb).2, remaining]
  congr 1; simp; omega

/-- DecodeDiff with a codeword of the key's table at the cursor. -/
theorem decode_at {s : State} {key : Byte} {i : Instr} (h : CodewordAt s key s.bitpos i) :
    decodeDiff key s = .ok (instrDifference i) { s with bitpos := s.bitpos + (instrBits i).length } := by
  obtain ⟨table, ssss, code, v, hs, hw, hc, hwf, hf, hb⟩ := h
  obtain ⟨h16, hlt, hv, -, -, hof⟩ := codeword?_spec hc
  obtain ⟨rest, hr⟩ := hold_prefix hb
  have hle := hb.le
  obtain ⟨r1, r2⟩ := remaining_hold (s := s) (by omega)
  rw [decodeDiff_eq hs r1 r2, hr]
  have := decodeCodeword_hit (sym := ⟨ssss, by omega⟩) (rest := rest) hw hf hv
  rw [hof] at this
  simp only at this
  rw [this]
  simp only
  rw [hr] at r2
  congr 2
  simp [instrBits, hc] at *; omega

/-- A codeword executed alone whose bits are all there. -/
theorem codewordBody_state {s : State} {i : Instr} {ssss code v : Nat}
    (hc : i.codeword? = some (ssss, code, v)) (hb : s.bitpos + (instrBits i).length ≤ s.bitlen) :
    instrBody i s = .ok ()
      { s with bitpos := s.bitpos + (instrBits i).length, diff := BitVec.ofInt 18 (instrDifference i) } := by
  obtain ⟨h16, hlt, hv, -⟩ := codeword?_spec hc
  rw [instrBody_codeword hc, codewordBody]
  have hl : (instrBits i).length = nbits (BitVec.ofNat 17 code).toNat + extraCount ssss := by
    rw [show (BitVec.ofNat 17 code).toNat = code by simp; omega]
    simp [instrBits, hc, codewordBits]
  have hb' := bitsHold_bitsFrom hb
  have := takeBits_hold hb' 0
  rw [length_bitsFrom] at this
  rw [← hl, this]
  simp only [Res.bind_ok, instrDifference, hc, setDiff]

/-- Everything a codeword executed alone can do. -/
theorem codeword_end (ssss : Nat) (code : BitVec 17) (v : Nat) (s : State) :
    ∃ t d, (codewordBody ssss code v s).state = { t with diff := d } ∧ BitsConsumed s t ∧
      ((t.fault = s.fault ∧ t.finfo = s.finfo) ∨ t.fault ∈ decodeFaults ∧ d = s.diff) := by
  have h := decodeEnd_takeBits (nbits code.toNat + extraCount ssss) 0 s
  unfold codewordBody
  cases hd : takeBits (nbits code.toNat + extraCount ssss) 0 s with
  | raised t =>
    rw [hd] at h
    refine ⟨t, t.diff, rfl, h.1, .inr ⟨h.2, by rw [h.1.1]⟩⟩
  | ok d t =>
    rw [hd] at h
    exact ⟨t, _, rfl, h.1, .inl h.2⟩

end Sys2Proof.Machine
end

