-- ==== Sys2Proof/Laws/Extract.lean ====
section
/-! SUPPORT. The extractor: the rounds of its loop as equations, without the bound (41_bitstream_extractor R122). -/

namespace Sys2Proof.Machine

theorem extractLoop_fuel {s : State} {n m i : Nat} (hn : s.blen - i ≤ n) (hm : s.blen - i ≤ m) :
    extractLoop s n i = extractLoop s m i := by
  induction n generalizing m i with
  | zero =>
    cases m with
    | zero => rfl
    | succ m => simp [extractLoop, show s.blen ≤ i by omega]
  | succ n ih =>
    cases m with
    | zero => simp [extractLoop, show s.blen ≤ i by omega]
    | succ m =>
      simp only [extractLoop]
      rw [ih (m := m) (i := i + 1) (by omega) (by omega), ih (m := m) (i := i + 2) (by omega) (by omega)]

theorem extract_unroll {s : State} {i : Nat} (h : i < s.blen) :
    extract s i =
      if byteAt s i ≠ 0xFF#8 then (extract s (i + 1)).emit (byteAt s i)
      else if s.blen ≤ i + 1 then (extract s (i + 1)).emit 0xFF#8
      else if byteAt s (i + 1) = 0x00#8 then (extract s (i + 2)).emit 0xFF#8
      else { out := [], cursor := i, marker := true, ambig := decide (byteAt s (i + 1) = 0xFF#8) } := by
  obtain ⟨n, hn⟩ : ∃ n, s.blen - i = n + 1 := ⟨s.blen - i - 1, by omega⟩
  rw [extract, hn, extractLoop, if_neg (by omega)]
  rw [extractLoop_fuel (n := n) (m := s.blen - (i + 1)) (by omega) (by omega),
    extractLoop_fuel (n := n) (m := s.blen - (i + 2)) (i := i + 2) (by omega) (by omega)]
  rfl

/-- At or beyond the end: nothing (R127). -/
theorem extract_end {s : State} {i : Nat} (h : s.blen ≤ i) :
    extract s i = { out := [], cursor := i, marker := false, ambig := false } := by
  rw [extract, show s.blen - i = 0 by omega]; rfl

/-- An ordinary data byte. -/
theorem extract_data {s : State} {i : Nat} (h : i < s.blen) (hb : byteAt s i ≠ 0xFF#8) :
    extract s i = (extract s (i + 1)).emit (byteAt s i) := by
  rw [extract_unroll h, if_pos hb]

/-- 0xFF as the last byte (R125). -/
theorem extract_last {s : State} {i : Nat} (h : s.blen = i + 1) (hb : byteAt s i = 0xFF#8) :
    extract s i = (extract s (i + 1)).emit 0xFF#8 := by
  rw [extract_unroll (by omega), if_neg (by simp [hb]), if_pos (by omega)]

/-- A stuffed pair (R123). -/
theorem extract_pair {s : State} {i : Nat} (h : i + 1 < s.blen) (hb : byteAt s i = 0xFF#8)
    (h0 : byteAt s (i + 1) = 0x00#8) : extract s i = (extract s (i + 2)).emit 0xFF#8 := by
  rw [extract_unroll (by omega), if_neg (by simp [hb]), if_neg (by omega), if_pos h0]

/-- A marker (R124, R126). -/
theorem extract_marker {s : State} {i : Nat} (h : i + 1 < s.blen) (hb : byteAt s i = 0xFF#8)
    (h0 : byteAt s (i + 1) ≠ 0x00#8) :
    extract s i = { out := [], cursor := i, marker := true, ambig := decide (byteAt s (i + 1) = 0xFF#8) } := by
  rw [extract_unroll (by omega), if_neg (by simp [hb]), if_neg (by omega), if_neg h0]

/-- An induction over the rounds: a property of (index, result) that each round keeps holds of every extraction. -/
theorem extract_induct {s : State} {p : Nat → Extraction → Prop}
    (hend : ∀ i, s.blen ≤ i → p i { out := [], cursor := i, marker := false, ambig := false })
    (hdata : ∀ i b e, i < s.blen → p (i + 1) e → p i (e.emit b))
    (hpair : ∀ i e, i + 1 < s.blen → p (i + 2) e → p i (e.emit 0xFF#8))
    (hmark : ∀ i, i + 1 < s.blen → byteAt s i = 0xFF#8 → byteAt s (i + 1) ≠ 0x00#8 →
      p i { out := [], cursor := i, marker := true, ambig := decide (byteAt s (i + 1) = 0xFF#8) })
    (i : Nat) : p i (extract s i) := by
  induction hn : s.blen - i using Nat.strong_induction_on generalizing i with
  | _ n ih =>
    by_cases h : i < s.blen
    · rw [extract_unroll h]
      split
      · exact hdata _ _ _ h (ih _ (by omega) (i + 1) rfl)
      · split
        · exact hdata _ _ _ h (ih _ (by omega) (i + 1) rfl)
        · split
          · exact hpair _ _ (by omega) (ih _ (by omega) (i + 2) rfl)
          · exact hmark i (by omega) (by simp_all) ‹_›
    · rw [extract_end (by omega)]; exact hend i (by omega)

/-- What BSEXTRACT leaves in BITS. -/
theorem read_storeExtraction (e : Extraction) (s : State) (j : Nat) :
    (storeExtraction e s).bits.read j = if j < e.out.length then e.out[j]? else s.bits.read j := by
  rw [storeExtraction_bits, Memory.read_writeList]; simp

/-- The bits that were extracted are the valid bits of BITS. -/
theorem bitsHold_storeExtraction (e : Extraction) (s : State) : BitsHold (storeExtraction e s) 0 e.out := by
  rw [bitsHold_iff]
  refine ⟨by simp, ?_⟩
  apply List.ext_getElem (by simp)
  intro j h1 h2
  have hb : BitsHold (storeExtraction e s) 0 (bitsFrom (storeExtraction e s) 0 e.out.length) :=
    bitsHold_bitsFrom (by simp)
  have := hb.get (j := j) (by simpa using h1)
  rw [← this, Nat.zero_add, bitAt, read_storeExtraction, if_pos h1, List.getElem?_eq_getElem h1]
  rfl

theorem blenTooLong_iff {s : State} : blenTooLong s = false ↔ BlenFits s := by
  unfold blenTooLong BlenFits
  cases s.params.bytesCap <;> simp

@[simp] theorem length_bits8 (b : Byte) : (bits8 b).length = 8 := by simp [bits8]

end Sys2Proof.Machine
end

