-- ==== Sys2Proof/Laws/PerInstr.lean ====
section
/-! SUPPORT. Statements made constructor by constructor about the instructions as syntax. -/

namespace Sys2Proof.Laws.EncodingShape

/-- The shape of an instruction's encoding: a command is always well formed and is one word; a codeword's extra bits fit
its category, it is well formed exactly when its code has a bit behind the sentinel, and it is a run of bits. -/
def Statement (i : Instr) : Prop :=
  (i.codeword? = none → i.wf = true ∧ ∃ w, encode i = .word w) ∧
  ∀ ssss code v, i.codeword? = some (ssss, code, v) →
    ssss ≤ 16 ∧ v < 2 ^ extraCount ssss ∧ (i.wf = true ↔ 2 ≤ code) ∧ encode i = .bits (codewordBits ssss code v)

/-- A command's statement. -/
theorem of_command {i : Instr} {w : Word} (h : i.codeword? = none) (hw : i.wf = true) (he : encode i = .word w) :
    Statement i :=
  ⟨fun _ => ⟨hw, w, he⟩, fun _ _ _ hc => by rw [h] at hc; cases hc⟩

/-- A codeword's statement. -/
theorem of_codeword {i : Instr} (h : i.codeword?.isSome = true) : Statement i := by
  refine ⟨fun hn => ?_, fun ssss code v hc => ?_⟩
  · rw [hn] at h; cases h
  · obtain ⟨h1, -, h2, h3, h4, -⟩ := codeword?_spec hc
    exact ⟨h1, h2, h3, h4⟩

theorem htbuild (key : Byte) : Statement (.htbuild key) := of_command rfl rfl rfl

theorem bsextract : Statement .bsextract := of_command rfl rfl rfl

theorem eddiff (key : Byte) : Statement (.eddiff key) := of_command rfl rfl rfl

theorem prinit : Statement .prinit := of_command rfl rfl rfl

theorem prsample : Statement .prsample := of_command rfl rfl rfl

theorem prscan : Statement .prscan := of_command rfl rfl rfl

theorem scan : Statement .scan := of_command rfl rfl rfl

theorem diffSsss0 (code : BitVec 17) : Statement (.diffSsss0 code) := of_codeword rfl

theorem diffSsss1 (code : BitVec 17) (extra : BitVec 1) : Statement (.diffSsss1 code extra) :=
  of_codeword rfl

theorem diffSsss2 (code : BitVec 17) (extra : BitVec 2) : Statement (.diffSsss2 code extra) :=
  of_codeword rfl

theorem diffSsss3 (code : BitVec 17) (extra : BitVec 3) : Statement (.diffSsss3 code extra) :=
  of_codeword rfl

theorem diffSsss4 (code : BitVec 17) (extra : BitVec 4) : Statement (.diffSsss4 code extra) :=
  of_codeword rfl

theorem diffSsss5 (code : BitVec 17) (extra : BitVec 5) : Statement (.diffSsss5 code extra) :=
  of_codeword rfl

theorem diffSsss6 (code : BitVec 17) (extra : BitVec 6) : Statement (.diffSsss6 code extra) :=
  of_codeword rfl

theorem diffSsss7 (code : BitVec 17) (extra : BitVec 7) : Statement (.diffSsss7 code extra) :=
  of_codeword rfl

theorem diffSsss8 (code : BitVec 17) (extra : BitVec 8) : Statement (.diffSsss8 code extra) :=
  of_codeword rfl

theorem diffSsss9 (code : BitVec 17) (extra : BitVec 9) : Statement (.diffSsss9 code extra) :=
  of_codeword rfl

theorem diffSsss10 (code : BitVec 17) (extra : BitVec 10) : Statement (.diffSsss10 code extra) :=
  of_codeword rfl

theorem diffSsss11 (code : BitVec 17) (extra : BitVec 11) : Statement (.diffSsss11 code extra) :=
  of_codeword rfl

theorem diffSsss12 (code : BitVec 17) (extra : BitVec 12) : Statement (.diffSsss12 code extra) :=
  of_codeword rfl

theorem diffSsss13 (code : BitVec 17) (extra : BitVec 13) : Statement (.diffSsss13 code extra) :=
  of_codeword rfl

theorem diffSsss14 (code : BitVec 17) (extra : BitVec 14) : Statement (.diffSsss14 code extra) :=
  of_codeword rfl

theorem diffSsss15 (code : BitVec 17) (extra : BitVec 15) : Statement (.diffSsss15 code extra) :=
  of_codeword rfl

theorem diffSsss16 (code : BitVec 17) : Statement (.diffSsss16 code) := of_codeword rfl

end Sys2Proof.Laws.EncodingShape
end

