-- ==== Sys2Proof/Laws/Recon.lean ====
section
/-! SUPPORT. The reconstructor: positions and neighbour indices, everything one Step can do, and the loop. -/

namespace Sys2Proof.Machine

/-! ### Positions -/

theorem frmNc_pos {s : State} (h : s.slen < totalSamples s) : 0 < s.frmNc.toNat := by
  rcases Nat.eq_zero_or_pos s.frmNc.toNat with h0 | h0
  · simp [totalSamples, h0] at h
  · exact h0

theorem frmW_pos {s : State} (h : s.slen < totalSamples s) : 0 < s.frmW.toNat := by
  rcases Nat.eq_zero_or_pos s.frmW.toNat with h0 | h0
  · simp [totalSamples, h0] at h
  · exact h0

/-- SLEN from the position: the index map of 10_state R45. -/
theorem slen_eq (s : State) :
    s.slen = (row s * s.frmW.toNat + column s) * s.frmNc.toNat + component s := by
  have h1 := Nat.div_add_mod s.slen s.frmNc.toNat
  have h2 := Nat.div_add_mod (s.slen / s.frmNc.toNat) s.frmW.toNat
  have e1 : row s = s.slen / s.frmNc.toNat / s.frmW.toNat := rfl
  have e2 : column s = s.slen / s.frmNc.toNat % s.frmW.toNat := rfl
  have e3 : component s = s.slen % s.frmNc.toNat := rfl
  rw [e1, e2, e3, Nat.mul_comm (s.slen / _ / _), h2, Nat.mul_comm (s.slen / _), h1]

theorem nc_le_slen {s : State} (h : 0 < column s) : s.frmNc.toNat ≤ s.slen := by
  rw [slen_eq s]
  calc s.frmNc.toNat = 1 * s.frmNc.toNat := (Nat.one_mul _).symm
    _ ≤ (row s * s.frmW.toNat + column s) * s.frmNc.toNat := Nat.mul_le_mul_right _ (by omega)
    _ ≤ _ := Nat.le_add_right _ _

theorem lineOffset_le_slen {s : State} (h : 0 < row s) : s.frmW.toNat * s.frmNc.toNat ≤ s.slen := by
  rw [slen_eq s]
  calc s.frmW.toNat * s.frmNc.toNat ≤ (row s * s.frmW.toNat + column s) * s.frmNc.toNat :=
        Nat.mul_le_mul_right _ ((Nat.le_mul_of_pos_left _ h).trans (Nat.le_add_right _ _))
    _ ≤ _ := Nat.le_add_right _ _

theorem bothOffsets_le_slen {s : State} (hc : 0 < column s) (hr : 0 < row s) :
    s.frmW.toNat * s.frmNc.toNat + s.frmNc.toNat ≤ s.slen := by
  rw [slen_eq s]
  calc s.frmW.toNat * s.frmNc.toNat + s.frmNc.toNat = (s.frmW.toNat + 1) * s.frmNc.toNat := by ring
    _ ≤ (row s * s.frmW.toNat + column s) * s.frmNc.toNat := by
        apply Nat.mul_le_mul_right
        have := Nat.le_mul_of_pos_left s.frmW.toNat hr
        omega
    _ ≤ _ := Nat.le_add_right _ _

theorem neighbour_of_le {s : State} {offset : Nat} (h : offset ≤ s.slen) :
    neighbour s offset = some ((sampleAt s (s.slen - offset)).toNat : Int) := by
  simp [neighbour, Nat.not_lt.mpr h]

theorem left_of_column {s : State} (h : 0 < column s) :
    leftNeighbour s = some ((sampleAt s (s.slen - s.frmNc.toNat)).toNat : Int) :=
  neighbour_of_le (nc_le_slen h)

theorem above_of_row {s : State} (h : 0 < row s) :
    aboveNeighbour s = some ((sampleAt s (s.slen - s.frmW.toNat * s.frmNc.toNat)).toNat : Int) :=
  neighbour_of_le (lineOffset_le_slen h)

theorem aboveLeft_of_interior {s : State} (hc : 0 < column s) (hr : 0 < row s) :
    aboveLeftNeighbour s =
      some ((sampleAt s (s.slen - (s.frmW.toNat * s.frmNc.toNat + s.frmNc.toNat))).toNat : Int) :=
  neighbour_of_le (bothOffsets_le_slen hc hr)

/-- Predict, case by case, with every neighbour read in range (43_predictive_reconstructor R168 to R170). -/
theorem predict_cases (s : State) :
    (column s = 0 ∧ row s = 0 ∧ predict s = some (originConstant s)) ∨
    (column s = 0 ∧ 0 < row s ∧ predict s = aboveNeighbour s) ∨
    (0 < column s ∧ row s = 0 ∧ predict s = leftNeighbour s) ∨
    (0 < column s ∧ 0 < row s ∧
      predict s = some (interiorPrediction s.scnSs (sampleAt s (s.slen - s.frmNc.toNat)).toNat
        (sampleAt s (s.slen - s.frmW.toNat * s.frmNc.toNat)).toNat
        (sampleAt s (s.slen - (s.frmW.toNat * s.frmNc.toNat + s.frmNc.toNat))).toNat (originConstant s))) := by
  rcases Nat.eq_zero_or_pos (column s) with hc | hc <;> rcases Nat.eq_zero_or_pos (row s) with hr | hr
  · exact .inl ⟨hc, hr, by simp [predict, hc, hr]⟩
  · exact .inr (.inl ⟨hc, hr, by simp [predict, hc, hr.ne']⟩)
  · exact .inr (.inr (.inl ⟨hc, hr, by simp [predict, hc.ne', hr]⟩))
  · refine .inr (.inr (.inr ⟨hc, hr, ?_⟩))
    simp [predict, hc.ne', hr.ne', left_of_column hc, above_of_row hr, aboveLeft_of_interior hc hr]

theorem predict_isSome (s : State) : ∃ pred, predict s = some pred := by
  rcases predict_cases s with ⟨_, _, h⟩ | ⟨_, hr, h⟩ | ⟨hc, _, h⟩ | ⟨_, _, h⟩
  · exact ⟨_, h⟩
  · exact ⟨_, h.trans (above_of_row hr)⟩
  · exact ⟨_, h.trans (left_of_column hc)⟩
  · exact ⟨_, h⟩

/-! ### One Step -/

theorem any_lt_iff (cap : Option Nat) (n : Nat) : cap.any (· < n) = true ↔ ∃ c, cap = some c ∧ c < n := by
  cases cap <;> simp

/-- CheckScan passes exactly on a legal scan (43_predictive_reconstructor R162). -/
theorem checkScan_eq_none {s : State} : checkScan s = none ↔ ScanLegal s := by
  unfold checkScan ScanLegal
  have hcap : s.params.sampCap.any (· < totalSamples s) = true ↔
      ¬ ∀ cap, s.params.sampCap = some cap → totalSamples s ≤ cap := by
    rw [any_lt_iff]; simp
  by_cases h1 : s.frmP.toNat < 2 ∨ 16 < s.frmP.toNat
  · simp only [h1, if_true, reduceCtorEq, false_iff]; omega
  by_cases h2 : s.frmP.toNat - 1 < s.scnPt.toNat
  · simp only [h1, h2, if_true, if_false, reduceCtorEq, false_iff]; omega
  by_cases h3 : s.params.ncMax < s.frmNc.toNat
  · simp only [h1, h2, h3, if_true, if_false, reduceCtorEq, false_iff]; omega
  by_cases h4 : s.params.sampCap.any (· < totalSamples s) = true
  · simp only [h1, h2, h3, h4, if_true, if_false, reduceCtorEq, false_iff]
    rintro ⟨-, -, -, -, h, -⟩; exact hcap.mp h4 h
  by_cases h5 : totalSamples s < s.slen
  · simp only [h1, h2, h3, h4, h5, if_true, if_false, reduceCtorEq, false_iff]
    rintro ⟨-, -, -, -, -, h⟩; omega
  · simp only [h1, h2, h3, h4, h5, if_false, Bool.false_eq_true, true_iff]
    exact ⟨by omega, by omega, by omega, by omega, not_not.mp fun h => h4 (hcap.mpr h), by omega⟩

theorem checkScan_fault {s : State} {f : FaultCode} {n : Nat} (h : checkScan s = some (f, n)) :
    f = .badParam ∨ f = .capacity := by
  unfold checkScan at h
  split at h
  · simp_all
  · split at h
    · simp_all
    · split at h
      · simp_all
      · split at h
        · simp_all
        · split at h <;> simp_all

/-- Everything a Step can do (43_predictive_reconstructor R165), said once. -/
theorem reconstructStep_cases (s : State) :
    (s.slen = totalSamples s ∧ reconstructStep s = .ok false s) ∨
    (s.slen ≠ totalSamples s ∧ ∃ f n, checkScan s = some (f, n) ∧ reconstructStep s = Res.raise f n s) ∨
    (s.slen < totalSamples s ∧ ScanLegal s ∧ s.scnNs.toNat ≤ component s ∧
      reconstructStep s = Res.raise .badParam 7 s) ∨
    (s.slen < totalSamples s ∧ ScanLegal s ∧ component s < s.scnNs.toNat ∧
      ∃ t, decodeDiff (tableKey s (component s)) s = .raised t ∧ reconstructStep s = .raised t) ∨
    (s.slen < totalSamples s ∧ ScanLegal s ∧ component s < s.scnNs.toNat ∧
      ∃ pred d t, predict s = some pred ∧ decodeDiff (tableKey s (component s)) s = .ok d t ∧
        reconstructStep s = .ok true (appendSample (reconstruct s.frmP.toNat pred d) t)) := by
  by_cases h1 : s.slen = totalSamples s
  · exact .inl ⟨h1, by simp [reconstructStep, h1]⟩
  cases h2 : checkScan s with
  | some p => exact .inr (.inl ⟨h1, p.1, p.2, rfl, by simp [reconstructStep, h1, h2]⟩)
  | none =>
    have hl := checkScan_eq_none.mp h2
    have hlt : s.slen < totalSamples s := lt_of_le_of_ne hl.2.2.2.2.2 h1
    obtain ⟨pred, hp⟩ := predict_isSome s
    by_cases h3 : s.scnNs.toNat ≤ component s
    · exact .inr (.inr (.inl ⟨hlt, hl, h3, by simp [reconstructStep, h1, h2, hp, h3]⟩))
    · cases h4 : decodeDiff (tableKey s (component s)) s with
      | raised t =>
        exact .inr (.inr (.inr (.inl ⟨hlt, hl, by omega, t, rfl, by simp [reconstructStep, h1, h2, hp, h3, h4]⟩)))
      | ok d t =>
        exact .inr (.inr (.inr (.inr
          ⟨hlt, hl, by omega, pred, d, t, hp, rfl, by simp [reconstructStep, h1, h2, hp, h3, h4]⟩)))

/-- A Step that appended: SAMP, SLEN and BITPOS moved on, nothing else. -/
theorem step_appended {s t : State} (h : reconstructStep s = .ok true t) :
    s.slen < totalSamples s ∧ ScanLegal s ∧ component s < s.scnNs.toNat ∧
    ∃ pred d u, predict s = some pred ∧ decodeDiff (tableKey s (component s)) s = .ok d u ∧
      t = appendSample (reconstruct s.frmP.toNat pred d) u ∧ BitsConsumed s u ∧ u.fault = s.fault ∧
      u.finfo = s.finfo := by
  rcases reconstructStep_cases s with ⟨_, e⟩ | ⟨_, f, n, _, e⟩ | ⟨_, _, _, e⟩ | ⟨_, _, _, u, _, e⟩ |
    ⟨h1, h2, h3, pred, d, u, hp, hd, e⟩
  · simp [e] at h
  · simp [e, Res.raise] at h
  · simp [e, Res.raise] at h
  · simp [e] at h
  · have he := decodeEnd_decodeDiff (tableKey s (component s)) s
    rw [hd] at he
    rw [e] at h
    simp only [Res.ok.injEq, true_and] at h
    exact ⟨h1, h2, h3, pred, d, u, hp, hd, h.symm, he.1, he.2.1, he.2.2⟩

/-- The faults of a Step (43_predictive_reconstructor R165): all but NEIGHBOR, ILLEGAL_CMD. -/
def stepFaults : List (BitVec 4) := [1, 2, 4, 5, 6, 7]

/-- A Step that raised: only BITPOS, FAULT and FINFO moved. -/
theorem step_raised {s t : State} (h : reconstructStep s = .raised t) :
    BitsConsumed s t ∧ t.fault ∈ stepFaults ∧ s.slen ≠ totalSamples s := by
  rcases reconstructStep_cases s with ⟨_, e⟩ | ⟨h1, f, n, hc, e⟩ | ⟨h1, _, _, e⟩ | ⟨h1, _, _, u, hd, e⟩ |
    ⟨_, _, _, _, _, _, _, _, e⟩
  · simp [e] at h
  · rw [e] at h
    simp only [Res.raise, Res.raised.injEq] at h
    subst h
    refine ⟨bitsConsumed_raise f n s, ?_, h1⟩
    rcases checkScan_fault hc with rfl | rfl <;> simp [stepFaults, FaultCode.code]
  · rw [e] at h
    simp only [Res.raise, Res.raised.injEq] at h
    subst h
    exact ⟨bitsConsumed_raise _ _ s, by simp [stepFaults, FaultCode.code], h1.ne⟩
  · have he := decodeEnd_decodeDiff (tableKey s (component s)) s
    rw [hd] at he
    rw [e] at h
    simp only [Res.raised.injEq] at h
    subst h
    refine ⟨he.1, ?_, h1.ne⟩
    have := he.2
    simp only [decodeFaults, stepFaults, List.mem_cons, List.not_mem_nil] at this ⊢
    tauto
  · simp [e] at h

theorem step_complete {s t : State} (h : reconstructStep s = .ok false t) : t = s ∧ s.slen = totalSamples s := by
  rcases reconstructStep_cases s with ⟨h1, e⟩ | ⟨_, f, n, _, e⟩ | ⟨_, _, _, e⟩ | ⟨_, _, _, u, _, e⟩ |
    ⟨_, _, _, _, _, _, _, _, e⟩ <;> simp_all [Res.raise]

/-! ### The loop -/

/-- The frame's registers and the total stay as they were along a scan. -/
theorem totalSamples_appended {s t : State} (h : reconstructStep s = .ok true t) :
    totalSamples t = totalSamples s ∧ t.slen = s.slen + 1 := by
  obtain ⟨_, _, _, pred, d, u, _, _, rfl, ⟨e, _, _⟩, _, _⟩ := step_appended h
  have hs : u.slen = s.slen := by rw [e]
  refine ⟨?_, by simp [hs]⟩
  simp only [totalSamples, appendSample_frmW, appendSample_frmH, appendSample_frmNc]
  rw [e]

/-- An induction over the loop: a relation that every round extends holds of the whole loop. -/
theorem scanLoop_ends {p : State → State → Prop} (hrefl : ∀ s, p s s)
    (happ : ∀ s t u, reconstructStep s = .ok true t → p t u → p s u)
    (hraise : ∀ s t, reconstructStep s = .raised t → p s t) (fuel : Nat) (s : State) :
    p s (scanLoop fuel s).state := by
  induction fuel generalizing s with
  | zero => exact hrefl s
  | succ n ih =>
    cases h : reconstructStep s with
    | raised t => simpa [scanLoop, h] using hraise s t h
    | ok b t =>
      cases b with
      | true => simpa [scanLoop, h] using happ s t _ h (ih t)
      | false =>
        obtain ⟨rfl, -⟩ := step_complete h
        simpa [scanLoop, h] using hrefl t

/-- More rounds than samples owed change nothing: the bound is no truncation. -/
theorem scanLoop_fuel {n m : Nat} {s : State} (hn : totalSamples s - s.slen < n) (hm : totalSamples s - s.slen < m) :
    scanLoop n s = scanLoop m s := by
  induction n generalizing m s with
  | zero => omega
  | succ n ih =>
    obtain ⟨m, rfl⟩ : ∃ k, m = k + 1 := ⟨m - 1, by omega⟩
    cases h : reconstructStep s with
    | raised t => simp [scanLoop, h]
    | ok b t =>
      cases b with
      | false => simp [scanLoop, h]
      | true =>
        have h1 := (step_appended h).1
        obtain ⟨h2, h3⟩ := totalSamples_appended h
        simp only [scanLoop, h, Res.bind_ok, if_true]
        exact ih (by omega) (by omega)

/-- The loop, unrolled once (43_predictive_reconstructor R178). -/
theorem prscanBody_unroll (s : State) :
    prscanBody s = (reconstructStep s).bind fun appended t => if appended then prscanBody t else .ok () t := by
  show scanLoop (totalSamples s - s.slen + 1) s = _
  rw [scanLoop]
  cases h : reconstructStep s with
  | raised t => rfl
  | ok b t =>
    cases b with
    | false => rfl
    | true =>
      have h1 := (step_appended h).1
      obtain ⟨h2, h3⟩ := totalSamples_appended h
      simp only [Res.bind_ok, if_true, prscanBody]
      exact scanLoop_fuel (by omega) (by omega)

/-! ### Runs of Steps -/

/-- Everything a run of Steps can do, whether or not it ends in a fault (43_predictive_reconstructor R175, R178). -/
structure Scanned (s t : State) : Prop where
  eq : t = { s with bitpos := t.bitpos, slen := t.slen, samp := t.samp, fault := t.fault, finfo := t.finfo }
  lo : s.bitpos ≤ t.bitpos
  hi : t.bitpos ≤ max s.bitpos s.bitlen
  slen_le : s.slen ≤ t.slen
  bound : t.slen = s.slen ∨ t.slen ≤ totalSamples s
  legal : t.slen ≠ s.slen → ScanLegal s
  old : ∀ n < s.slen, t.samp.read n = s.samp.read n
  new : ∀ n, s.slen ≤ n → n < t.slen → ∃ v, t.samp.read n = some v ∧ v.toNat < 2 ^ s.frmP.toNat
  beyond : ∀ n, t.slen ≤ n → t.samp.read n = s.samp.read n
  wf : Memory.wf s.samp = true → Memory.wf t.samp = true
  fault : (t.fault = s.fault ∧ t.finfo = s.finfo) ∨ t.fault ∈ stepFaults

theorem Scanned.refl (s : State) : Scanned s s :=
  ⟨rfl, le_refl _, le_max_left _ _, le_refl _, .inl rfl, fun h => absurd rfl h, fun _ _ => rfl,
    fun n h1 h2 => absurd h2 (by omega), fun _ _ => rfl, id, .inl ⟨rfl, rfl⟩⟩

/-- A reconstructed value is below 2^P (43_predictive_reconstructor R174). -/
theorem reconstruct_lt (p : Nat) (pred d : Int) : (reconstruct p pred d).toNat < 2 ^ p := by
  unfold reconstruct
  have hp : (0:Int) < ((2 ^ p : Nat) : Int) := by exact_mod_cast Nat.two_pow_pos p
  have h1 := Int.emod_nonneg (pred + d) hp.ne'
  have h2 := Int.emod_lt_of_pos (pred + d) hp
  rw [BitVec.toNat_ofNat]
  exact (Nat.mod_le _ _).trans_lt (by omega)

theorem scanned_raised {s t : State} (h : reconstructStep s = .raised t) : Scanned s t := by
  obtain ⟨⟨e, h1, h2⟩, h3, h4⟩ := step_raised h
  have hs : t.slen = s.slen := by rw [e]
  have hm : t.samp = s.samp := by rw [e]
  refine ⟨?_, h1, h2, hs.ge, .inl hs, fun h => absurd hs h, fun _ _ => by rw [hm],
    fun n a b => absurd b (by omega), fun _ _ => by rw [hm], fun h => by rw [hm]; exact h, .inr h3⟩
  rw [e]

theorem scanned_append {s t u : State} (h : reconstructStep s = .ok true t) (h2 : Scanned t u) : Scanned s u := by
  obtain ⟨hlt, hl, hc, pred, d, w, hp, hd, rfl, ⟨e, a1, a2⟩, f1, f2⟩ := step_appended h
  set x := reconstruct s.frmP.toNat pred d with hx
  have hw : w.slen = s.slen := by rw [e]
  have hbl : (appendSample x w).bitlen = s.bitlen := by rw [e]; rfl
  have hbp : (appendSample x w).bitpos = w.bitpos := rfl
  have hts := (totalSamples_appended h)
  have hsamp : (appendSample x w).samp = s.samp.write s.slen x := by rw [e]; rfl
  have hfp : (appendSample x w).frmP = s.frmP := by rw [e]; rfl
  have heq : appendSample x w =
      { s with bitpos := w.bitpos, slen := s.slen + 1, samp := s.samp.write s.slen x } := by
    rw [appendSample, hw]; rw [e, f1, f2]
  have hle := h2.slen_le
  have hlo := h2.lo
  have hhi := h2.hi
  rw [hbp, hbl] at hhi
  rw [hbp] at hlo
  rw [hts.2] at hle
  refine ⟨?_, by omega, by omega, by omega, ?_, fun _ => hl, ?_, ?_, ?_, ?_, ?_⟩
  · rw [h2.eq, heq]
  · rcases h2.bound with h3 | h3
    · right; rw [h3, hts.2]; omega
    · right; rw [← hts.1]; exact h3
  · intro n hn
    rw [h2.old n (by omega), hsamp, Memory.read_write_ne _ _ (by omega)]
  · intro n h3 h4
    by_cases h5 : n = s.slen
    · subst h5
      refine ⟨x, ?_, reconstruct_lt _ _ _⟩
      rw [h2.old _ (by omega), hsamp, Memory.read_write_same]
    · rw [← hfp]; exact h2.new n (by omega) h4
  · intro n hn
    rw [h2.beyond n hn, hsamp, Memory.read_write_ne _ _ (by omega)]
  · intro hwf; apply h2.wf; rw [hsamp]; exact Memory.write_wf hwf _ _
  · rcases h2.fault with ⟨g1, g2⟩ | g
    · left; rw [g1, g2]; exact ⟨f1, f2⟩
    · exact .inr g

theorem scanned_prscan (s : State) : Scanned s (prscanBody s).state :=
  scanLoop_ends (p := Scanned) Scanned.refl (fun _ _ _ h1 h2 => scanned_append h1 h2)
    (fun _ _ h => scanned_raised h) _ s

theorem scanned_prsample (s : State) : Scanned s (prsampleBody s).state := by
  unfold prsampleBody
  cases h : reconstructStep s with
  | raised t => exact scanned_raised h
  | ok b t =>
    cases b with
    | true => exact scanned_append h (.refl t)
    | false => obtain ⟨rfl, -⟩ := step_complete h; exact .refl t

end Sys2Proof.Machine
end

