-- ==== Sys2Proof/Laws/Step.lean ====
section
/-! SUPPORT. The step, said once: which host operation it carries out, and what a CMD write answers. -/

namespace Sys2Proof.Machine

/-- With nothing pending a step changes nothing. -/
theorem step_idle {s : State} (h : s.host = []) : step s = .next s := by
  unfold step; rw [h]

/-- A step carries out the oldest pending operation. -/
theorem step_op {s : State} {op : HostOp} {rest : List HostOp} (h : s.host = op :: rest) :
    step s = hostStep op { s with host := rest } := by
  unfold step; rw [h]

/-- Behind the fault gate a CMD write changes nothing. -/
theorem issue_blocked {s : State} (w : Word) (h : s.fault ≠ 0) : issue w s = .next s := if_neg h

/-- A CMD write runs the command its word encodes. -/
theorem issue_ok {s : State} {w : Word} {i : Instr} (h : s.fault = 0) (hd : decode w = .ok i) :
    issue w s = exec i s := by
  unfold issue; rw [if_pos h, hd]

/-- A word that is no command raises ILLEGAL_CMD with the word in FINFO. -/
theorem issue_illegal {s : State} {w : Word} {e : IllegalWord} (h : s.fault = 0) (hd : decode w = .error e) :
    issue w s = .next { s with fault := 8, finfo := w.setWidth 40 } := by
  unfold issue
  rw [if_pos h, hd]
  have hw : finfoOf w.toNat = w.setWidth 40 := by
    rw [finfoOf_of_lt (by have := w.isLt; omega)]
    exact BitVec.eq_of_toNat_eq (by simp)
  show Host.Outcome.next (raise .illegalCmd w.toNat s) = _
  rw [raise, hw]
  rfl

/-- Every instruction ends in a next state (70_reset R244). -/
theorem exec_next (i : Instr) (s : State) :
    exec i s = .next (if s.fault = 0 then (instrBody i s).state else s) := by
  rw [exec_eq_gated]
  by_cases h : s.fault = 0
  · rw [gated_run _ h, if_pos h]
  · rw [gated_blocked _ h, if_neg h]

/-! ### Host operations -/

@[simp] theorem hostStep_cmd (w : Word) (s : State) : hostStep (.cmd w) s = issue w s := rfl

@[simp] theorem hostStep_reset (s : State) : hostStep .reset s = .next (applyReset s) := rfl

/-- Every other operation only stores. -/
theorem hostStep_store {op : HostOp} (h1 : ∀ w, op ≠ .cmd w) (h2 : op ≠ .reset) (s : State) :
    hostStep op s = .next (hostStore op s) := by
  cases op <;> first | rfl | exact absurd rfl (h1 _) | exact absurd rfl h2

theorem belowCap_iff {cap : Option Nat} {i : Nat} : belowCap cap i = true ↔ ∀ c, cap = some c → i < c := by
  unfold belowCap; cases cap <;> simp

theorem isLength_iff {len : Nat} : isLength len = true ↔ 1 ≤ len ∧ len ≤ 16 := by
  simp [isLength]

theorem hostStore_scnTsel (c : Nat) (v : Byte) (s : State) : hostStore (.writeScnTsel c v) s =
    if c < s.params.ncMax then { s with scnTsel := s.scnTsel.setIfInBounds c v } else s := rfl

theorem hostStore_cltCnt (len : Nat) (v : Byte) (s : State) : hostStore (.writeCltCnt len v) s =
    if isLength len then { s with cltCnt := s.cltCnt.setIfInBounds (len - 1) v } else s := rfl

theorem hostStore_cltSym (len i : Nat) (v : Byte) (s : State) : hostStore (.writeCltSym len i v) s =
    if isLength len && decide (i < 16) then { s with cltSym := s.cltSym.write (symIndex len i) v } else s := rfl

theorem hostStore_bytes (i : Nat) (v : Byte) (s : State) : hostStore (.writeBytes i v) s =
    if belowCap s.params.bytesCap i then { s with bytes := s.bytes.write i v } else s := rfl

/-- A HostWrite writes no field that only commands and reset write. -/
theorem hostStore_frame (op : HostOp) (s : State) : hostStore op s = { hostStore op s with
    params := s.params, session := s.session, host := s.host, bitlen := s.bitlen, bitpos := s.bitpos
    slen := s.slen, marker := s.marker, ambig := s.ambig, fault := s.fault, finfo := s.finfo
    diff := s.diff, ht := s.ht, bits := s.bits, samp := s.samp } := by
  cases op with
  | writeScnTsel c v => rw [hostStore_scnTsel]; split <;> rfl
  | writeCltCnt len v => rw [hostStore_cltCnt]; split <;> rfl
  | writeCltSym len i v => rw [hostStore_cltSym]; split <;> rfl
  | writeBytes i v => rw [hostStore_bytes]; split <;> rfl
  | _ => rfl

end Sys2Proof.Machine
end

