-- ==== Sys2Proof/Machine/HostSide.lean ====
section
/-! DEFINITION. The host's side, as lists of host operations: the pseudo-instructions of 30_encoding R94, and the
registers a host fills from the DHT, SOF3 and SOS segments (R75 to R79). The CORE reads none of these bytes
(00_scope R5); the operations are run by `step`. -/

namespace Sys2Proof.Machine

/-! ### Pseudo-instructions (30_encoding R94) -/

/-- Pair each element of a list with its index, from `i` on. -/
def indexed {α : Type} : Nat → List α → List (Nat × α)
  | _, [] => []
  | i, a :: rest => (i, a) :: indexed (i + 1) rest

/-- `LDCLT L: s0, s1, ...`. DESIGN CHOICE (log 12): with 256 symbols or more CLT_CNT[L] gets the low 8 bits of their
number. -/
def ldclt (len : Nat) (syms : List Byte) : List HostOp :=
  .writeCltCnt len (BitVec.ofNat 8 syms.length) :: (indexed 0 syms).map fun e => .writeCltSym len e.1 e.2

/-- `CLRCLT`. -/
def clrclt : List HostOp := (List.range' 1 16).map fun len => .writeCltCnt len 0

/-- `LDBYTES b0 b1 ...`. -/
def ldbytes (bs : List Byte) : List HostOp :=
  ((indexed 0 bs).map fun e => .writeBytes e.1 e.2) ++ [.writeBlen bs.length]

/-- `FRAME P, H, W, Nc`. -/
def frame (p : BitVec 8) (h w : BitVec 16) (nc : BitVec 8) : List HostOp :=
  [.writeFrmP p, .writeFrmH h, .writeFrmW w, .writeFrmNc nc]

/-- `SCANHDR Ns, SS, Pt`. -/
def scanhdr (ns ss : BitVec 8) (pt : BitVec 4) : List HostOp :=
  [.writeScnNs ns, .writeScnSs ss, .writeScnPt pt]

/-- `WRTSEL c, k`. -/
def wrtsel (c : Nat) (key : Byte) : List HostOp := [.writeScnTsel c key]

/-- The write of a command's word to CMD; none for a codeword, which is no command. -/
def command (i : Instr) : List HostOp :=
  match encode i with
  | .word w => [.cmd w]
  | .bits _ => []

/-! ### Segments (30_encoding R76 to R79) -/

/-- A 2-byte field, big-endian (30_encoding R75). -/
def bigEndian (b0 b1 : Byte) : BitVec 16 := b0 ++ b1

/-- Cut the symbols of a DHT segment by the counts of the lengths from `len` on: CLT writes for each. -/
def dhtTables : Nat → List Byte → List Byte → List HostOp
  | _, [], _ => []
  | len, n :: counts, syms =>
    .writeCltCnt len n :: ((indexed 0 (syms.take n.toNat)).map fun e => .writeCltSym len e.1 e.2)
      ++ dhtTables (len + 1) counts (syms.drop n.toNat)

/-- `DHT`: the host's work for a DHT segment, then HTBUILD with the segment's first byte (30_encoding R76, R77).
`none` when the segment is shorter than its counts say. -/
def dht (segment : List Byte) : Option (List HostOp) :=
  match segment with
  | [] => none
  | tcTh :: rest =>
    if 16 ≤ rest.length ∧ ((rest.take 16).map BitVec.toNat).sum ≤ rest.length - 16 then
      some (dhtTables 1 (rest.take 16) (rest.drop 16) ++ command (.htbuild tcTh))
    else none

/-- The registers a SOF3 segment fills: height comes before width (30_encoding R78). DESIGN CHOICE (log 12): a segment
without all of its 3 x Nc component bytes gives no list, though none of them goes to the CORE. -/
def sof3 (segment : List Byte) : Option (List HostOp) :=
  match segment with
  | p :: h0 :: h1 :: w0 :: w1 :: nc :: components =>
    if 3 * nc.toNat ≤ components.length then some (frame p (bigEndian h0 h1) (bigEndian w0 w1) nc) else none
  | _ => none

/-- The entries of `n` scan components, in scan order, each its component selector and its packed table selectors, and
the bytes after them (30_encoding R79). -/
def scanComponents : Nat → List Byte → Option (List (Byte × Byte) × List Byte)
  | 0, rest => some ([], rest)
  | n + 1, component :: packed :: rest => (scanComponents n rest).map fun r => ((component, packed) :: r.1, r.2)
  | _ + 1, _ => none

/-- The number of bytes of a SOS segment with `ns` components (30_encoding R79). -/
def sosLength (ns : Byte) : Nat := 4 + 2 * ns.toNat

/-- The registers a SOS segment fills (30_encoding R79), the segment's first byte being BYTES[start]: BCUR points at the
byte after its last one. SCN_PT is the low nibble (92 D38). The host's own work is two arguments, because no rule gives
it (log 12): `keyOf` maps a component's packed table selectors to a table key (91 N7), and `place` orders the entries,
giving for scan component j with its component selector the index c of SCN_TSEL[c] (10_state R27; 91 N9). -/
def sos (keyOf : Byte → Byte) (place : Nat → Byte → Nat) (start : Nat) (segment : List Byte) : Option (List HostOp) :=
  match segment with
  | [] => none
  | ns :: rest =>
    match scanComponents ns.toNat rest with
    | some (components, ss :: _ :: packed :: _) =>
      some (scanhdr ns ss (packed.extractLsb' 0 4)
        ++ ((indexed 0 components).map fun e => .writeScnTsel (place e.1 e.2.1) (keyOf e.2.2))
        ++ [.writeBcur (start + sosLength ns)])
    | _ => none

end Sys2Proof.Machine
end

