-- ==== Sys2Proof/Tests/Slice0.lean ====
section
/-! SUPPORT. Tests, with expected results from 95_test_vectors.md and the rules' own examples; and for every statement
with hypotheses a concrete state and operands that meet them. -/

namespace Sys2Proof.Tests

set_option Elab.async false

open Sys2Proof Sys2Proof.Machine

/-! ### Helpers -/

/-- What one observes of the state an outcome leads to. -/
def after {α : Type} (o : Host.Outcome State Fault Refusal) (f : State → α) : Option α :=
  match o with
  | .next s => some (f s)
  | .fault _ => none
  | .refused _ => none

/-- A bit string as the document writes it. -/
def bitString (s : String) : List Bool := s.toList.map (· == '1')

/-- Host writes carried out one after another. -/
def load (ops : List HostOp) (s : State) : State := ops.foldl (fun s op => hostStore op s) s

/-- The state with these bits in BITS and the cursor at 0. -/
def withBits (bs : List Bool) (s : State) : State :=
  { s with bits := Memory.writeList [] 0 bs, bitlen := bs.length, bitpos := 0 }

/-- The table TE of part 0. -/
def te : HuffTable :=
  { map := [(4, 0), (5, 1), (6, 2), (14, 3), (30, 4), (62, 5), (126, 6), (254, 7), (510, 8)]
    lens := some { min := 2, max := 8 } }

/-- The table T17 of part 0. -/
def t17 : HuffTable :=
  { map := [(4, 0), (5, 1), (12, 2), (13, 3), (14, 4), (30, 5), (62, 6), (126, 7), (254, 8), (510, 9), (1022, 10),
      (2046, 11), (4094, 12), (8190, 13), (16382, 14), (32766, 15), (65534, 16)]
    lens := some { min := 2, max := 15 } }

/-- The table T5 of part 0. -/
def t5 : HuffTable := { map := [(2, 0), (12, 1), (13, 2)], lens := some { min := 1, max := 3 } }

/-- The code-length table of TE. -/
def teLengths : List HostOp :=
  ldclt 2 [0, 1, 2] ++ ldclt 3 [3] ++ ldclt 4 [4] ++ ldclt 5 [5] ++ ldclt 6 [6] ++ ldclt 7 [7] ++ ldclt 8 [8]

/-- HT[0] = TE, HT[1] = T17, HT[2] = T5, HT[9] empty. -/
def base : State := { State.reset with ht := [(0, te), (1, t17), (2, t5), (9, { map := [], lens := none })] }

/-- `base` with a frame and a scan of one component coded with HT[0]. -/
def scanState (p : BitVec 8) (h w : BitVec 16) (ss : BitVec 8) (bs : String) : State :=
  withBits (bitString bs) (load (frame p h w 1 ++ scanhdr 1 ss 0 ++ wrtsel 0 0) base)

/-! ### WellFormed: one ill-formed term for each check -/

theorem test_wf_refuses_missing_code : ([.diffSsss0 1, .diffSsss1 1 0, .diffSsss2 1 0, .diffSsss3 1 0, .diffSsss4 1 0,
    .diffSsss5 1 0, .diffSsss6 1 0, .diffSsss7 1 0, .diffSsss8 1 0, .diffSsss9 1 0, .diffSsss10 1 0, .diffSsss11 1 0,
    .diffSsss12 1 0, .diffSsss13 1 0, .diffSsss14 1 0, .diffSsss15 1 0, .diffSsss16 1] : List Instr).all
      (fun i => !i.wf) = true := by decide +kernel

theorem test_wf_refuses_missing_sentinel : ([.diffSsss0 0, .diffSsss7 0 0, .diffSsss16 0] : List Instr).all
    (fun i => !i.wf) = true := by decide +kernel

theorem test_wf_accepts_shortest_and_longest_code :
    ([.diffSsss0 2, .diffSsss5 0x1FFFF 31, .diffSsss16 3] : List Instr).all Instr.wf = true := by decide +kernel

/-! ### Decode: words and bit strings written out from 30_encoding -/

/-- CW1 to CW10. -/
theorem test_decode_words : [0x0100, 0x0101, 0x01FF, 0x0200, 0x0300, 0x0310, 0x0400, 0x0500, 0x0600, 0x0700].map
    (fun w : Word => (decode w).toOption) =
    [some (.htbuild 0), some (.htbuild 1), some (.htbuild 0xFF), some .bsextract, some (.eddiff 0),
     some (.eddiff 0x10), some .prinit, some .prsample, some .prscan, some .scan] := by decide +kernel

/-- CW11 to CW16. -/
theorem test_decode_illegal : [0x0000, 0x0800, 0x0201, 0x0701, 0x04FF, 0xFFFF].map (fun w : Word => decode w) =
    [.error (.unknownOp 0x00), .error (.unknownOp 0x08), .error (.operandNotZero 0x02 0x01),
     .error (.operandNotZero 0x07 0x01), .error (.operandNotZero 0x04 0xFF), .error (.unknownOp 0xFF)] := by
  decide +kernel

/-- The codewords of part 4 (DD1 to DD27), bit by bit, with T17; a 0 follows each. -/
def codewordVectors : List (String × Instr) :=
  [("00", .diffSsss0 4), ("011", .diffSsss1 5 1), ("10001", .diffSsss2 12 1), ("101100", .diffSsss3 13 4),
   ("1100111", .diffSsss4 14 7),
   ("111010000", .diffSsss5 30 16), ("11110011111", .diffSsss6 62 31), ("1111101000000", .diffSsss7 126 64),
   ("111111011111111", .diffSsss8 254 255), ("11111110100000000", .diffSsss9 510 256),
   ("1111111101111111111", .diffSsss10 1022 1023), ("111111111001111111111", .diffSsss11 2046 1023),
   ("11111111110101110111000", .diffSsss12 4094 3000), ("1111111111101000000000000", .diffSsss13 8190 4096),
   ("111111111111000000000000000", .diffSsss14 16382 0), ("11111111111110100000000000000", .diffSsss15 32766 16384),
   ("111111111111110", .diffSsss16 65534)]

theorem test_decode_codewords : codewordVectors.all (fun e =>
    decide (decodeCodeword t17 (bitString e.1 ++ [false]) = .ok (e.2, [false]))) = true := by decide +kernel

theorem test_encode_codewords : codewordVectors.all (fun e => decide (encode e.2 = .bits (bitString e.1))) = true := by
  decide +kernel

/-- The host counts a table word's bits from the least significant bit of the one command word. -/
theorem test_decodeTableWord : decodeTableWord 16 0x0310 = some (.eddiff 0x10) ∧ decodeTableWord 16 0x0000 = none ∧
    decodeTableWord 8 0x00 = none := by decide +kernel

/-! ### HTBUILD -/

/-- HB1 (S1). -/
theorem test_htbuild_te : after (exec (.htbuild 0x10) (load teLengths State.reset))
    (fun t => (t.ht, t.fault)) = some ([(0x10, te)], 0) := by decide +kernel

/-- HB13: the fifth code of length 2 wraps and replaces symbol 2. -/
theorem test_htbuild_wraps : after (exec (.htbuild 0) (load (ldclt 2 [0, 1, 2, 3, 4]) State.reset)) (fun t => t.ht) =
    some [(0, { map := [(4, 0), (5, 1), (6, 4), (7, 3)], lens := some { min := 2, max := 2 } })] := by decide +kernel

/-! ### BSEXTRACT -/

/-- BX16 (S7). -/
theorem test_bsextract_document : after
    (exec .bsextract (load (ldbytes [0x00, 0xFE, 0x00, 0xFF, 0x00, 0x05, 0xFF, 0xDA]) State.reset))
    (fun t => (t.bits.map Prod.snd, t.bitlen, t.bcur, t.marker, t.ambig)) =
    some (bitString "0000000011111110000000001111111100000101", 40, 6, true, false) := by decide +kernel

/-- BX12: stop at the first of two 0xFF. -/
theorem test_bsextract_ambiguous : after (exec .bsextract (load (ldbytes [0xAB, 0xFF, 0xFF, 0x00]) State.reset))
    (fun t => (t.bits.map Prod.snd, t.bitlen, t.bcur, t.marker, t.ambig)) =
    some (bitString "10101011", 8, 1, true, true) := by decide +kernel

/-! ### EDDIFF and the codewords -/

/-- S6 and DC19: differences -2 and -4. -/
theorem test_eddiff_negative : after (exec (.eddiff 0) (withBits (bitString "1001011") base))
      (fun t => (t.diff.toInt, t.bitpos)) = some (-2, 4) ∧
    after (exec (.eddiff 0) (withBits (bitString "110011") base)) (fun t => (t.diff.toInt, t.bitpos)) = some (-4, 6) := by
  decide +kernel

/-- DC7: three bits tried, the fourth is not consumed. -/
theorem test_eddiff_malformed : after (exec (.eddiff 2) (withBits (bitString "1100") base))
    (fun t => (t.fault, t.finfo, t.bitpos, t.diff)) = some (1, 3, 3, 0) := by decide +kernel

/-- The differences of DD1 to DD27 and the bits consumed, each codeword executed alone. -/
theorem test_codewords_alone : codewordVectors.map (fun e =>
    after (exec e.2 (withBits (bitString e.1) State.reset)) (fun t => (t.diff.toInt, t.bitpos))) =
    [(0, 2), (1, 3), (-2, 5), (4, 6), (7 - 15, 7), (16, 9), (31 - 63, 11), (64, 13), (255, 15), (256, 17), (1023, 19),
     (-1024, 21), (3000, 23), (4096, 25), (-16383, 27), (16384, 29), (32768, 15)].map some := by decide +kernel

/-- A codeword whose last bit is missing (rule R143). -/
theorem test_codeword_truncated : after (exec (.diffSsss1 5 1) (withBits (bitString "01") State.reset))
    (fun t => (t.fault, t.finfo, t.bitpos, t.diff)) = some (5, 2, 2, 0) := by decide +kernel

/-! ### PRINIT, PRSAMPLE, PRSCAN, SCAN -/

/-- RC21. -/
theorem test_prinit : after (exec .prinit { base with slen := 6, bitpos := 3 }) (fun t => (t.slen, t.bitpos)) =
    some (0, 3) := by decide +kernel

/-- The example of rule R165: predictor 7 in the interior, the codeword of 11. -/
theorem test_prsample_average : after
    (exec .prsample { scanState 8 2 3 7 "11101011" with samp := [(0, 130), (1, 131), (2, 129), (3, 128)], slen := 4 })
    (fun t => (t.samp.read 4, t.slen, t.bitpos)) = some (some 140, 5, 8) := by decide +kernel

/-- RS6: SS 5 takes the floor of a negative half. -/
theorem test_prsample_floor : after
    (exec .prsample { scanState 8 2 2 5 "00" with samp := [(0, 133), (1, 130), (2, 143)], slen := 3 })
    (fun t => t.samp.read 3) = some (some 141) := by decide +kernel

/-- RW1: differences -120, -5, 2, 0 with SS 5. -/
theorem test_prscan_wraps : after (exec .prscan (scanState 8 2 2 5 "11111100000111110010101000"))
    (fun t => (t.samp, t.slen, t.bitpos, t.fault)) = some ([(0, 8), (1, 3), (2, 10), (3, 7)], 4, 26, 0) := by
  decide +kernel

/-- RC12: the second component has no selector, and the first sample stays. -/
theorem test_prscan_keeps_samples : after
    (exec .prscan { scanState 8 1 1 0 "0000000000000000" with frmNc := 2 })
    (fun t => (t.samp, t.slen, t.bitpos, t.fault, t.finfo)) = some ([(0, 128)], 1, 2, 6, 7) := by decide +kernel

/-- Program P2. -/
theorem test_scan_p2 : after
    (exec .scan (load (ldbytes [0xA7, 0x33, 0xD7, 0xFB, 0xFF, 0x00, 0xFF, 0xD9]) (scanState 8 2 3 7 "")))
    (fun t => (t.samp.map Prod.snd, t.slen, t.bitpos, t.bcur, t.bitlen, t.fault)) =
    some ([130, 131, 129, 128, 140, 5], 6, 37, 6, 40, 0) := by decide +kernel

/-! ### The step -/

/-- CW12, and CW17 behind the fault gate. -/
theorem test_step_illegal : after (step (State.reset.withFetchWord 16 0x0800)) (fun t => (t.fault, t.finfo)) =
      some (8, 0x0800) ∧
    after (step ({ State.reset with fault := 1, finfo := 9 }.withFetchWord 16 0x0102)) (fun t => (t.fault, t.finfo, t.ht)) =
      some (1, 9, []) := by decide +kernel

/-- RV2, RV4: the word placed by `withFetchWord` is the first to run. -/
theorem test_step_runs_placed_word : after (step (State.reset.withFetchWord 16 0x0105))
      (fun t => (t.ht, t.fault)) = some ([(5, { map := [], lens := none })], 0) ∧
    after (step (State.reset.withFetchWord 16 0x0300)) (fun t => (t.fault, t.finfo)) = some (2, 0) := by decide +kernel

/-- The host's work for a DHT segment (R76, R77) and for SOF3 and SOS (R78, R79): T17's segment of part 0, P3's
headers. The SOS segment takes 8 bytes, so BCUR is 8 beyond its start; the host may order the entries by the component
selectors (1 and 2) against the scan order. -/
theorem test_host_segments :
    (dht [0x01, 0, 2, 3, 1, 1, 1, 1, 1, 1, 1, 1, 1, 1, 1, 1, 0, 0, 1, 2, 3, 4, 5, 6, 7, 8, 9, 10, 11, 12, 13, 14, 15,
      16]).map (fun ops => (ops.getLast?, (load ops State.reset).cltCnt.toList)) =
      some (some (.cmd 0x0101), [0, 2, 3, 1, 1, 1, 1, 1, 1, 1, 1, 1, 1, 1, 1, 0]) ∧
    sof3 [0x0C, 0, 2, 0, 2, 2, 1, 0x11, 0, 2, 0x11, 0] =
      some [.writeFrmP 12, .writeFrmH 2, .writeFrmW 2, .writeFrmNc 2] ∧
    sof3 [0x0C, 0, 2, 0, 2, 2, 1, 0x11, 0, 2, 0x11] = none ∧
    sos (fun packed => packed) (fun j _ => j) 0 [2, 1, 0x00, 2, 0x01, 5, 0, 1] =
      some [.writeScnNs 2, .writeScnSs 5, .writeScnPt 1, .writeScnTsel 0 0x00, .writeScnTsel 1 0x01, .writeBcur 8] ∧
    sos (fun packed => packed) (fun _ component => 2 - component.toNat) 100 [2, 1, 0x00, 2, 0x01, 5, 0, 1] =
      some [.writeScnNs 2, .writeScnSs 5, .writeScnPt 1, .writeScnTsel 1 0x00, .writeScnTsel 0 0x01,
        .writeBcur 108] := by
  decide +kernel

/-! ### Witnesses: every statement's hypotheses are met -/

theorem wf_te : WfTable te :=
  ⟨by decide, by decide, by decide, by decide, by decide +kernel, ⟨(4, 0), by decide, by decide⟩,
    ⟨(510, 8), by decide, by decide⟩⟩

theorem wf_t5 : WfTable t5 :=
  ⟨by decide, by decide, by decide, by decide, by decide +kernel, ⟨(2, 0), by decide, by decide⟩,
    ⟨(12, 1), by decide, by decide⟩⟩

theorem wf_t17 : WfTable t17 :=
  ⟨by decide, by decide, by decide, by decide, by decide +kernel, ⟨(4, 0), by decide, by decide⟩,
    ⟨(65534, 16), by decide +kernel, by decide⟩⟩

/-- The key 510 of TE, its longest code, is found. -/
theorem finds_te_eight : FindsCode te 8 510 := ⟨⟨8, rfl, rfl⟩, by decide +kernel⟩

theorem finds_te_three : FindsCode te 3 14 := ⟨⟨3, rfl, rfl⟩, by decide +kernel⟩

theorem finds_te_zero : FindsCode te 0 4 := ⟨⟨0, rfl, rfl⟩, by decide +kernel⟩

/-- With an unbounded BYTES every BLEN fits. -/
theorem blenFits_of_none {s : State} (h : s.params.bytesCap = none) : BlenFits s := by
  intro cap hc; rw [h] at hc; cases hc

/-- Invariants of HT: every listed slot of `base` is well formed. -/
theorem tables_base : ∀ k table, base.ht.read k = some table → k < 256 ∧ WfTable table := by
  intro k table h
  have hm := Memory.mem_of_read h
  simp only [base, List.mem_cons, Prod.mk.injEq, List.not_mem_nil, or_false] at hm
  rcases hm with ⟨rfl, rfl⟩ | ⟨rfl, rfl⟩ | ⟨rfl, rfl⟩ | ⟨rfl, rfl⟩
  · exact ⟨by decide, wf_te⟩
  · exact ⟨by decide, wf_t17⟩
  · exact ⟨by decide, wf_t5⟩
  · exact ⟨by decide, rfl, rfl⟩

/-- A state with bits, tables and samples, for EveryStepKeepsInvariant. -/
def lively : State := { scanState 8 2 2 7 "101" with samp := [(0, 5)], slen := 1, host := [.cmd 0x0500] }

theorem witness_EveryStepKeepsInvariant : Inv lively ∧ ∃ t, step lively = .next t := by
  refine ⟨⟨by decide, by decide, by decide, by decide, by decide, by decide, by decide, ?_, ?_, tables_base,
    by decide, ?_, ?_⟩, _, rfl⟩
  · show ∀ i < 3, (lively.bits.read i).isSome = true
    decide
  · show ∀ i < 1, (lively.samp.read i).isSome = true
    decide
  · intro cap h; cases h
  · intro cap h; cases h

/-- The ends of the ranges. -/
theorem witness_ResetStateAndFirstCommands : hostRead (.scnTsel 254) State.reset = .number 0 ∧
    hostRead (.cltCnt 1) State.reset = .number 0 ∧ hostRead (.cltCnt 16) State.reset = .number 0 ∧
    hostRead (.cltSym 16 15) State.reset = .unspecified := by decide

theorem witness_ResetInputRestoresResetState : ({ base with host := [.reset, .cmd 0x0700] } : State).host =
    .reset :: [.cmd 0x0700] := rfl

theorem witness_CmdWriteRunsDecodedCommand :
    ({ base with host := [.cmd 0x0300] } : State).host = .cmd 0x0300 :: [] ∧ ({ base with fault := 1 } : State).fault ≠ 0 ∧
    base.fault = 0 ∧ decode 0x0300 = .ok (.eddiff 0) ∧ decode 0x0800 = .error (.unknownOp 0x08) := by decide

/-- The words next to legal ones. -/
theorem witness_IllegalWordRaisesIllegalCmd : ([0x0000, 0x0201, 0x04FF, 0x0701, 0x0800, 0xFFFF] : List Word).all (fun w =>
    w &&& 0xFF00 != 0x0100 && w &&& 0xFF00 != 0x0300 && w != 0x0200 && w != 0x0400 && w != 0x0500 && w != 0x0600 &&
      w != 0x0700) = true ∧ State.reset.fault = 0 := by decide

theorem witness_CommandDecodeInvertsEncode : (Instr.htbuild 0xFF).codeword? = none ∧ Instr.scan.codeword? = none := by
  decide

/-- A codeword without extra bits and one with eight. -/
theorem witness_CodewordDecodeInvertsEncode :
    (WfTable te ∧ (Instr.diffSsss8 510 255).wf = true ∧ (Instr.diffSsss8 510 255).codeword? = some (8, 510, 255) ∧
      FindsCode te 8 510) ∧
    ((Instr.diffSsss0 4).wf = true ∧ (Instr.diffSsss0 4).codeword? = some (0, 4, 0) ∧ FindsCode te 0 4) :=
  ⟨⟨wf_te, by decide, by decide, finds_te_eight⟩, by decide, by decide, finds_te_zero⟩

theorem witness_CodewordEncodeInvertsDecode :
    WfTable te ∧ decodeCodeword te (bitString "1011111") = .ok (.diffSsss2 6 3, bitString "111") :=
  ⟨wf_te, by decide +kernel⟩

theorem witness_FaultGateIgnoresCommands :
    ({ base with fault := 8, host := [.writeBytes 0 1] } : State).fault ≠ 0 ∧
    ({ base with fault := 8, host := [.cmd 0xFFFF] } : State).host = .cmd 0xFFFF :: [] ∧
    (∀ w, HostOp.writeBytes 0 1 ≠ .cmd w) ∧ HostOp.writeBytes 0 1 ≠ .reset ∧
    (∃ t, step { ({ base with fault := 8, host := [.writeBytes 0 1] } : State) with fault := 0, finfo := 0 } = .next t) ∧
    HostTarget.diff ≠ .fault ∧ HostTarget.diff ≠ .finfo :=
  ⟨by decide, rfl, by simp, by decide, ⟨_, rfl⟩, by decide, by decide⟩

theorem witness_OnlyResetClearsFault :
    ({ base with fault := 1, host := [.cmd 0x0400] } : State).fault ≠ 0 ∧
    ({ base with fault := 1, host := [.cmd 0x0400] } : State).host.head? ≠ some .reset ∧
    (∃ t, step { base with fault := 1, host := [.cmd 0x0400] } = .next t) ∧
    (∃ t, exec .scan { base with fault := 1 } = .next t) ∧
    ({ base with fault := 1, host := [.reset] } : State).host = .reset :: [] :=
  ⟨by decide, by decide, ⟨_, rfl⟩, ⟨_, rfl⟩, rfl⟩

theorem witness_EachStateHasOnlyItsWriters :
    (∃ t, exec (.htbuild 0) base = .next t) ∧ (∃ t, exec .bsextract base = .next t) ∧
    (∃ t, exec (.eddiff 0) base = .next t) ∧ (∃ t, exec .prscan base = .next t) ∧ (∃ t, exec .prinit base = .next t) ∧
    (∀ key, Instr.bsextract ≠ .htbuild key) ∧ Instr.prinit ≠ .bsextract ∧ Instr.prinit ≠ .scan ∧
    Instr.prinit ≠ .prsample ∧ Instr.prinit ≠ .prscan ∧ (Instr.prinit).codeword? = none :=
  ⟨⟨_, rfl⟩, ⟨_, rfl⟩, ⟨_, rfl⟩, ⟨_, rfl⟩, ⟨_, rfl⟩, by simp, by decide, by decide, by decide, by decide, by decide⟩

theorem witness_BitCursorNeverRewound :
    (∃ t, exec (.eddiff 0) (withBits (bitString "00") base) = .next t) ∧ Instr.eddiff 0 ≠ .bsextract ∧
    Instr.eddiff 0 ≠ .scan ∧ (withBits (bitString "00") base).bitpos ≤ (withBits (bitString "00") base).bitlen ∧
    ∃ t, exec .scan (withBits (bitString "00") base) = .next t :=
  ⟨⟨_, rfl⟩, by decide, by decide, by decide, ⟨_, rfl⟩⟩

/-- Two states that differ in a bit beyond BITLEN and a sample beyond SLEN. -/
theorem witness_UnusedCellsNeverRead :
    SameBelowLengths (withBits (bitString "00") base)
      { withBits (bitString "00") base with bits := [(0, false), (1, false), (2, true)], samp := [(0, 7)] } ∧
    (∃ t, exec (.eddiff 0) (withBits (bitString "00") base) = .next t) ∧
    ∃ t, exec (.eddiff 0)
      { withBits (bitString "00") base with bits := [(0, false), (1, false), (2, true)], samp := [(0, 7)] } = .next t := by
  refine ⟨⟨rfl, ?_, fun n h => absurd h (Nat.not_lt_zero n)⟩, ⟨_, rfl⟩, ⟨_, rfl⟩⟩
  show ∀ n < 2, _
  decide

theorem legal_te : CltLegal (load teLengths State.reset) := cltLegal_iff.mpr (by decide +kernel)

theorem witness_HtbuildWritesDerivedTable : (load teLengths State.reset).fault = 0 ∧
    CltLegal (load teLengths State.reset) ∧ (0x10 : Byte) ≠ 0x00 := ⟨by decide, legal_te, by decide⟩

/-- Count 16 and symbol 16 are legal (HB15), 17 of either is not (HF1, HF2), and the counts come first (HF4). -/
theorem witness_HtbuildRefusesIllegalTable :
    (∃ len, 1 ≤ len ∧ len ≤ 16 ∧ 16 < cltCount (load [.writeCltCnt 16 17] State.reset) len) ∧
    ((∀ len, 1 ≤ len → len ≤ 16 → cltCount (load (ldclt 1 [17]) State.reset) len ≤ 16) ∧
      ∃ len i, 1 ≤ len ∧ len ≤ 16 ∧ i < cltCount (load (ldclt 1 [17]) State.reset) len ∧
        16 < (cltSymbol (load (ldclt 1 [17]) State.reset) len i).toNat) ∧
    CltLegal (load (ldclt 4 (List.replicate 16 16)) State.reset) := by
  refine ⟨⟨16, by decide +kernel⟩, ⟨?_, 1, 0, by decide +kernel⟩, cltLegal_iff.mpr (by decide +kernel)⟩
  have : badCount (load (ldclt 1 [17]) State.reset) = false := by decide +kernel
  intro len h1 h2
  rw [← Bool.not_eq_true, badCount_iff] at this
  exact Nat.le_of_not_lt fun h => this ⟨len, h1, h2, h⟩

theorem witness_RebuildReplacesWholeSlot : (load teLengths base).fault = 0 ∧ CltLegal (load teLengths State.reset) ∧
    (∃ t, exec (.htbuild 0) (load teLengths State.reset) = .next t) ∧
    ∃ t, exec (.htbuild 0) { load teLengths State.reset with ht := [(0, t5)] } = .next t :=
  ⟨by decide, legal_te, ⟨_, rfl⟩, ⟨_, rfl⟩⟩

/-- `10` = x 0 with x the sentinel and no ones; `11` = all ones; the least code. -/
theorem witness_SuccessorTurnsLeftThenRight : (1 : Nat) ≤ 1 ∧ 2 * 1 * 2 ^ 0 + (2 ^ 0 - 1) = 2 ∧ 2 ^ (1 + 1) - 1 = 3 ∧
    succCode 2 = 3 ∧ succCode 3 = 3 ∧ succCode 1 = 3 := by decide

theorem witness_LengthsAreLeastAndGreatest :
    (tableOf (symbolEntries (load teLengths State.reset))).lens = some { min := 2, max := 8 } ∧
    0 < cltCount (load teLengths State.reset) 2 ∧ 0 < cltCount (load teLengths State.reset) 8 := by decide +kernel

theorem witness_EmptyLengthTableGivesEmptyTable : State.reset.fault = 0 ∧
    ∀ len, 1 ≤ len → len ≤ 16 → cltCount State.reset len = 0 := by
  have : ((List.range' 1 16).all fun len => cltCount State.reset len == 0) = true := by decide +kernel
  refine ⟨rfl, fun len h1 h2 => ?_⟩
  simpa using List.all_eq_true.mp this len (by simp; omega)

/-- The counts of a complete code, on which R111's condition holds with equality: lengths 1, 2, 2. -/
theorem witness_DerivationIsCanonical :
    ValidCounts ((symbolEntries (load (ldclt 1 [0] ++ ldclt 2 [1, 2]) State.reset)).map Prod.fst) := by
  have h : (symbolEntries (load (ldclt 1 [0] ++ ldclt 2 [1, 2]) State.reset)).map Prod.fst = [1, 2, 2] := by
    decide +kernel
  rw [h]
  intro len
  match len with
  | 0 => decide
  | 1 => decide
  | n + 2 =>
    have e : [1, 2, 2].filter (fun x => decide (x ≤ n + 2)) = [1, 2, 2] := by simp
    rw [e]
    simp only [List.map_cons, List.map_nil, List.sum_cons, List.sum_nil, Nat.add_sub_cancel,
      show n + 2 - 1 = n + 1 by omega, pow_succ]
    omega

theorem witness_ValidTablesArePrefixFree :
    ValidCounts ((symbolEntries (load (ldclt 1 [0] ++ ldclt 2 [1, 2]) State.reset)).map Prod.fst) :=
  witness_DerivationIsCanonical

/-- BLEN at the capacity, and one above it. -/
theorem witness_BsextractStoresExtraction :
    let s := load (ldbytes [0x12, 0xFF]) State.reset
    s.fault = 0 ∧ BlenFits { s with params := { Params.default with bytesCap := some 2 } } ∧
    ¬ BlenFits { s with params := { Params.default with bytesCap := some 1 } } := by
  refine ⟨rfl, ?_, ?_⟩
  · rw [← blenTooLong_iff]; decide
  · rw [← blenTooLong_iff]; decide

/-- Data that ends at BLEN; a marker 0x01 and an ambiguous 0xFF; a lone last 0xFF. -/
theorem witness_ExtractionUndoesStuffing :
    BytesHold (load (ldbytes [0xFF, 0x00]) State.reset) 0 (stuff [0xFF]) ∧
    (load (ldbytes [0xFF, 0x00]) State.reset).blen = 0 + (stuff [0xFF]).length ∧
    BytesHold (load (ldbytes [0x11, 0xFF, 0x01]) State.reset) 0 (stuff [0x11] ++ [0xFF, 0x01]) ∧
    BytesHold (load (ldbytes [0xFF, 0xFF]) State.reset) 0 (stuff [] ++ [0xFF, 0xFF]) ∧
    BytesHold (load (ldbytes [0x12, 0xFF]) State.reset) 0 (stuff [0x12] ++ [0xFF]) ∧
    (load (ldbytes [0x12, 0xFF]) State.reset).blen = 0 + (stuff [0x12]).length + 1 ∧
    BlenFits (load (ldbytes [0x12, 0xFF]) State.reset) ∧ (0x01 : Byte) ≠ 0x00 := by
  refine ⟨?_, by decide, ?_, ?_, ?_, by decide, blenFits_of_none rfl, by decide⟩
  · exact ⟨by decide, by decide, by decide, by decide, Nat.le_of_ble_eq_true rfl⟩
  · exact ⟨by decide, by decide, by decide, by decide, by decide, by decide, Nat.le_of_ble_eq_true rfl⟩
  · exact ⟨by decide, by decide, by decide, by decide, Nat.le_of_ble_eq_true rfl⟩
  · exact ⟨by decide, by decide, by decide, by decide, Nat.le_of_ble_eq_true rfl⟩

/-- Both values of MARKER and of AMBIG occur. -/
theorem witness_FlagsTellWhereExtractionStopped :
    after (exec .bsextract (load (ldbytes [0x12, 0xFF]) State.reset)) (fun t => (t.marker, t.ambig)) =
      some (false, false) ∧
    after (exec .bsextract (load (ldbytes [0x11, 0xFF, 0x01]) State.reset)) (fun t => (t.marker, t.ambig)) =
      some (true, false) ∧
    after (exec .bsextract (load (ldbytes [0xFF, 0xFF]) State.reset)) (fun t => (t.marker, t.ambig)) =
      some (true, true) ∧
    BlenFits (load (ldbytes [0x12, 0xFF]) State.reset) := by
  exact ⟨by decide +kernel, by decide +kernel, by decide +kernel, blenFits_of_none rfl⟩

theorem witness_ExtractedLengthBound :
    BlenFits (load (ldbytes [0x12, 0xFF]) State.reset) ∧
    ∃ t, exec .bsextract (load (ldbytes [0x12, 0xFF]) State.reset) = .next t :=
  ⟨blenFits_of_none rfl, ⟨_, rfl⟩⟩

/-- BCUR at BLEN, and a marker in the last two bytes. -/
theorem witness_EmptyExtraction :
    BlenFits State.reset ∧ State.reset.blen ≤ State.reset.bcur ∧
    (let s := load (ldbytes [0xFF, 0x01]) State.reset
     BlenFits s ∧ s.bcur + 1 < s.blen ∧ byteAt s s.bcur = 0xFF ∧ byteAt s (s.bcur + 1) ≠ 0x00) :=
  ⟨blenFits_of_none rfl, by decide, blenFits_of_none rfl, by decide, by decide, by decide⟩

theorem witness_EddiffTestsTheTable : base.fault = 0 ∧ slot base 5 = none ∧ slot base 9 = some { map := [], lens := none } :=
  by decide

/-- `110 101` (DC19) lies at the cursor, and ends at BITLEN. -/
theorem codewordAt_five : CodewordAt (withBits (bitString "110101") base) 0 0 (.diffSsss3 14 5) :=
  ⟨te, 3, 14, 5, rfl, wf_te, rfl, rfl, finds_te_three, bitsHold_iff.mpr (by decide +kernel)⟩

theorem witness_EddiffDecodesCodewordAtCursor : (withBits (bitString "110101") base).fault = 0 ∧
    CodewordAt (withBits (bitString "110101") base) 0 (withBits (bitString "110101") base).bitpos (.diffSsss3 14 5) :=
  ⟨rfl, codewordAt_five⟩

theorem witness_EddiffRunsExactlyOneCodeword :
    (∀ table, slot (withBits (bitString "110101") base) 0 = some table → WfTable table) ∧
    after (exec (.eddiff 0) (withBits (bitString "110101") base)) (fun t => t.fault) = some 0 :=
  ⟨fun table h => (tables_base 0 table h).2, by decide +kernel⟩

/-- DC7 and DC8: three bits are the bound of T5; two end before it. -/
theorem witness_MissedCodeRaisesAfterTheBound :
    slot base 2 = some t5 ∧ WfTable t5 ∧ t5.lens = some { min := 1, max := 3 } ∧
    BitsHold (withBits (bitString "1100") base) 0 (bitString "110") ∧
    (∀ e ∈ t5.map, ¬ codeBits e.1 <+: bitString "110") ∧ (bitString "110").length = 1 - 1 + 3 ∧
    BitsHold (withBits (bitString "11") base) 0 (bitString "11") ∧
    (∀ e ∈ t5.map, ¬ codeBits e.1 <+: bitString "11") ∧ (bitString "11").length < 1 - 1 + 3 ∧
    (withBits (bitString "11") base).bitlen = 0 + (bitString "11").length :=
  ⟨by decide, wf_t5, by decide, bitsHold_iff.mpr (by decide +kernel), by decide +kernel, by decide,
    bitsHold_iff.mpr (by decide +kernel), by decide +kernel, by decide, by decide⟩

/-- DC15, DC16 and DC18: no bit, a bit inside the code, and all but the last extra bit. -/
theorem witness_TruncatedCodewordRaisesBitsExhausted :
    slot base 0 = some te ∧ WfTable te ∧ FindsCode te 3 14 ∧
    ["", "1", "11010"].all (fun bs => (bitString bs).isPrefixOf (codewordBits 3 14 5) &&
      bitString bs != codewordBits 3 14 5) = true ∧
    BitsHold (withBits (bitString "11010") base) 0 (bitString "11010") ∧
    (withBits (bitString "11010") base).bitlen = 0 + (bitString "11010").length :=
  ⟨rfl, wf_te, finds_te_three, by decide +kernel, bitsHold_iff.mpr (by decide +kernel), by decide⟩

theorem witness_DifferenceRange : (∃ d s', decodeDiff 0 (withBits (bitString "110101") base) = .ok d s') ∧
    differenceOf 16 65535 = 32768 ∧ (65535 : Nat) < 2 ^ 16 ∧ differenceOf 15 0 = -32767 := by
  exact ⟨⟨_, _, decode_at codewordAt_five⟩, by decide, by decide, by decide⟩

theorem witness_DecodeConsumesOneToThirtyOneBits :
    slot base 0 = some te ∧ WfTable te ∧ te.lens = some { min := 2, max := 8 } ∧
    after (exec (.eddiff 0) (withBits (bitString "110101") base)) (fun t => t.fault) = some 0 :=
  ⟨rfl, wf_te, rfl, by decide +kernel⟩

/-- The ends of the ranges, and both sides of zero. -/
theorem witness_DifferenceRoundTrip : [(-32767 : Int), -16384, -1, 0, 1, 16384, 32767, 32768].map categoryOf =
    [15, 15, 1, 0, 1, 15, 15, 16] ∧ [(-32767 : Int), -16384, -1, 1, 16384, 32767].map extraOf =
    [0, 16383, 0, 1, 16384, 32767] := by decide +kernel

/-- Each codeword's bits end exactly at BITLEN. -/
theorem witness_CodewordsRunAlone : codewordVectors.all (fun e =>
    decide ((withBits (bitString e.1) State.reset).bitpos + (instrBits e.2).length =
      (withBits (bitString e.1) State.reset).bitlen)) = true := by decide +kernel

/-- One bit short. -/
theorem witness_CodewordWithMissingBitsRaises :
    (withBits (bitString "01") State.reset).fault = 0 ∧ (Instr.diffSsss1 5 1).codeword? ≠ none ∧
    (withBits (bitString "01") State.reset).bitpos ≤ (withBits (bitString "01") State.reset).bitlen ∧
    (withBits (bitString "01") State.reset).bitlen <
      (withBits (bitString "01") State.reset).bitpos + (instrBits (.diffSsss1 5 1)).length := by decide +kernel

theorem witness_PrinitEmptiesTheBuffer : ({ base with fault := 1 } : State).fault ≠ 0 ∧ base.fault = 0 := by decide

/-- A complete buffer of four samples, and a frame of width 0. -/
theorem witness_CompleteBufferDoesNothing :
    ({ scanState 8 2 2 0 "" with slen := 4 } : State).slen = totalSamples { scanState 8 2 2 0 "" with slen := 4 } ∧
    (scanState 8 5 0 0 "").frmW = 0 ∧ ∃ t, exec .prscan (scanState 8 5 0 0 "") = .next t :=
  ⟨by decide, by decide, ⟨_, rfl⟩⟩

/-- Each test at its boundary: P 1 and 17, 2 and 16; Pt one above P - 1; Nc one above NCMAX; the total one above and at
SAMP_CAP; SLEN one above the total. -/
theorem witness_ScanTestsInOrder :
    let s := scanState 8 2 2 0 ""
    s.fault = 0 ∧ s.slen ≠ totalSamples s ∧
    ({ s with frmP := 1 } : State).frmP.toNat < 2 ∧ 16 < ({ s with frmP := 17 } : State).frmP.toNat ∧
    2 ≤ ({ s with frmP := 2 } : State).frmP.toNat ∧ ({ s with frmP := 16 } : State).frmP.toNat ≤ 16 ∧
    ({ s with scnPt := 8 } : State).frmP.toNat - 1 < ({ s with scnPt := 8 } : State).scnPt.toNat ∧
    ({ s with scnPt := 7 } : State).scnPt.toNat ≤ ({ s with scnPt := 7 } : State).frmP.toNat - 1 ∧
    (let u : State := { s with frmNc := 5, params := { Params.default with ncMax := 4 } }
     u.params.ncMax < u.frmNc.toNat ∧ ({ u with frmNc := 4 } : State).frmNc.toNat ≤ u.params.ncMax) ∧
    (let u : State := { s with params := { Params.default with sampCap := some 3 } }
     u.params.sampCap = some 3 ∧ 3 < totalSamples u) ∧ totalSamples s = 4 ∧
    totalSamples { s with slen := 5 } < ({ s with slen := 5 } : State).slen := by decide +kernel

theorem scanLegal_demo (bs : String) : ScanLegal (scanState 8 2 2 0 bs) :=
  ⟨Nat.le_of_ble_eq_true rfl, Nat.le_of_ble_eq_true rfl, Nat.le_of_ble_eq_true rfl, Nat.le_of_ble_eq_true rfl,
    fun _ h => (nomatch h), Nat.le_of_ble_eq_true rfl⟩

/-- A component beyond SCN_NS; a slot never built; an empty slot. -/
theorem witness_TableSelectionFaults :
    let s := scanState 8 2 2 0 ""
    s.fault = 0 ∧ ScanLegal s ∧ s.slen < totalSamples s ∧
    ({ s with scnNs := 0 } : State).scnNs.toNat ≤ s.slen % s.frmNc.toNat ∧ s.slen % s.frmNc.toNat < s.scnNs.toNat ∧
    slot s (tableKey (load (wrtsel 0 0x10) s) 0) = none ∧
    slot s (tableKey (load (wrtsel 0 9) s) 0) = some { map := [], lens := none } :=
  ⟨rfl, scanLegal_demo _, by decide +kernel, by decide, by decide, by decide +kernel, by decide +kernel⟩

/-- The first sample and the last. -/
theorem witness_PositionLiesInFrame : (0 : Nat) < totalSamples (scanState 8 2 2 0 "") ∧
    ({ scanState 8 2 2 0 "" with slen := 3 } : State).slen < totalSamples { scanState 8 2 2 0 "" with slen := 3 } := by
  decide

/-- PX6: the position and the neighbour indices of sample 17 of a frame of three components and width 4. -/
theorem witness_NeighbourOffsetsNameTheirPositions :
    let s : State := { State.reset with frmNc := 3, frmW := 4, frmH := 2, slen := 17 }
    s.slen < totalSamples s ∧ component s = 2 ∧ column s = 1 ∧ row s = 1 ∧ s.slen - 3 = 14 ∧ s.slen - 4 * 3 = 5 ∧
    s.slen - 4 * 3 - 3 = 2 ∧ component (atSample s 2) = 2 := by decide

theorem witness_NeighborFaultIsUnreachable : (∃ t, exec .prscan (scanState 8 2 2 5 "00") = .next t) ∧
    (scanState 8 2 2 5 "00").fault = 0 := ⟨⟨_, rfl⟩, by decide⟩

/-- The four kinds of position in a frame of two by two (samples 0 to 3), the first with SLEN below Nc. -/
theorem witness_BordersOverrideTheSelector :
    [0, 1, 2, 3].map (fun n => (column (atSample (scanState 8 2 2 0 "") n), row (atSample (scanState 8 2 2 0 "") n),
      decide (n < totalSamples (scanState 8 2 2 0 "")))) =
      [(0, 0, true), (1, 0, true), (0, 1, true), (1, 1, true)] ∧ (0 : Nat) < (scanState 8 2 2 0 "").frmNc.toNat := by
  decide

theorem witness_InteriorFollowsPredictorTable :
    let s : State := { scanState 8 2 2 8 "" with samp := [(0, 9), (1, 2), (2, 7)], slen := 3 }
    s.slen < totalSamples s ∧ 0 < column s ∧ 0 < row s ∧ (sampleAt s (s.slen - s.frmNc.toNat)).toNat = 7 ∧
    8 ≤ s.scnSs.toNat := by decide

theorem witness_StoredValueWrapsModuloTwoToTheP : reconstruct 2 1 (-3) = 2 ∧ reconstruct 16 32768 32768 = 0 ∧
    reconstruct 15 16384 32768 = 16384 := by decide +kernel

/-- RC1's first sample. -/
theorem witness_PrsampleAppendsOneSample :
    let s := scanState 8 2 2 0 "110101"
    s.fault = 0 ∧ ScanLegal s ∧ s.slen < totalSamples s ∧ s.slen % s.frmNc.toNat < s.scnNs.toNat ∧
    CodewordAt s (tableKey s (s.slen % s.frmNc.toNat)) s.bitpos (.diffSsss3 14 5) := by
  refine ⟨rfl, scanLegal_demo _, by decide +kernel, by decide, ?_⟩
  exact ⟨te, 3, 14, 5, by decide +kernel, wf_te, rfl, rfl, finds_te_three, bitsHold_iff.mpr (by decide +kernel)⟩

theorem witness_FaultingPrsampleAppendsNothing :
    after (exec .prsample (scanState 8 2 2 0 "111111111")) (fun t => (t.fault, t.bitpos, t.slen)) = some (1, 9, 0) ∧
    (scanState 8 2 2 0 "111111111").fault = 0 := by decide +kernel

theorem witness_AppendedSamplesFitPrecision :
    after (exec .prscan (scanState 8 2 2 0 "0000")) (fun t => t.slen) = some 2 ∧
    (∃ t, exec .scan (scanState 8 2 2 0 "0000") = .next t) ∧ BlenFits (scanState 8 2 2 0 "0000") :=
  ⟨by decide +kernel, ⟨_, rfl⟩, blenFits_of_none rfl⟩

/-- A step that appends, one that faults, and a complete buffer. -/
theorem witness_PrscanRepeatsPrsample :
    (scanState 8 2 2 0 "00").slen ≠ totalSamples (scanState 8 2 2 0 "00") ∧
    after (exec .prsample (scanState 8 2 2 0 "00")) (fun t => t.fault) = some 0 ∧
    after (exec .prsample (scanState 8 2 2 0 "0")) (fun t => t.fault) = some 5 ∧
    after (exec .prscan (scanState 8 1 1 0 "00")) (fun t => (t.fault, t.slen)) = some (0, 1) := by decide +kernel

/-- Two samples, two codewords: `110 101` and `00`. -/
theorem run_two (s : State) (hs : slot s (tableKey s 0) = some te) (h1 : s.frmNc = 1) (h2 : s.scnNs = 1)
    (hb : BitsHold s 0 (bitString "11010100")) : CodewordRun s 0 0 [.diffSsss3 14 5, .diffSsss0 4] := by
  have e : bitString "11010100" = codewordBits 3 14 5 ++ codewordBits 0 4 0 := by decide +kernel
  rw [e, bitsHold_append] at hb
  have hk : ∀ n, n % s.frmNc.toNat = 0 := by intro n; rw [h1]; exact Nat.mod_one n
  refine ⟨by rw [hk, h2]; decide, ?_, by rw [hk, h2]; decide, ?_, trivial⟩
  · rw [hk]; exact ⟨te, 3, 14, 5, hs, wf_te, rfl, rfl, finds_te_three, hb.1⟩
  · rw [hk]; exact ⟨te, 0, 4, 0, hs, wf_te, rfl, rfl, finds_te_zero, hb.2⟩

theorem witness_PrscanDecodesCodewordRun :
    let s := scanState 8 1 2 0 "11010100"
    s.fault = 0 ∧ ScanLegal s ∧ s.slen + 2 = totalSamples s ∧
    CodewordRun s s.bitpos s.slen [.diffSsss3 14 5, .diffSsss0 4] :=
  ⟨rfl, ⟨by decide, by decide, by decide, by decide, fun _ h => (nomatch h), by decide⟩, by decide,
    run_two _ (by decide +kernel) rfl rfl (bitsHold_iff.mpr (by decide +kernel))⟩

/-- After a fault in BSEXTRACT, and without one. -/
theorem witness_ScanIsBsextractPrinitPrscan : ∃ s1 s2 s3, exec .bsextract base = .next s1 ∧ exec .prinit s1 = .next s2 ∧
    exec .prscan s2 = .next s3 := ⟨_, _, _, rfl, rfl, rfl⟩

/-- One byte 0xD4 holds both codewords. -/
theorem witness_ScanDecodesWholeImage :
    let s := load (ldbytes [0xD4]) (scanState 8 1 2 0 "")
    s.fault = 0 ∧ BlenFits s ∧ ScanLegal (afterExtraction s) ∧
    ([.diffSsss3 14 5, .diffSsss0 4] : List Instr).length = totalSamples s ∧
    CodewordRun (afterExtraction s) 0 0 [.diffSsss3 14 5, .diffSsss0 4] :=
  ⟨rfl, blenFits_of_none rfl,
    ⟨by decide, by decide, by decide, by decide, fun _ h => (nomatch h), by decide⟩, by decide,
    run_two _ (by decide +kernel) rfl rfl (bitsHold_iff.mpr (by decide +kernel))⟩

/-- The first and the last existing element of each space, and the first that does not exist. -/
theorem witness_HostWritesOnlyItsTarget :
    ({ base with host := [.writeScnTsel 254 7] } : State).host = .writeScnTsel 254 7 :: [] ∧
    base.params.ncMax ≤ 255 ∧ 254 < base.params.ncMax ∧ (254 : Nat) < 255 ∧
    ((0 : Nat) = 0 ∨ 16 < 0) ∧ ((17 : Nat) = 0 ∨ 16 < 17) ∧ (1 : Nat) ≤ 16 ∧ ((16 : Nat) = 0 ∨ 16 < 16 ∨ 16 ≤ 16) ∧
    (∀ cap, base.params.bytesCap = some cap → 0 < cap) ∧
    (∀ cap, ({ base with params := { Params.default with bytesCap := some 4 } } : State).params.bytesCap = some cap →
      cap ≤ 4) :=
  ⟨rfl, by decide, by decide, by decide, by decide, by decide, by decide, by decide, fun _ h => (nomatch h),
    fun cap h => Nat.le_of_eq (Option.some.inj h).symm⟩

end Sys2Proof.Tests
end

section
/-! SUPPORT. Everything an instruction can do to the state, said once. -/

namespace Sys2Proof.Machine

/-- A decode procedure ran, and DIFF then holds a result unless it raised (42_entropy_decoder R141). -/
def DecodeEffect (s t : State) : Prop :=
  ∃ u d, t = { u with diff := d } ∧ BitsConsumed s u ∧
    ((u.fault = s.fault ∧ u.finfo = s.finfo) ∨ u.fault ∈ decodeFaults ∧ d = s.diff)

theorem DecodeEffect.eq {s t : State} (h : DecodeEffect s t) :
    t = { s with bitpos := t.bitpos, fault := t.fault, finfo := t.finfo, diff := t.diff } := by
  obtain ⟨u, d, rfl, ⟨e, -, -⟩, -⟩ := h
  rw [e]

theorem DecodeEffect.bitpos_le {s t : State} (h : DecodeEffect s t) :
    s.bitpos ≤ t.bitpos ∧ t.bitpos ≤ max s.bitpos s.bitlen := by
  obtain ⟨u, d, rfl, ⟨-, lo, hi⟩, -⟩ := h
  exact ⟨lo, hi⟩

theorem DecodeEffect.fault {s t : State} (h : DecodeEffect s t) : t.fault = s.fault ∨ t.fault ∈ decodeFaults := by
  obtain ⟨u, d, rfl, -, ⟨hf, -⟩ | ⟨hf, -⟩⟩ := h
  · exact .inl hf
  · exact .inr hf

/-- The instructions that are a decode and nothing more: EDDIFF, and a codeword executed alone (log 4). -/
def Decodes (i : Instr) : Prop := (∃ key, i = .eddiff key) ∨ i.codeword? ≠ none

/-- No other command is one of them. -/
theorem Decodes.ne {i : Instr} (h : Decodes i) :
    (∀ key, i ≠ .htbuild key) ∧ i ≠ .bsextract ∧ i ≠ .prinit ∧ i ≠ .prsample ∧ i ≠ .prscan ∧ i ≠ .scan := by
  rcases h with ⟨key, rfl⟩ | h
  · simp
  · refine ⟨fun key => ?_, ?_, ?_, ?_, ?_, ?_⟩ <;> rintro rfl <;> exact h rfl

/-- What an instruction can turn the state `s` into, one constructor per way it can end. -/
inductive Effect (s : State) : Instr → State → Prop
  /-- The fault gate is closed (60_exceptions R215). -/
  | blocked {i : Instr} (hf : s.fault ≠ 0) : Effect s i s
  /-- CheckCLT refused the code-length table (40_huffman_builder R102). -/
  | tableRefused (key : Byte) (n : Nat) : Effect s (.htbuild key) (raise .badParam n s)
  /-- HTBUILD wrote its slot. -/
  | built (key : Byte) : Effect s (.htbuild key) (setSlot key (tableOf (symbolEntries s)) s)
  /-- BLEN is beyond the capacity (41_bitstream_extractor R121). -/
  | bytesRefused {i : Instr} (hi : i = .bsextract ∨ i = .scan) (hb : ¬ BlenFits s) :
      Effect s i (raise .badParam 3 s)
  /-- BSEXTRACT stored its extraction. -/
  | extracted (hb : BlenFits s) : Effect s .bsextract (storeExtraction (extract s s.bcur) s)
  /-- EDDIFF, or a codeword executed alone, consumed bits. -/
  | decoded {i : Instr} {t : State} (hi : Decodes i) (h : DecodeEffect s t) :
      Effect s i t
  /-- PRINIT emptied the buffer. -/
  | emptied : Effect s .prinit { s with slen := 0 }
  /-- PRSAMPLE or PRSCAN ran its Steps. -/
  | reconstructed {i : Instr} {t : State} (hi : i = .prsample ∨ i = .prscan) (h : Scanned s t) : Effect s i t
  /-- SCAN extracted, emptied the buffer and ran its Steps (43_predictive_reconstructor R179). -/
  | rescanned {t : State} (hb : BlenFits s) (h : Scanned (afterExtraction s) t) : Effect s .scan t

theorem htbuildBody_effect (key : Byte) (s : State) : Effect s (.htbuild key) (htbuildBody key s).state := by
  unfold htbuildBody
  split
  · exact .tableRefused key 1
  · split
    · exact .tableRefused key 2
    · exact .built key

theorem bsextractBody_refused {s : State} (h : ¬ BlenFits s) : bsextractBody s = Res.raise .badParam 3 s := by
  rw [← blenTooLong_iff, Bool.not_eq_false] at h
  exact if_pos h

theorem bsextractBody_fits {s : State} (h : BlenFits s) :
    bsextractBody s = .ok () (storeExtraction (extract s s.bcur) s) := by
  rw [← blenTooLong_iff] at h
  simp [bsextractBody, h]

theorem bsextractBody_effect (s : State) : Effect s .bsextract (bsextractBody s).state := by
  by_cases h : BlenFits s
  · rw [bsextractBody_fits h]; exact .extracted h
  · rw [bsextractBody_refused h]; exact .bytesRefused (.inl rfl) h

/-- SCAN on bytes that fit is PRSCAN after the extraction and the emptying (43_predictive_reconstructor R179). -/
theorem scanBody_fits {s : State} (h : BlenFits s) : scanBody s = prscanBody (afterExtraction s) := by
  rw [scanBody, bsextractBody_fits h]; rfl

theorem scanBody_effect (s : State) : Effect s .scan (scanBody s).state := by
  by_cases h : BlenFits s
  · rw [scanBody_fits h]; exact .rescanned h (scanned_prscan _)
  · rw [scanBody, bsextractBody_refused h]; exact .bytesRefused (.inr rfl) h

theorem codewordBody_effect {i : Instr} {ssss code v : Nat} (hc : i.codeword? = some (ssss, code, v)) (s : State) :
    Effect s i (instrBody i s).state := by
  rw [instrBody_codeword hc]
  exact .decoded (.inr (by simp [hc])) (codeword_end ssss _ v s)

theorem instrBody_effect (i : Instr) (s : State) : Effect s i (instrBody i s).state := by
  cases i with
  | htbuild key => exact htbuildBody_effect key s
  | bsextract => exact bsextractBody_effect s
  | eddiff key => exact .decoded (.inl ⟨key, rfl⟩) (eddiff_end key s)
  | prinit => exact .emptied
  | prsample => exact .reconstructed (.inl rfl) (scanned_prsample s)
  | prscan => exact .reconstructed (.inr rfl) (scanned_prscan s)
  | scan => exact scanBody_effect s
  | _ => exact codewordBody_effect rfl s

/-- Everything an instruction can do. -/
theorem exec_effect {i : Instr} {s t : State} (h : exec i s = .next t) : Effect s i t := by
  rw [exec_eq_gated] at h
  rcases gated_cases h with ⟨-, rfl⟩ | ⟨hf, rfl⟩
  · exact instrBody_effect i s
  · exact .blocked hf

/-! ### The writers of each register and space (10_state R20) -/

/-- Settles O15: every way an instruction can end writes only what its row of R20 lists. -/
theorem eachStateHasOnlyItsWriters : Obligations.EachStateHasOnlyItsWriters := by
  unfold Obligations.EachStateHasOnlyItsWriters
  intro i s t h
  cases exec_effect h with
  | blocked | tableRefused | built | bytesRefused | extracted | emptied => simp [SameInputs]
  | decoded hi hd =>
    rw [hd.eq]
    have keepsDiff : (∀ key, i ≠ .eddiff key) → i.codeword? = none → t.diff = s.diff := fun h1 h2 =>
      hi.elim (fun ⟨key, e⟩ => absurd e (h1 key)) (absurd h2)
    simpa [SameInputs, hi.ne] using keepsDiff
  | reconstructed hi hs =>
    rw [hs.eq]
    rcases hi with rfl | rfl <;> simp [SameInputs]
  | rescanned hb hs =>
    rw [hs.eq]
    simp [SameInputs, afterExtraction]

/-- Settles O16: only the extraction puts BITPOS back, to 0, and every decode stops at BITLEN. -/
theorem bitCursorNeverRewound : Obligations.BitCursorNeverRewound := by
  unfold Obligations.BitCursorNeverRewound
  intro i s t h
  cases exec_effect h with
  | blocked | tableRefused | built | bytesRefused | extracted | emptied => simp
  | decoded hi hd =>
    obtain ⟨lo, hi⟩ := hd.bitpos_le
    have hl : t.bitlen = s.bitlen := by rw [hd.eq]
    exact ⟨fun _ _ => lo, fun _ => by omega⟩
  | reconstructed hi hs =>
    have hl : t.bitlen = s.bitlen := by rw [hs.eq]
    exact ⟨fun _ _ => hs.lo, fun _ => by have := hs.hi; omega⟩
  | rescanned hb hs =>
    have hl : t.bitlen = (afterExtraction s).bitlen := by rw [hs.eq]
    have h0 : (afterExtraction s).bitpos = 0 := rfl
    exact ⟨fun _ hi => absurd rfl hi, fun _ => by have := hs.hi; omega⟩

/-- Settles O55: the samples of a run of Steps are those it kept and those it reconstructed modulo 2^P. -/
theorem appendedSamplesFitPrecision : Obligations.AppendedSamplesFitPrecision := by
  unfold Obligations.AppendedSamplesFitPrecision
  intro i s t hf h
  cases exec_effect h with
  | blocked hb => exact absurd hf hb
  | tableRefused | built | extracted | emptied => simp
  | bytesRefused hi hb => exact ⟨by rcases hi with rfl | rfl <;> simp, fun _ hb' => absurd hb' hb⟩
  | decoded hi hd => simp [hi.ne]
  | reconstructed hi hs =>
    refine ⟨fun _ => ⟨hs.slen_le, hs.bound.symm, hs.old, hs.new⟩, fun hi' => ?_⟩
    subst hi'; simp at hi
  | rescanned hb hs =>
    refine ⟨by simp, fun _ _ => ⟨?_, fun n hn => hs.new n (Nat.zero_le n) hn⟩⟩
    rcases hs.bound with h0 | hle
    · rw [h0]; exact Nat.zero_le _
    · exact hle

end Sys2Proof.Machine
end

section
/-! SUPPORT. The invariant: it holds at reset, and each way a step can end keeps it. -/

namespace Sys2Proof.Machine

/-- After a reset with legal parameters the invariant holds: every space is empty (10_state R49). -/
theorem inv_resetWith {p : Params} (hp : p.wf = true) (session : Nat) (host : List HostOp) :
    Inv (State.resetWith p session host) where
  params := hp
  bytes_wf := rfl
  bits_wf := rfl
  samp_wf := rfl
  cltSym_wf := rfl
  ht_wf := rfl
  cursor := le_refl 0
  bits_written i hi := absurd hi (Nat.not_lt_zero i)
  samples_written i hi := absurd hi (Nat.not_lt_zero i)
  tables _ _ h := nomatch h
  fault := by simp [State.resetWith, faultCodes]
  bytes_cap _ _ := ⟨Nat.zero_le _, fun _ h => nomatch h⟩
  samp_cap _ _ := Nat.zero_le _

/-- Settles O3: the default parameters are legal, and a reset leaves nothing else to check. -/
theorem invariantHoldsAtReset : Obligations.InvariantHoldsAtReset := by
  unfold Obligations.InvariantHoldsAtReset
  exact inv_resetWith (by decide) 0 []

/-! ### The updates -/

/-- The pending operations are no part of the invariant. -/
theorem Inv.withHost {s : State} (h : Inv s) (host : List HostOp) : Inv { s with host := host } := { h with }

/-- Moving the bit cursor within the bit sequence and raising a fault of the CORE. -/
theorem Inv.bitsConsumed {s t : State} (h : Inv s) (hc : BitsConsumed s t) (hf : t.fault ∈ faultCodes) : Inv t := by
  obtain ⟨e, -, hi⟩ := hc
  have hcur := h.cursor
  have hle : t.bitpos ≤ s.bitlen := by omega
  rw [e]
  exact { h with cursor := hle, fault := hf }

theorem Inv.raise {s : State} (h : Inv s) {f : FaultCode} (n : Nat) (hf : f ≠ .neighbor) :
    Inv (Machine.raise f n s) :=
  h.bitsConsumed (bitsConsumed_raise f n s) (code_mem_faultCodes hf)

theorem Inv.withDiff {s : State} (h : Inv s) (d : BitVec 18) : Inv { s with diff := d } := { h with }

theorem Inv.emptied {s : State} (h : Inv s) : Inv { s with slen := 0 } :=
  { h with
    samples_written := fun i hi => absurd hi (Nat.not_lt_zero i)
    samp_cap := fun _ _ => Nat.zero_le _ }

theorem Inv.setSlot {s : State} (h : Inv s) (key : Byte) {table : HuffTable} (hw : WfTable table) :
    Inv (Machine.setSlot key table s) :=
  { h with
    ht_wf := Memory.write_wf h.ht_wf _ _
    tables := fun k tab hr => by
      rw [setSlot_ht, Memory.read_write] at hr
      split at hr
      · next hk => cases hr; exact ⟨hk ▸ key.isLt, hw⟩
      · exact h.tables k tab hr }

/-- Every byte gives at most eight bits (41_bitstream_extractor R128). -/
theorem length_extract_le (s : State) (start : Nat) : (extract s start).out.length ≤ 8 * (s.blen - start) := by
  refine extract_induct (p := fun i e => e.out.length ≤ 8 * (s.blen - i)) ?_ ?_ ?_ ?_ start
  · intro i _; exact Nat.zero_le _
  · intro i b e hi he
    simp only [Extraction.emit, List.length_append, length_bits8]; omega
  · intro i e hi he
    simp only [Extraction.emit, List.length_append, length_bits8]; omega
  · intro i _ _ _; exact Nat.zero_le _

theorem Inv.extracted {s : State} (h : Inv s) (hb : BlenFits s) :
    Inv (storeExtraction (extract s s.bcur) s) :=
  { h with
    bits_wf := Memory.writeList_wf h.bits_wf _ _
    cursor := Nat.zero_le _
    bits_written := fun i hi => by
      rw [storeExtraction_bitlen] at hi
      rw [read_storeExtraction, if_pos hi, List.getElem?_eq_getElem hi]
      rfl
    bytes_cap := fun cap hcap => by
      refine ⟨?_, (h.bytes_cap cap hcap).2⟩
      have hlen := length_extract_le s s.bcur
      have hfit := hb cap hcap
      rw [storeExtraction_bitlen]; omega }

theorem stepFaults_subset : stepFaults ⊆ faultCodes := by decide

theorem decodeFaults_subset : decodeFaults ⊆ faultCodes := by decide

theorem Inv.scanned {s t : State} (h : Inv s) (hs : Scanned s t) : Inv t := by
  have hcur := h.cursor
  have hhi := hs.hi
  have hle : t.bitpos ≤ s.bitlen := by omega
  have hfault : t.fault ∈ faultCodes := by
    rcases hs.fault with ⟨e, -⟩ | hf
    · rw [e]; exact h.fault
    · exact stepFaults_subset hf
  have hwritten : ∀ i < t.slen, (t.samp.read i).isSome = true := by
    intro i hi
    rcases Nat.lt_or_ge i s.slen with hlt | hge
    · rw [hs.old i hlt]; exact h.samples_written i hlt
    · obtain ⟨v, hv, -⟩ := hs.new i hge hi
      rw [hv]; rfl
  have hcap : ∀ cap, s.params.sampCap = some cap → t.slen ≤ cap := by
    intro cap hc
    by_cases heq : t.slen = s.slen
    · rw [heq]; exact h.samp_cap cap hc
    · obtain ⟨-, -, -, -, hfit, -⟩ := hs.legal heq
      exact (hs.bound.resolve_left heq).trans (hfit cap hc)
  rw [hs.eq]
  exact { h with
    samp_wf := hs.wf h.samp_wf, cursor := hle, samples_written := hwritten, fault := hfault, samp_cap := hcap }

theorem Inv.decoded {s t : State} (h : Inv s) (hd : DecodeEffect s t) : Inv t := by
  have hfault : t.fault ∈ faultCodes := by
    rcases hd.fault with e | hf
    · rw [e]; exact h.fault
    · exact decodeFaults_subset hf
  obtain ⟨u, d, rfl, hc, -⟩ := hd
  exact (h.bitsConsumed hc hfault).withDiff d

/-- Every instruction keeps the invariant. -/
theorem Inv.exec {i : Instr} {s t : State} (h : Inv s) (he : Machine.exec i s = .next t) : Inv t := by
  cases exec_effect he with
  | blocked => exact h
  | tableRefused => exact h.raise _ (by decide)
  | built key => exact h.setSlot key (wf_tableOf s)
  | bytesRefused => exact h.raise _ (by decide)
  | extracted hb => exact h.extracted hb
  | decoded _ hd => exact h.decoded hd
  | emptied => exact h.emptied
  | reconstructed _ hs => exact h.scanned hs
  | rescanned hb hs => exact (h.extracted hb).emptied.scanned hs

/-! ### The host's operations -/

theorem Inv.withCltSym {s : State} (h : Inv s) (k : Nat) (v : Byte) :
    Inv { s with cltSym := s.cltSym.write k v } :=
  { h with cltSym_wf := Memory.write_wf h.cltSym_wf k v }

theorem Inv.withBytes {s : State} (h : Inv s) {i : Nat} (hi : belowCap s.params.bytesCap i = true) (v : Byte) :
    Inv { s with bytes := s.bytes.write i v } :=
  { h with
    bytes_wf := Memory.write_wf h.bytes_wf i v
    bytes_cap := fun cap hcap => by
      refine ⟨(h.bytes_cap cap hcap).1, fun j hj => ?_⟩
      rw [Memory.read_write] at hj
      split at hj
      · next e => rw [e]; exact belowCap_iff.mp hi cap hcap
      · exact (h.bytes_cap cap hcap).2 j hj }

/-- Every HostWrite keeps the invariant: only CLT_SYM and BYTES are spaces it speaks of. -/
theorem Inv.hostStore {s : State} (h : Inv s) (op : HostOp) : Inv (Machine.hostStore op s) := by
  cases op with
  | writeScnTsel c v => rw [hostStore_scnTsel]; split; exacts [{ h with }, h]
  | writeCltCnt len v => rw [hostStore_cltCnt]; split; exacts [{ h with }, h]
  | writeCltSym len i v => rw [hostStore_cltSym]; split; exacts [h.withCltSym _ v, h]
  | writeBytes i v =>
    rw [hostStore_bytes]
    split
    · next hi => exact h.withBytes hi v
    · exact h
  | _ => exact { h with }

theorem issue_rejects {s : State} {w : Word} {e : IllegalWord} (h : s.fault = 0) (hd : decode w = .error e) :
    issue w s = .next (rejectWord w s) := by
  rw [issue, if_pos h, hd]

/-- A CMD write keeps the invariant, whether its word is a command or not. -/
theorem Inv.issue {w : Word} {s t : State} (h : Inv s) (hi : Machine.issue w s = .next t) : Inv t := by
  by_cases hf : s.fault = 0
  · cases hd : decode w with
    | ok i => exact h.exec (issue_ok hf hd ▸ hi)
    | error e =>
      cases (issue_rejects hf hd).symm.trans hi
      exact h.raise _ (by decide)
  · cases (issue_blocked w hf).symm.trans hi
    exact h

theorem Inv.hostStep {op : HostOp} {s t : State} (h : Inv s) (ho : Machine.hostStep op s = .next t) : Inv t := by
  cases op with
  | cmd w => exact h.issue ho
  | reset => cases ho; exact inv_resetWith h.params _ _
  | _ => cases ho; exact h.hostStore _

/-- Settles O4: a step carries out one host operation, and each kind of operation keeps the invariant. -/
theorem everyStepKeepsInvariant : Obligations.EveryStepKeepsInvariant := by
  unfold Obligations.EveryStepKeepsInvariant
  intro s t h hst
  cases hh : s.host with
  | nil => cases (step_idle hh).symm.trans hst; exact h
  | cons op rest => exact (h.withHost rest).hostStep (step_op hh ▸ hst)

end Sys2Proof.Machine
end

section
/-! SUPPORT. Two runs side by side, from states that differ at most in cells beyond BITLEN and SLEN (10_state R44,
R45; 20_memory R53). -/

namespace Sys2Proof.Machine

/-! ### The relation -/

/-- The related states of `s` are `s` with other cells beyond the lengths. -/
theorem sameBelowLengths_iff {s s' : State} : SameBelowLengths s s' ↔
    ∃ b m, s' = { s with bits := b, samp := m } ∧
      (∀ n < s.bitlen, b.read n = s.bits.read n) ∧ ∀ n < s.slen, m.read n = s.samp.read n := by
  constructor
  · rintro ⟨e, hb, hm⟩; exact ⟨_, _, e, hb, hm⟩
  · rintro ⟨b, m, rfl, hb, hm⟩; exact ⟨rfl, hb, hm⟩

/-- An update that neither reads nor writes the two spaces, and lengthens neither, keeps the relation. -/
theorem SameBelowLengths.update {s s' : State} (h : SameBelowLengths s s') {f : State → State}
    (hcomm : ∀ b m, f { s with bits := b, samp := m } = { f s with bits := b, samp := m })
    (hbits : (f s).bits = s.bits) (hsamp : (f s).samp = s.samp)
    (hbitlen : (f s).bitlen ≤ s.bitlen) (hslen : (f s).slen ≤ s.slen) : SameBelowLengths (f s) (f s') := by
  obtain ⟨b, m, rfl, hb, hm⟩ := sameBelowLengths_iff.mp h
  refine sameBelowLengths_iff.mpr ⟨b, m, hcomm b m, fun n hn => ?_, fun n hn => ?_⟩
  · rw [hbits]; exact hb n (hn.trans_le hbitlen)
  · rw [hsamp]; exact hm n (hn.trans_le hslen)

theorem SameBelowLengths.bitAt {s s' : State} (h : SameBelowLengths s s') {n : Nat} (hn : n < s.bitlen) :
    Machine.bitAt s' n = Machine.bitAt s n := by
  obtain ⟨b, m, rfl, hb, -⟩ := sameBelowLengths_iff.mp h
  simp [Machine.bitAt, hb n hn]

theorem SameBelowLengths.sampleAt {s s' : State} (h : SameBelowLengths s s') {n : Nat} (hn : n < s.slen) :
    Machine.sampleAt s' n = Machine.sampleAt s n := by
  obtain ⟨b, m, rfl, -, hm⟩ := sameBelowLengths_iff.mp h
  simp [Machine.sampleAt, hm n hn]

/-- What is read outside the two spaces is the same in both states. -/
theorem SameBelowLengths.reads {s s' : State} (h : SameBelowLengths s s') {α : Type} {f : State → α}
    (hf : ∀ b m, f { s with bits := b, samp := m } = f s) : f s' = f s := by
  obtain ⟨b, m, rfl, -, -⟩ := sameBelowLengths_iff.mp h
  exact hf b m

/-- The extraction rests on BYTES and BLEN alone (41_bitstream_extractor R122). -/
theorem extract_congr {s s' : State} (hbyte : byteAt s' = byteAt s) (hblen : s'.blen = s.blen) (start : Nat) :
    extract s' start = extract s start := by
  have hloop : ∀ fuel i, extractLoop s' fuel i = extractLoop s fuel i := by
    intro fuel
    induction fuel with
    | zero => intro i; rfl
    | succ n ih => intro i; simp only [extractLoop, hbyte, hblen, ih]
  rw [extract, extract, hblen, hloop]

/-! ### Procedures -/

/-- Two procedures end alike: with the same value or both with a fault, and in related states. -/
def EndAlike {α : Type} : Res α → Res α → Prop
  | .ok a t, .ok b t' => a = b ∧ SameBelowLengths t t'
  | .raised t, .raised t' => SameBelowLengths t t'
  | _, _ => False

theorem EndAlike.state {α : Type} {r r' : Res α} (h : EndAlike r r') : SameBelowLengths r.state r'.state := by
  cases r <;> cases r'
  · exact h.2
  · exact h.elim
  · exact h.elim
  · exact h

theorem EndAlike.bind {α β : Type} {r r' : Res α} {k k' : α → State → Res β} (h : EndAlike r r')
    (hk : ∀ a t t', SameBelowLengths t t' → EndAlike (k a t) (k' a t')) :
    EndAlike (r.bind k) (r'.bind k') := by
  cases r <;> cases r'
  · obtain ⟨rfl, ht⟩ := h; exact hk _ _ _ ht
  · exact h.elim
  · exact h.elim
  · exact h

theorem SameBelowLengths.raise {s s' : State} (h : SameBelowLengths s s') (f : FaultCode) (n : Nat) :
    SameBelowLengths (Machine.raise f n s) (Machine.raise f n s') :=
  h.update (fun _ _ => rfl) rfl rfl (le_refl _) (le_refl _)

theorem endAlike_raise {α : Type} {s s' : State} (h : SameBelowLengths s s') (f : FaultCode) (n : Nat) :
    EndAlike (Res.raise f n s : Res α) (Res.raise f n s') := h.raise f n

theorem endAlike_ok {α : Type} {s s' : State} (h : SameBelowLengths s s') (a : α) :
    EndAlike (.ok a s) (.ok a s') := ⟨rfl, h⟩

/-! ### The entropy decoder -/

section
variable {s s' : State} (h : SameBelowLengths s s')
include h

theorem endAlike_nextBit : EndAlike (nextBit s) (nextBit s') := by
  have hpos : s'.bitpos = s.bitpos := h.reads fun _ _ => rfl
  have hlen : s'.bitlen = s.bitlen := h.reads fun _ _ => rfl
  rcases Nat.lt_or_ge s.bitpos s.bitlen with hlt | hge
  · rw [nextBit_ok hlt, nextBit_ok (by rw [hpos, hlen]; exact hlt), hpos, h.bitAt hlt]
    exact endAlike_ok (h.update (f := fun u => { u with bitpos := s.bitpos + 1 })
      (fun _ _ => rfl) rfl rfl (le_refl _) (le_refl _)) _
  · rw [nextBit_exhausted hge, nextBit_exhausted (by rw [hpos, hlen]; exact hge), hpos]
    exact endAlike_raise h _ _

theorem endAlike_takeBits (n acc : Nat) : EndAlike (takeBits n acc s) (takeBits n acc s') := by
  induction n generalizing acc s s' with
  | zero => exact endAlike_ok h acc
  | succ n ih => exact (endAlike_nextBit h).bind fun b t t' ht => ih ht _

theorem endAlike_searchCode (map : CodeMap) (n acc : Nat) :
    EndAlike (searchCode map n acc s) (searchCode map n acc s') := by
  induction n generalizing acc s s' with
  | zero => exact endAlike_ok h none
  | succ n ih =>
    refine (endAlike_nextBit h).bind fun b t t' ht => ?_
    split
    · exact endAlike_ok ht _
    · exact ih ht _

theorem endAlike_finishDiff (found : Option Symbol) : EndAlike (finishDiff found s) (finishDiff found s') := by
  cases found with
  | none =>
    have hpos : s'.bitpos = s.bitpos := h.reads fun _ _ => rfl
    rw [finishDiff, finishDiff, hpos]
    exact endAlike_raise h _ _
  | some ssss => exact (endAlike_takeBits h _ _).bind fun v t t' ht => endAlike_ok ht _

theorem endAlike_decodeDiff (key : Byte) : EndAlike (decodeDiff key s) (decodeDiff key s') := by
  have hslot : slot s' key = slot s key := h.reads (f := fun u => slot u key) fun _ _ => rfl
  rw [decodeDiff, decodeDiff, hslot]
  split
  · exact endAlike_raise h _ _
  · split
    · exact endAlike_raise h _ _
    · exact (endAlike_takeBits h _ _).bind fun acc t t' ht =>
        (endAlike_searchCode ht _ _ _).bind fun found u u' hu => endAlike_finishDiff hu found

theorem SameBelowLengths.setDiff (d : Int) : SameBelowLengths (Machine.setDiff d s) (Machine.setDiff d s') :=
  h.update (fun _ _ => rfl) rfl rfl (le_refl _) (le_refl _)

theorem endAlike_eddiffBody (key : Byte) : EndAlike (eddiffBody key s) (eddiffBody key s') :=
  (endAlike_decodeDiff h key).bind fun d _ _ ht => endAlike_ok (ht.setDiff d) ()

theorem endAlike_codewordBody (ssss : Nat) (code : BitVec 17) (v : Nat) :
    EndAlike (codewordBody ssss code v s) (codewordBody ssss code v s') :=
  (endAlike_takeBits h _ _).bind fun _ _ _ ht => endAlike_ok (ht.setDiff _) ()

/-! ### The builder and the extractor -/

theorem endAlike_htbuildBody (key : Byte) : EndAlike (htbuildBody key s) (htbuildBody key s') := by
  have hcount : badCount s' = badCount s := h.reads fun _ _ => rfl
  have hsymbol : badSymbol s' = badSymbol s := h.reads fun _ _ => rfl
  have hentries : symbolEntries s' = symbolEntries s := h.reads fun _ _ => rfl
  rw [htbuildBody, htbuildBody, hcount, hsymbol, hentries]
  split
  · exact endAlike_raise h _ _
  · split
    · exact endAlike_raise h _ _
    · exact endAlike_ok (h.update (f := setSlot key _) (fun _ _ => rfl) rfl rfl (le_refl _) (le_refl _)) ()

theorem SameBelowLengths.extract (i : Nat) : Machine.extract s' i = Machine.extract s i :=
  extract_congr (h.reads fun _ _ => rfl) (h.reads fun _ _ => rfl) i

/-- After an extraction the valid bits are the extracted ones, whatever the cells held before. -/
theorem SameBelowLengths.storeExtraction (e : Extraction) :
    SameBelowLengths (Machine.storeExtraction e s) (Machine.storeExtraction e s') := by
  obtain ⟨b, m, rfl, hb, hm⟩ := sameBelowLengths_iff.mp h
  refine sameBelowLengths_iff.mpr ⟨b.writeList 0 e.out, m, rfl, fun n hn => ?_, hm⟩
  have hlt : 0 ≤ n ∧ n < 0 + e.out.length := ⟨Nat.zero_le n, by simpa using hn⟩
  rw [storeExtraction_bits, Memory.read_writeList, Memory.read_writeList, if_pos hlt, if_pos hlt]

theorem endAlike_bsextractBody : EndAlike (bsextractBody s) (bsextractBody s') := by
  have hlong : blenTooLong s' = blenTooLong s := h.reads fun _ _ => rfl
  have hcur : s'.bcur = s.bcur := h.reads fun _ _ => rfl
  rw [bsextractBody, bsextractBody, hlong, hcur, h.extract]
  split
  · exact endAlike_raise h _ _
  · exact endAlike_ok (h.storeExtraction _) ()

/-! ### The reconstructor -/

/-- A neighbour lies below SLEN, when its offset is not 0. -/
theorem SameBelowLengths.neighbour {offset : Nat} (ho : 0 < offset) :
    Machine.neighbour s' offset = Machine.neighbour s offset := by
  have hslen : s'.slen = s.slen := h.reads fun _ _ => rfl
  rw [Machine.neighbour, Machine.neighbour, hslen]
  split
  · rfl
  · rw [h.sampleAt (by omega)]

/-- While a sample is owed the prediction rests on samples below SLEN (43_predictive_reconstructor R167, R168). -/
theorem SameBelowLengths.predict (hlt : s.slen < totalSamples s) : Machine.predict s' = Machine.predict s := by
  have hnc := frmNc_pos hlt
  have hline : 0 < s.frmW.toNat * s.frmNc.toNat := Nat.mul_pos (frmW_pos hlt) hnc
  have hW : s'.frmW = s.frmW := h.reads fun _ _ => rfl
  have hNc : s'.frmNc = s.frmNc := h.reads fun _ _ => rfl
  have hSs : s'.scnSs = s.scnSs := h.reads fun _ _ => rfl
  have hcol : column s' = column s := h.reads fun _ _ => rfl
  have hrow : row s' = row s := h.reads fun _ _ => rfl
  have horigin : originConstant s' = originConstant s := h.reads fun _ _ => rfl
  have hleft : leftNeighbour s' = leftNeighbour s := by
    rw [leftNeighbour, hNc]; exact h.neighbour hnc
  have habove : aboveNeighbour s' = aboveNeighbour s := by
    rw [aboveNeighbour, hW, hNc]; exact h.neighbour hline
  have haboveLeft : aboveLeftNeighbour s' = aboveLeftNeighbour s := by
    rw [aboveLeftNeighbour, hW, hNc]; exact h.neighbour (by omega)
  rw [Machine.predict, Machine.predict, hSs, hcol, hrow, horigin, hleft, habove, haboveLeft]

theorem SameBelowLengths.appendSample (v : Sample) :
    SameBelowLengths (Machine.appendSample v s) (Machine.appendSample v s') := by
  obtain ⟨b, m, rfl, hb, hm⟩ := sameBelowLengths_iff.mp h
  refine sameBelowLengths_iff.mpr ⟨b, m.write s.slen v, rfl, hb, fun n hn => ?_⟩
  rw [appendSample_slen] at hn
  rw [appendSample_samp, Memory.read_write, Memory.read_write]
  split
  · rfl
  · exact hm n (by omega)

theorem endAlike_reconstructStep : EndAlike (reconstructStep s) (reconstructStep s') := by
  have hslen : s'.slen = s.slen := h.reads fun _ _ => rfl
  have htotal : totalSamples s' = totalSamples s := h.reads fun _ _ => rfl
  have hcheck : checkScan s' = checkScan s := h.reads fun _ _ => rfl
  have hNs : s'.scnNs = s.scnNs := h.reads fun _ _ => rfl
  have hP : s'.frmP = s.frmP := h.reads fun _ _ => rfl
  have hcomp : component s' = component s := h.reads fun _ _ => rfl
  have hkey : tableKey s' (component s) = tableKey s (component s) :=
    h.reads (f := fun u => tableKey u (component s)) fun _ _ => rfl
  rw [reconstructStep, reconstructStep, hslen, htotal, hcheck, hNs, hP, hcomp, hkey]
  split
  · exact endAlike_ok h false
  · next hne =>
    cases hc : checkScan s with
    | some p => exact endAlike_raise h _ _
    | none =>
      obtain ⟨-, -, -, -, -, hle⟩ := checkScan_eq_none.mp hc
      rw [h.predict (lt_of_le_of_ne hle hne)]
      obtain ⟨pred, hp⟩ := predict_isSome s
      simp only [hp]
      split
      · exact endAlike_raise h _ _
      · exact (endAlike_decodeDiff h _).bind fun d t t' ht => endAlike_ok (ht.appendSample _) true

theorem endAlike_prsampleBody : EndAlike (prsampleBody s) (prsampleBody s') :=
  (endAlike_reconstructStep h).bind fun _ _ _ ht => endAlike_ok ht ()

theorem endAlike_scanLoop (fuel : Nat) : EndAlike (scanLoop fuel s) (scanLoop fuel s') := by
  induction fuel generalizing s s' with
  | zero => exact endAlike_ok h ()
  | succ n ih =>
    refine (endAlike_reconstructStep h).bind fun appended t t' ht => ?_
    split
    · exact ih ht
    · exact endAlike_ok ht ()

theorem endAlike_prscanBody : EndAlike (prscanBody s) (prscanBody s') := by
  have hfuel : totalSamples s' - s'.slen = totalSamples s - s.slen :=
    h.reads (f := fun u => totalSamples u - u.slen) fun _ _ => rfl
  rw [prscanBody, prscanBody, hfuel]
  exact endAlike_scanLoop h _

theorem endAlike_prinitBody : EndAlike (prinitBody s) (prinitBody s') :=
  endAlike_ok (h.update (f := fun u => { u with slen := 0 }) (fun _ _ => rfl) rfl rfl (le_refl _) (Nat.zero_le _)) ()

theorem endAlike_scanBody : EndAlike (scanBody s) (scanBody s') :=
  (endAlike_bsextractBody h).bind fun _ _ _ h1 =>
    (endAlike_prinitBody h1).bind fun _ _ _ h2 => endAlike_prscanBody h2

theorem endAlike_instrBody (i : Instr) : EndAlike (instrBody i s) (instrBody i s') := by
  cases i with
  | htbuild key => exact endAlike_htbuildBody h key
  | bsextract => exact endAlike_bsextractBody h
  | eddiff key => exact endAlike_eddiffBody h key
  | prinit => exact endAlike_prinitBody h
  | prsample => exact endAlike_prsampleBody h
  | prscan => exact endAlike_prscanBody h
  | scan => exact endAlike_scanBody h
  | _ => exact endAlike_codewordBody h _ _ _

end

/-- Settles O17: every body runs alike in related states, and the fault gate reads neither space. -/
theorem unusedCellsNeverRead : Obligations.UnusedCellsNeverRead := by
  unfold Obligations.UnusedCellsNeverRead
  intro i s s' t t' h ht ht'
  have hfault : s'.fault = s.fault := h.reads fun _ _ => rfl
  rw [exec_next, Host.Outcome.next.injEq] at ht ht'
  rw [hfault] at ht'
  subst ht ht'
  split
  · exact (endAlike_instrBody h i).state
  · exact h

end Sys2Proof.Machine
end

section
/-! SUPPORT. The state right after reset: what the host reads there, and what each command does (10_state R49). -/

namespace Sys2Proof.Machine

@[simp] theorem tableKey_reset (c : Nat) : tableKey State.reset c = 0 := by
  by_cases hc : c < 255 <;> simp [tableKey, State.reset, State.resetWith, hc]

@[simp] theorem cltCount_reset (len : Nat) : cltCount State.reset len = 0 := by
  by_cases hc : len - 1 < 16 <;> simp [cltCount, State.reset, State.resetWith, hc]

theorem hostRead_scnTsel {s : State} {c : Nat} (h : c < s.params.ncMax) :
    hostRead (.scnTsel c) s = .number (tableKey s c).toNat := if_pos h

theorem hostRead_cltCnt {s : State} {len : Nat} (h : isLength len = true) :
    hostRead (.cltCnt len) s = .number (cltCount s len) := if_pos h

/-- An element of CLT_SYM at or beyond its count has no value (10_state R38). -/
theorem hostRead_cltSym_unused {s : State} {len i : Nat} (h : isLength len = true) (hi : i < 16)
    (hc : cltCount s len ≤ i) : hostRead (.cltSym len i) s = .unspecified := by
  simp [hostRead, h, hi, Nat.not_lt.mpr hc]

/-- EDDIFF of a slot never built raises NO_TABLE with the key (42_entropy_decoder R144). -/
theorem exec_eddiff_noTable {s : State} {key : Byte} (hf : s.fault = 0) (hk : slot s key = none) :
    exec (.eddiff key) s = .next { s with fault := 2, finfo := BitVec.ofNat 40 key.toNat } := by
  have hbody : eddiffBody key s = Res.raise .noTable key.toNat s := by
    rw [eddiffBody, decodeDiff, hk, Res.bind_raise]
  have hkey : key.toNat < 2 ^ 40 := by have := key.isLt; omega
  rw [exec_next, if_pos hf, instrBody, hbody, Res.state_raise, raise, finfoOf_of_lt hkey]
  rfl

/-- Settles O1: most rows are evaluated; the rows over an index follow from the reads of an all-zero register file and
of an empty space. -/
theorem resetStateAndFirstCommands : Obligations.ResetStateAndFirstCommands := by
  unfold Obligations.ResetStateAndFirstCommands
  refine ⟨rfl, rfl, rfl, rfl, rfl, rfl, rfl, ?scnTsel, rfl, rfl, rfl, rfl, rfl, rfl, rfl, rfl, rfl, rfl, rfl,
    ?cltCnt, ?cltSym, ?slots, ?spaces, ?htbuild, rfl, ?eddiff, rfl, rfl, rfl, rfl⟩
  case scnTsel => intro c hc; rw [hostRead_scnTsel hc, tableKey_reset]; rfl
  case cltCnt => intro len h1 h2; rw [hostRead_cltCnt (isLength_iff.mpr ⟨h1, h2⟩), cltCount_reset]; rfl
  case cltSym =>
    intro len i h1 h2 hi
    exact hostRead_cltSym_unused (isLength_iff.mpr ⟨h1, h2⟩) hi (by rw [cltCount_reset]; exact Nat.zero_le i)
  case slots => exact fun key => ⟨rfl, rfl, rfl, fun _ => rfl⟩
  case spaces => exact fun i => ⟨rfl, rfl, rfl⟩
  case htbuild => exact fun key => rfl
  case eddiff => exact fun key => exec_eddiff_noTable rfl rfl

end Sys2Proof.Machine
end

section
/-! SUPPORT. What a HostWrite of one element leaves in that element and in every other one (20_memory R55). -/

namespace Sys2Proof.Machine

/-- Every operation but a CMD write and reset is removed, and then only stores. -/
theorem step_store {s : State} {op : HostOp} {rest : List HostOp} (h : s.host = op :: rest)
    (hcmd : ∀ w, op ≠ .cmd w) (hreset : op ≠ .reset) : step s = .next (hostStore op { s with host := rest }) := by
  rw [step_op h, hostStep_store hcmd hreset]

/-- Within 16 symbols a length, no two elements of CLT_SYM share a place. -/
theorem symIndex_inj {len i len' i' : Nat} (hi : i < 16) (hi' : i' < 16) :
    symIndex len' i' = symIndex len i ↔ len' = len ∧ i' = i := by
  unfold symIndex; omega

theorem tableKey_set {s : State} {c : Nat} (hc : c < 255) (v : Byte) (c' : Nat) :
    tableKey { s with scnTsel := s.scnTsel.setIfInBounds c v } c' = if c' = c then v else tableKey s c' := by
  rw [tableKey, Vector.getElem?_setIfInBounds]
  by_cases h : c' = c
  · simp [h, hc]
  · simp [h, Ne.symm h, tableKey]

theorem cltCount_set {s : State} {len len' : Nat} (h : isLength len = true) (hlen' : 1 ≤ len') (v : Byte) :
    cltCount { s with cltCnt := s.cltCnt.setIfInBounds (len - 1) v } len' =
      if len' = len then v.toNat else cltCount s len' := by
  obtain ⟨h1, h2⟩ := isLength_iff.mp h
  rw [cltCount, Vector.getElem?_setIfInBounds]
  by_cases he : len' = len
  · have hlt : len - 1 < 16 := by omega
    simp [he, hlt]
  · have hne : len - 1 ≠ len' - 1 := by omega
    simp [he, hne, cltCount]

theorem cltSymbol_write {s : State} {len i len' i' : Nat} (hi : i < 16) (hi' : i' < 16) (v : Byte) :
    cltSymbol { s with cltSym := s.cltSym.write (symIndex len i) v } len' i' =
      if len' = len ∧ i' = i then v else cltSymbol s len' i' := by
  rw [cltSymbol, Memory.read_write]
  simp only [symIndex_inj hi hi']
  split <;> rfl

/-! ### One step with an element's write at the head: the element that does not exist, and the one that does -/

section
variable {s : State} {rest : List HostOp}

theorem step_writeScnTsel {c : Nat} {v : Byte} (h : s.host = .writeScnTsel c v :: rest) :
    (s.params.ncMax ≤ c → step s = .next { s with host := rest }) ∧
    (c < s.params.ncMax → c < 255 → ∃ t, step s = .next t ∧ t = { s with host := rest, scnTsel := t.scnTsel } ∧
      tableKey t c = v ∧ ∀ c', c' ≠ c → tableKey t c' = tableKey s c') := by
  rw [step_store h (by simp) (by simp), hostStore_scnTsel]
  constructor
  · intro hc
    rw [if_neg (Nat.not_lt.mpr hc)]
  · intro hc hc255
    rw [if_pos hc]
    exact ⟨_, rfl, rfl, (tableKey_set hc255 v c).trans (if_pos rfl),
      fun c' hne => (tableKey_set hc255 v c').trans (if_neg hne)⟩

theorem step_writeCltCnt {len : Nat} {v : Byte} (h : s.host = .writeCltCnt len v :: rest) :
    (len = 0 ∨ 16 < len → step s = .next { s with host := rest }) ∧
    (1 ≤ len → len ≤ 16 → ∃ t, step s = .next t ∧ t = { s with host := rest, cltCnt := t.cltCnt } ∧
      cltCount t len = v.toNat ∧ ∀ len', 1 ≤ len' → len' ≠ len → cltCount t len' = cltCount s len') := by
  rw [step_store h (by simp) (by simp), hostStore_cltCnt]
  constructor
  · intro hlen
    rw [if_neg (by rw [isLength_iff]; omega)]
  · intro h1 h2
    have hl : isLength len = true := isLength_iff.mpr ⟨h1, h2⟩
    rw [if_pos hl]
    exact ⟨_, rfl, rfl, (cltCount_set hl h1 v).trans (if_pos rfl),
      fun len' hlen' hne => (cltCount_set hl hlen' v).trans (if_neg hne)⟩

theorem step_writeCltSym {len i : Nat} {v : Byte} (h : s.host = .writeCltSym len i v :: rest) :
    (len = 0 ∨ 16 < len ∨ 16 ≤ i → step s = .next { s with host := rest }) ∧
    (1 ≤ len → len ≤ 16 → i < 16 → ∃ t, step s = .next t ∧ t = { s with host := rest, cltSym := t.cltSym } ∧
      cltSymbol t len i = v ∧
      ∀ len' i', i' < 16 → len' ≠ len ∨ i' ≠ i → cltSymbol t len' i' = cltSymbol s len' i') := by
  have hexists : (isLength len && decide (i < 16)) = true ↔ (1 ≤ len ∧ len ≤ 16) ∧ i < 16 := by
    rw [Bool.and_eq_true, isLength_iff, decide_eq_true_iff]
  rw [step_store h (by simp) (by simp), hostStore_cltSym]
  constructor
  · intro hout
    rw [if_neg (by rw [hexists]; omega)]
  · intro h1 h2 hi
    rw [if_pos (hexists.mpr ⟨⟨h1, h2⟩, hi⟩)]
    exact ⟨_, rfl, rfl, (cltSymbol_write hi hi v).trans (if_pos ⟨rfl, rfl⟩),
      fun len' i' hi' hne => (cltSymbol_write hi hi' v).trans (if_neg (not_and_or.mpr hne))⟩

theorem step_writeBytes {i : Nat} {v : Byte} (h : s.host = .writeBytes i v :: rest) :
    (∀ cap, s.params.bytesCap = some cap → cap ≤ i → step s = .next { s with host := rest }) ∧
    ((∀ cap, s.params.bytesCap = some cap → i < cap) → ∃ t, step s = .next t ∧
      t = { s with host := rest, bytes := t.bytes } ∧
      t.bytes.read i = some v ∧ ∀ i', i' ≠ i → t.bytes.read i' = s.bytes.read i') := by
  rw [step_store h (by simp) (by simp), hostStore_bytes]
  constructor
  · intro cap hcap hle
    have hout : ¬ belowCap s.params.bytesCap i = true := fun hb =>
      absurd (belowCap_iff.mp hb cap hcap) (Nat.not_lt.mpr hle)
    rw [if_neg hout]
  · intro hin
    rw [if_pos (belowCap_iff.mpr hin)]
    exact ⟨_, rfl, rfl, Memory.read_write_same _ i v, fun i' hne => Memory.read_write_ne _ v hne⟩

end

/-- Settles O60: a write of a whole register, of another target, and a read are `step_op` evaluated at that operation;
each indexed space has its own step lemma. -/
theorem hostWritesOnlyItsTarget : Obligations.HostWritesOnlyItsTarget := by
  unfold Obligations.HostWritesOnlyItsTarget
  intro s rest
  exact ⟨fun _ h => step_op h, fun _ h => step_op h, fun _ h => step_op h, fun _ h => step_op h,
    fun _ h => step_op h, fun _ h => step_op h, fun _ h => step_op h, fun _ h => step_op h, fun _ h => step_op h,
    fun _ _ h => step_writeScnTsel h, fun _ _ h => step_writeCltCnt h, fun _ _ _ h => step_writeCltSym h,
    fun _ _ h => step_writeBytes h, fun _ h => step_op h, fun _ h => step_op h⟩

end Sys2Proof.Machine
end

section
/-! SUPPORT. The command word (30_encoding R70 to R73, R87, R93): its two fields, decoding against encoding, and the
words that are no command. -/

namespace Sys2Proof

/-! ### The fields -/

@[simp] theorem opField_commandWord (op imm : Byte) : opField (commandWord op imm) = op :=
  BitVec.extractLsb'_append_eq_left

@[simp] theorem immField_commandWord (op imm : Byte) : immField (commandWord op imm) = imm :=
  BitVec.extractLsb'_append_eq_right

/-- A word is made of its two fields. -/
theorem commandWord_fields (w : Word) : commandWord (opField w) (immField w) = w :=
  (BitVec.extractLsb'_append_extractLsb'_eq_extractLsb' rfl).trans BitVec.extractLsb'_eq_self

theorem commandWord_eq_iff {op imm : Byte} {w : Word} :
    commandWord op imm = w ↔ op = opField w ∧ imm = immField w := by
  constructor
  · rintro rfl; simp
  · rintro ⟨rfl, rfl⟩; exact commandWord_fields w

theorem immField_eq_setWidth (w : Word) : immField w = w.setWidth 8 :=
  (BitVec.setWidth_eq_extractLsb' (by decide)).symm

/-- The mask 0xFF00 of R72 keeps op and clears imm8. -/
theorem and_opMask (w : Word) : w &&& 0xFF00 = commandWord (opField w) 0#8 := by
  have hmask : (0xFF00 : Word) = BitVec.allOnes 8 ++ 0#8 := by decide
  conv_lhs => rw [← commandWord_fields w, hmask, commandWord]
  rw [BitVec.and_append, BitVec.and_allOnes, BitVec.and_zero]
  rfl

/-- Mask and match of a row with a key (30_encoding R72). -/
theorem commandWord_eq_iff_mask {op key : Byte} {w : Word} :
    commandWord op key = w ↔ w &&& 0xFF00 = commandWord op 0#8 ∧ key = w.setWidth 8 := by
  rw [and_opMask, commandWord_eq_iff, commandWord_eq_iff, opField_commandWord, immField_commandWord,
    immField_eq_setWidth]
  simp [eq_comm]

/-! ### Decoding against encoding -/

theorem noOperand_eq_ok {w : Word} {i j : Instr} : noOperand w i = .ok j ↔ immField w = 0#8 ∧ i = j := by
  unfold noOperand
  split <;> simp [*]

/-- Settles O9: each command's word has its op and its operand as fields, and `decode` looks at these alone. -/
theorem commandDecodeInvertsEncode : Obligations.CommandDecodeInvertsEncode := by
  unfold Obligations.CommandDecodeInvertsEncode
  intro i hi
  cases i with
  | htbuild | bsextract | eddiff | prinit | prsample | prscan | scan =>
    exact ⟨_, rfl, by simp [decode, noOperand_eq_ok]⟩
  | _ => cases hi

/-- The answer of a row without operand is the row's command, and the word is its encoding. -/
theorem encode_of_noOperand {w : Word} {op : Byte} {i j : Instr} (hop : opField w = op)
    (hj : j.codeword? = none ∧ encode j = .word (commandWord op 0#8)) (h : noOperand w j = .ok i) :
    i.codeword? = none ∧ encode i = .word w := by
  obtain ⟨himm, rfl⟩ := noOperand_eq_ok.mp h
  rw [← hop, ← himm, commandWord_fields] at hj
  exact hj

/-- The answer of a row with a key is the row's command with that key, and the word is its encoding. -/
theorem encode_of_keyed {w : Word} {op : Byte} {i j : Instr} (hop : opField w = op)
    (hj : j.codeword? = none ∧ encode j = .word (commandWord op (immField w)))
    (h : (.ok j : Except IllegalWord Instr) = .ok i) : i.codeword? = none ∧ encode i = .word w := by
  cases h
  rwa [← hop, commandWord_fields] at hj

/-- What decodes is a command, and the word is its encoding. -/
theorem encode_of_decode {w : Word} {i : Instr} (h : decode w = .ok i) :
    i.codeword? = none ∧ encode i = .word w := by
  unfold decode at h
  split_ifs at h with hhtbuild hbsextract heddiff hprinit hprsample hprscan hscan
  · exact encode_of_keyed hhtbuild ⟨rfl, rfl⟩ h
  · exact encode_of_noOperand hbsextract ⟨rfl, rfl⟩ h
  · exact encode_of_keyed heddiff ⟨rfl, rfl⟩ h
  · exact encode_of_noOperand hprinit ⟨rfl, rfl⟩ h
  · exact encode_of_noOperand hprsample ⟨rfl, rfl⟩ h
  · exact encode_of_noOperand hprscan ⟨rfl, rfl⟩ h
  · exact encode_of_noOperand hscan ⟨rfl, rfl⟩ h

/-- A word decodes to an instruction exactly when it is the instruction's encoding. -/
theorem decode_eq_ok_iff {w : Word} {i : Instr} : decode w = .ok i ↔ encode i = .word w := by
  constructor
  · exact fun h => (encode_of_decode h).2
  · intro h
    have hi : i.codeword? = none := by
      cases i with
      | htbuild | bsextract | eddiff | prinit | prsample | prscan | scan => rfl
      | _ => cases h
    obtain ⟨w', hw', hd⟩ := commandDecodeInvertsEncode i hi
    cases hw'.symm.trans h
    exact hd

end Sys2Proof

namespace Sys2Proof.Machine

/-- Settles O6: each word is the encoding R93 gives the command. -/
theorem commandWordsDecodeAsWritten : Obligations.CommandWordsDecodeAsWritten := by
  unfold Obligations.CommandWordsDecodeAsWritten
  simp only [decode_eq_ok_iff]
  exact ⟨rfl, rfl, rfl, rfl, rfl, rfl, rfl, rfl⟩

/-- A word decodes to the command of a row with a key exactly when mask and match select the row. -/
theorem decode_keyed {i : Instr} {op key : Byte} {m : Word} (hi : encode i = .word (commandWord op key))
    (hm : commandWord op 0#8 = m) (w : Word) :
    decode w = .ok i ↔ w &&& 0xFF00 = m ∧ key = w.setWidth 8 := by
  rw [decode_eq_ok_iff, hi, Encoded.word.injEq, commandWord_eq_iff_mask, hm]

theorem decode_htbuild_iff {w : Word} {key : Byte} :
    decode w = .ok (.htbuild key) ↔ w &&& 0xFF00 = 0x0100 ∧ key = w.setWidth 8 :=
  decode_keyed (op := 0x01#8) rfl rfl w

theorem decode_eddiff_iff {w : Word} {key : Byte} :
    decode w = .ok (.eddiff key) ↔ w &&& 0xFF00 = 0x0300 ∧ key = w.setWidth 8 :=
  decode_keyed (op := 0x03#8) rfl rfl w

/-- A word decodes to the command of a row without operand exactly when it is the row's match. -/
theorem decode_fixed {i : Instr} {m : Word} (hi : encode i = .word m) (w : Word) :
    decode w = .ok i ↔ w &&& 0xFFFF = m := by
  rw [decode_eq_ok_iff, hi, Encoded.word.injEq, show w &&& 0xFFFF = w from BitVec.and_allOnes, eq_comm]

/-- Settles O7: the rows with a key and the rows without are one lemma each. -/
theorem decodeFollowsMaskAndMatch : Obligations.DecodeFollowsMaskAndMatch := by
  unfold Obligations.DecodeFollowsMaskAndMatch
  exact fun w => ⟨fun _ => decode_htbuild_iff, fun _ => decode_eddiff_iff, decode_fixed rfl w, decode_fixed rfl w,
    decode_fixed rfl w, decode_fixed rfl w, decode_fixed rfl w, fun _ h => (encode_of_decode h).1⟩

/-! ### A CMD write -/

/-- Settles O5: the fault gate, the command, and the illegal word are the three lemmas about `issue`. -/
theorem cmdWriteRunsDecodedCommand : Obligations.CmdWriteRunsDecodedCommand := by
  unfold Obligations.CmdWriteRunsDecodedCommand
  intro s w rest h
  rw [step_op h, hostStep_cmd]
  exact ⟨fun hf => issue_blocked w hf, fun hf _ hd => issue_ok hf hd, fun hf _ hd => issue_illegal hf hd⟩

/-- Settles O8: a word that decoded would be a command's encoding, and mask and match would select its row. -/
theorem illegalWordRaisesIllegalCmd : Obligations.IllegalWordRaisesIllegalCmd := by
  unfold Obligations.IllegalWordRaisesIllegalCmd
  intro s w rest hhost hfault hhtbuild heddiff hbsextract hprinit hprsample hprscan hscan
  have hillegal : ∀ i, decode w ≠ .ok i := by
    intro i hd
    have he := decode_eq_ok_iff.mp hd
    cases i with
    | htbuild key => exact hhtbuild (decode_htbuild_iff.mp hd).1
    | eddiff key => exact heddiff (decode_eddiff_iff.mp hd).1
    | bsextract => cases he; exact hbsextract rfl
    | prinit => cases he; exact hprinit rfl
    | prsample => cases he; exact hprsample rfl
    | prscan => cases he; exact hprscan rfl
    | scan => cases he; exact hscan rfl
    | _ => cases he
  obtain ⟨-, -, hreject⟩ := cmdWriteRunsDecodedCommand s w rest hhost
  cases hd : decode w with
  | ok i => exact absurd hd (hillegal i)
  | error e => exact hreject hfault e hd

end Sys2Proof.Machine
end

section
/-! SUPPORT. The difference codeword (30_encoding R81 to R85): decoding against encoding, a codeword executed alone,
and EDDIFF against the codeword at the cursor. -/

namespace Sys2Proof.Machine

/-! ### Decoding against encoding -/

/-- Settles O10: the instruction is the codeword of its fields, and the decoder answers the codeword whose code it
finds. -/
theorem codewordDecodeInvertsEncode : Obligations.CodewordDecodeInvertsEncode := by
  unfold Obligations.CodewordDecodeInvertsEncode
  intro table i ssss code v rest hw _ hc hf
  obtain ⟨hs, -, hv, -, henc, hof⟩ := codeword?_spec hc
  have hs' : ssss < 17 := by omega
  refine ⟨henc, ?_⟩
  rw [decodeCodeword_hit (sym := ⟨ssss, hs'⟩) hw hf hv, hof hs']

/-- What decodes as a codeword has fields that fit, a code the table finds, and its own bits at the head of the
string (30_encoding R81, R85). -/
theorem codeword_of_decodeCodeword {table : HuffTable} {bits rest : List Bool} {i : Instr} (hw : WfTable table)
    (h : decodeCodeword table bits = .ok (i, rest)) :
    ∃ ssss code v, i.codeword? = some (ssss, code, v) ∧ i.wf = true ∧ FindsCode table ssss code ∧
      bits = codewordBits ssss code v ++ rest := by
  obtain ⟨-, sym, code, v, -, -, h2, h17, hv, rfl, hbits, hf⟩ := decodeCodeword_ok h hw
  have hcode : (BitVec.ofNat 17 code).toNat = code := by
    rw [BitVec.toNat_ofNat, Nat.mod_eq_of_lt h17]
  refine ⟨sym, code, v, ?_, ?_, hf, hbits⟩
  · rw [codeword?_codewordOf sym _ hv, hcode]
  · rw [wf_codewordOf, codeWf, hcode]; exact decide_eq_true h2

/-- Settles O11: the fields of what was decoded give its encoding and its bits. -/
theorem codewordEncodeInvertsDecode : Obligations.CodewordEncodeInvertsDecode := by
  unfold Obligations.CodewordEncodeInvertsDecode
  intro table bits rest i hw h
  obtain ⟨ssss, code, v, hc, hwf, -, hbits⟩ := codeword_of_decodeCodeword hw h
  obtain ⟨-, -, -, -, henc, -⟩ := codeword?_spec hc
  have hi : instrBits i = codewordBits ssss code v := by rw [instrBits, hc]
  rw [hi]
  exact ⟨hwf, henc, hbits⟩

/-! ### A codeword executed alone -/

/-- A codeword whose bits are all there consumes them and puts its difference into DIFF (log 4). -/
theorem runsTo_codeword {i : Instr} {s : State} {ssss code v : Nat} (hf : s.fault = 0)
    (hc : i.codeword? = some (ssss, code, v)) (hb : s.bitpos + (nbits code + extraCount ssss) ≤ s.bitlen) :
    RunsTo i s (nbits code + extraCount ssss) (differenceOf ssss v) := by
  have hlen : (instrBits i).length = nbits code + extraCount ssss := by simp [instrBits, hc, codewordBits]
  have hdiff : instrDifference i = differenceOf ssss v := by rw [instrDifference, hc]
  rw [RunsTo, exec_next, if_pos hf, codewordBody_state hc (by rw [hlen]; exact hb), hlen, hdiff, Res.state_ok]

/-- The difference of a category 1..15 by the sign bit of its extra bits (30_encoding R82). -/
theorem differenceOf_msb {n : Nat} (hn : n + 1 ≤ 15) (e : BitVec (n + 1)) :
    differenceOf (n + 1) e.toNat =
      if e.msb then (e.toNat : Int) else (e.toNat : Int) + 1 - (2 ^ (n + 1) : Nat) := by
  simp only [differenceOf_mid hn e.isLt, BitVec.msb_eq_decide, Nat.add_sub_cancel, decide_eq_true_eq]

/-- The codewords without extra bits: category 0 and the escape. -/
theorem runsTo_plain {i : Instr} {s : State} {ssss : Nat} {code : BitVec 17} (hf : s.fault = 0)
    (h0 : extraCount ssss = 0) (hc : i.codeword? = some (ssss, code.toNat, 0))
    (hb : s.bitpos + nbits code.toNat ≤ s.bitlen) : RunsTo i s (nbits code.toNat) (differenceOf ssss 0) := by
  have hcount : nbits code.toNat + extraCount ssss = nbits code.toNat := by rw [h0, Nat.add_zero]
  rw [← hcount] at hb ⊢
  exact runsTo_codeword hf hc hb

/-- The codewords with extra bits, all fifteen. -/
theorem runsTo_extra {i : Instr} {s : State} {n : Nat} {code : BitVec 17} {e : BitVec (n + 1)} (hf : s.fault = 0)
    (hn : n + 1 ≤ 15) (hc : i.codeword? = some (n + 1, code.toNat, e.toNat))
    (hb : s.bitpos + (nbits code.toNat + (n + 1)) ≤ s.bitlen) :
    RunsTo i s (nbits code.toNat + (n + 1))
      (if e.msb then (e.toNat : Int) else (e.toNat : Int) + 1 - (2 ^ (n + 1) : Nat)) := by
  have hcount : extraCount (n + 1) = n + 1 := if_neg (by omega)
  rw [← differenceOf_msb hn]
  simpa only [hcount] using runsTo_codeword hf hc (by rw [hcount]; exact hb)

/-- Settles O41: category 0 and the escape have no extra bits; the other fifteen rows are one lemma. -/
theorem codewordsRunAlone : Obligations.CodewordsRunAlone := by
  unfold Obligations.CodewordsRunAlone
  intro s code hf
  exact ⟨runsTo_plain (ssss := 0) hf rfl rfl,
    fun _ => runsTo_extra hf (by decide) rfl, fun _ => runsTo_extra hf (by decide) rfl,
    fun _ => runsTo_extra hf (by decide) rfl, fun _ => runsTo_extra hf (by decide) rfl,
    fun _ => runsTo_extra hf (by decide) rfl, fun _ => runsTo_extra hf (by decide) rfl,
    fun _ => runsTo_extra hf (by decide) rfl, fun _ => runsTo_extra hf (by decide) rfl,
    fun _ => runsTo_extra hf (by decide) rfl, fun _ => runsTo_extra hf (by decide) rfl,
    fun _ => runsTo_extra hf (by decide) rfl, fun _ => runsTo_extra hf (by decide) rfl,
    fun _ => runsTo_extra hf (by decide) rfl, fun _ => runsTo_extra hf (by decide) rfl,
    fun _ => runsTo_extra hf (by decide) rfl,
    runsTo_plain (ssss := 16) hf rfl rfl⟩

/-! ### EDDIFF -/

/-- A codeword in the bit sequence is a codeword instruction, and its bits are all there. -/
theorem CodewordAt.fits {s : State} {key : Byte} {pos : Nat} {i : Instr} (h : CodewordAt s key pos i) :
    ∃ ssss code v, i.codeword? = some (ssss, code, v) ∧ pos + (instrBits i).length ≤ s.bitlen := by
  obtain ⟨-, ssss, code, v, -, -, hc, -, -, hb⟩ := h
  refine ⟨ssss, code, v, hc, ?_⟩
  rw [instrBits, hc]
  exact hb.le

/-- With a codeword at the cursor EDDIFF and that codeword do the same. -/
theorem eddiffBody_eq_codeword {s : State} {key : Byte} {i : Instr} (h : CodewordAt s key s.bitpos i) :
    eddiffBody key s = instrBody i s := by
  obtain ⟨ssss, code, v, hc, hfits⟩ := h.fits
  rw [eddiffBody, decode_at h, codewordBody_state hc hfits, Res.bind_ok, setDiff]

/-- A search that came back with an answer had a bit to consume. -/
theorem bitpos_lt_of_searchCode {map : CodeMap} {n acc : Nat} {s t : State} {found : Option Symbol}
    (h : searchCode map (n + 1) acc s = .ok found t) : s.bitpos < s.bitlen := by
  by_contra hend
  rw [searchCode, nextBit_exhausted (Nat.not_lt.mp hend)] at h
  cases h

/-- The lengths the decoder uses are the table's. -/
theorem lens_of_lengths {table : HuffTable} {lens : Lengths} (h : table.lengths = some lens) :
    table.lens = some lens := by
  unfold HuffTable.lengths at h
  split at h
  · cases h
  · exact h

/-- A DecodeDiff that returned used a built slot, and had a bit to consume: no code of a well-formed table is
empty. -/
theorem slot_of_decodeDiff {s t : State} {key : Byte} {d : Int}
    (hw : ∀ table, slot s key = some table → WfTable table) (h : decodeDiff key s = .ok d t) :
    ∃ table, slot s key = some table ∧ s.bitpos < s.bitlen := by
  unfold decodeDiff at h
  split at h
  · cases h
  next table hk =>
    split at h
    · cases h
    next lens hl =>
      obtain ⟨hmin, hmax, -⟩ := wf_bounds (hw table hk) (lens_of_lengths hl)
      obtain ⟨n, hn⟩ : ∃ n, lens.max.toNat = n + 1 := ⟨lens.max.toNat - 1, by omega⟩
      obtain ⟨acc, u, htake, h⟩ := Res.bind_eq_ok.mp h
      obtain ⟨found, u', hsearch, -⟩ := Res.bind_eq_ok.mp h
      obtain ⟨rfl, -⟩ := takeBits_frame.1 acc u htake
      rw [hn] at hsearch
      have hlt := bitpos_lt_of_searchCode hsearch
      exact ⟨table, hk, (Nat.le_add_right _ _).trans_lt hlt⟩

/-- A DecodeDiff that returned had a codeword of the key's table at the cursor (30_encoding R81). -/
theorem codewordAt_of_decodeDiff {s t : State} {key : Byte} {d : Int}
    (hw : ∀ table, slot s key = some table → WfTable table) (h : decodeDiff key s = .ok d t) :
    ∃ i, CodewordAt s key s.bitpos i := by
  obtain ⟨table, hk, hlt⟩ := slot_of_decodeDiff hw h
  obtain ⟨hhold, hall⟩ := remaining_hold hlt.le
  rw [decodeDiff_eq hk hhold hall] at h
  cases hdec : decodeCodeword table (remaining s) with
  | error e => rw [hdec] at h; cases e <;> cases h
  | ok p =>
    obtain ⟨i, rest⟩ := p
    obtain ⟨ssss, code, v, hc, hwf, hf, hbits⟩ := codeword_of_decodeCodeword (hw table hk) hdec
    rw [hbits, bitsHold_append] at hhold
    exact ⟨i, table, ssss, code, v, hk, hw table hk, hc, hwf, hf, hhold.1⟩

/-- An EDDIFF that ends without a fault decoded a difference. -/
theorem decodeDiff_of_eddiff {s : State} {key : Byte} (h : (eddiffBody key s).state.fault = 0) :
    ∃ d t, decodeDiff key s = .ok d t := by
  have hend := decodeEnd_decodeDiff key s
  cases hd : decodeDiff key s with
  | ok d t => exact ⟨d, t, rfl⟩
  | raised t =>
    rw [hd] at hend
    rw [eddiffBody, hd, Res.bind_raised, Res.state_raised] at h
    exact absurd hend.2 (by rw [h]; decide)

/-- Settles O35: without a fault the decode succeeded, so a codeword lies at the cursor, and both bodies agree on it. -/
theorem eddiffRunsExactlyOneCodeword : Obligations.EddiffRunsExactlyOneCodeword := by
  unfold Obligations.EddiffRunsExactlyOneCodeword
  intro s t key hf hw hexec ht
  rw [exec_next, if_pos hf, Host.Outcome.next.injEq] at hexec
  obtain ⟨d, u, hd⟩ := decodeDiff_of_eddiff (s := s) (key := key) (hexec ▸ ht)
  obtain ⟨i, hi⟩ := codewordAt_of_decodeDiff hw hd
  refine ⟨i, hi, ?_⟩
  rw [exec_next, if_pos hf, ← eddiffBody_eq_codeword hi, ← hexec]
  rfl

end Sys2Proof.Machine
end

section
/-! SUPPORT. The extraction of stuffed data (30_encoding R80; 41_bitstream_extractor R122 to R126). -/

namespace Sys2Proof.Machine

theorem stuff_cons_of_ne {b : Byte} (hb : b ≠ 0xFF#8) (data : List Byte) : stuff (b :: data) = b :: stuff data :=
  if_neg hb

theorem stuff_cons_ff (data : List Byte) : stuff (0xFF#8 :: data) = 0xFF#8 :: 0x00#8 :: stuff data := rfl

theorem length_flatMap_bits8 (data : List Byte) : (data.flatMap bits8).length = 8 * data.length := by
  simp [List.length_flatMap, Nat.mul_comm]

theorem BytesHold.le {s : State} {pos : Nat} {bs : List Byte} (h : BytesHold s pos bs) :
    pos + bs.length ≤ s.blen := by
  induction bs generalizing pos with
  | nil => exact h
  | cons b bs ih => have := ih h.2.2; simp only [List.length_cons]; omega

theorem BytesHold.split {s : State} {pos : Nat} {xs ys : List Byte} (h : BytesHold s pos (xs ++ ys)) :
    BytesHold s pos xs ∧ BytesHold s (pos + xs.length) ys := by
  induction xs generalizing pos with
  | nil => exact ⟨(Nat.le_add_right _ _).trans h.le, h⟩
  | cons x xs ih =>
    obtain ⟨hlt, hx, hrest⟩ := h
    obtain ⟨hxs, hys⟩ := ih hrest
    refine ⟨⟨hlt, hx, hxs⟩, ?_⟩
    rwa [List.length_cons, show pos + (xs.length + 1) = pos + 1 + xs.length by omega]

/-- Extraction of stuffed data gives its bits, then whatever the bytes after it give: a round takes a data byte, or the
pair that stands for 0xFF. -/
theorem extract_stuff {s : State} {data : List Byte} {i : Nat} {out : List Bool} {cursor : Nat} {marker ambig : Bool}
    (h : BytesHold s i (stuff data))
    (hend : extract s (i + (stuff data).length) = ⟨out, cursor, marker, ambig⟩) :
    extract s i = ⟨data.flatMap bits8 ++ out, cursor, marker, ambig⟩ := by
  induction data generalizing i with
  | nil => exact hend
  | cons b data ih =>
    by_cases hb : b = 0xFF#8
    · subst hb
      rw [stuff_cons_ff] at h hend
      obtain ⟨-, hff, hlt, h00, hrest⟩ := h
      have hnext : i + (0xFF#8 :: 0x00#8 :: stuff data).length = i + 2 + (stuff data).length := by
        simp only [List.length_cons]; omega
      rw [extract_pair hlt hff h00, ih hrest (hnext ▸ hend)]
      simp [Extraction.emit]
    · rw [stuff_cons_of_ne hb] at h hend
      obtain ⟨hlt, hbyte, hrest⟩ := h
      have hnext : i + (b :: stuff data).length = i + 1 + (stuff data).length := by
        simp only [List.length_cons]; omega
      rw [extract_data hlt (hbyte ▸ hb), ih hrest (hnext ▸ hend), hbyte]
      simp [Extraction.emit]

/-- BSEXTRACT of bytes that fit stores what `extract` gives. -/
theorem exec_bsextract_of_extract {s : State} {out : List Bool} {cursor : Nat} {marker ambig : Bool}
    (hf : s.fault = 0) (hfit : BlenFits s) (he : extract s s.bcur = ⟨out, cursor, marker, ambig⟩) :
    ∃ t, exec .bsextract s = .next t ∧ t.bitlen = out.length ∧ BitsHold t 0 out ∧
      t.bitpos = 0 ∧ t.bcur = cursor ∧ t.marker = marker ∧ t.ambig = ambig := by
  refine ⟨storeExtraction (extract s s.bcur) s, ?_, ?_⟩
  · rw [exec_next, if_pos hf, instrBody, bsextractBody_fits hfit, Res.state_ok]
  · rw [he]
    exact ⟨rfl, bitsHold_storeExtraction _ s, rfl, rfl, rfl, rfl⟩

/-- Settles O29: the stuffed data gives its bits, and each kind of end is one equation of the extraction's loop. -/
theorem extractionUndoesStuffing : Obligations.ExtractionUndoesStuffing := by
  unfold Obligations.ExtractionUndoesStuffing
  intro s data hf hfit
  have hlen := length_flatMap_bits8 data
  refine ⟨?atBlen, ?atMarker, ?loneFF⟩
  case atBlen =>
    intro hbytes hblen
    have hend := extract_end (s := s) (i := s.bcur + (stuff data).length) (by omega)
    have he := extract_stuff hbytes hend
    rw [List.append_nil, ← hblen] at he
    rw [← hlen]
    exact exec_bsextract_of_extract hf hfit he
  case atMarker =>
    intro next hnext hbytes
    obtain ⟨hdata, -, hff, hlt, hbyte, -⟩ := hbytes.split
    have hend := extract_marker hlt hff (hbyte ▸ hnext)
    have he := extract_stuff hdata hend
    rw [List.append_nil, hbyte] at he
    rw [← hlen]
    exact exec_bsextract_of_extract hf hfit he
  case loneFF =>
    intro hbytes hblen
    obtain ⟨hdata, hlt, hff, -⟩ := hbytes.split
    have hend := extract_last hblen hff
    rw [extract_end hblen.le, ← hblen] at hend
    have he := extract_stuff hdata hend
    have hout : data.flatMap bits8 ++ (bits8 0xFF#8 ++ []) = (data ++ [0xFF]).flatMap bits8 := by simp
    rw [hout] at he
    have hlen' : 8 * (data.length + 1) = ((data ++ [0xFF]).flatMap bits8).length := by
      rw [length_flatMap_bits8, List.length_append]; rfl
    rw [hlen']
    exact exec_bsextract_of_extract hf hfit he

end Sys2Proof.Machine
end

section
/-! SUPPORT. HTBUILD as a command (40_huffman_builder R101, R102, R108, R110): its three ends, and the slot it writes. -/

namespace Sys2Proof.Machine

/-! ### The ends of HTBUILD -/

/-- A legal code-length table is built into the slot. -/
theorem exec_htbuild_legal {s : State} (key : Byte) (hf : s.fault = 0) (h : CltLegal s) :
    exec (.htbuild key) s = .next (setSlot key (tableOf (symbolEntries s)) s) := by
  obtain ⟨hc, hs⟩ := cltLegal_iff.mp h
  have hbody : htbuildBody key s = .ok () (setSlot key (tableOf (symbolEntries s)) s) := by simp [htbuildBody, hc, hs]
  rw [exec_next, if_pos hf, instrBody, hbody, Res.state_ok]

/-- CheckCLT's refusal with the number `n`. -/
theorem exec_htbuild_refused {s : State} {key : Byte} {n : Nat} (hf : s.fault = 0) (hn : n < 2 ^ 40)
    (hbody : htbuildBody key s = Res.raise .badParam n s) :
    exec (.htbuild key) s = .next { s with fault := 6, finfo := BitVec.ofNat 40 n } := by
  rw [exec_next, if_pos hf, instrBody, hbody, Res.state_raise, raise, finfoOf_of_lt hn]
  rfl

/-! ### The slot HTBUILD writes -/

@[simp] theorem slot_setSlot_same (key : Byte) (table : HuffTable) (s : State) :
    slot (setSlot key table s) key = some table := by
  simp [slot]

theorem slot_setSlot_ne {key other : Byte} (h : other ≠ key) (table : HuffTable) (s : State) :
    slot (setSlot key table s) other = slot s other := by
  have hne : other.toNat ≠ key.toNat := fun he => h (BitVec.eq_of_toNat_eq he)
  rw [slot, setSlot_ht, Memory.read_write_ne _ _ hne, slot]

/-- Settles O18: the legal end of HTBUILD, read slot by slot. -/
theorem htbuildWritesDerivedTable : Obligations.HtbuildWritesDerivedTable := by
  unfold Obligations.HtbuildWritesDerivedTable
  intro s key hf hl
  exact ⟨_, exec_htbuild_legal key hf hl, rfl, slot_setSlot_same key _ s, fun other hne => slot_setSlot_ne hne _ s⟩

/-- Settles O19: one end of HTBUILD per test of CheckCLT. -/
theorem htbuildRefusesIllegalTable : Obligations.HtbuildRefusesIllegalTable := by
  unfold Obligations.HtbuildRefusesIllegalTable
  intro s key hf
  refine ⟨?counts, ?symbols, ?legal⟩
  case counts =>
    intro h
    exact exec_htbuild_refused hf (n := 1) (by norm_num) (if_pos (badCount_iff.mpr h))
  case symbols =>
    intro hcounts h
    have hc : ¬ badCount s = true := by
      rw [badCount_iff]
      rintro ⟨len, h1, h2, h3⟩
      exact absurd (hcounts len h1 h2) (Nat.not_le.mpr h3)
    refine exec_htbuild_refused hf (n := 2) (by norm_num) ?_
    rw [htbuildBody, if_neg hc, if_pos (badSymbol_iff.mpr h)]
  case legal => exact fun hl => ⟨_, exec_htbuild_legal key hf hl, hf, rfl⟩

/-- Settles O20: the table written depends on the code-length table alone, which the old registry is no part of. -/
theorem rebuildReplacesWholeSlot : Obligations.RebuildReplacesWholeSlot := by
  unfold Obligations.RebuildReplacesWholeSlot
  intro s t t' key old hf hl ht ht'
  have hold : exec (.htbuild key) { s with ht := old } =
      .next (setSlot key (tableOf (symbolEntries s)) { s with ht := old }) :=
    exec_htbuild_legal (s := { s with ht := old }) key hf hl
  rw [exec_htbuild_legal key hf hl, Host.Outcome.next.injEq] at ht
  rw [hold, Host.Outcome.next.injEq] at ht'
  subst ht ht'
  simp

/-! ### The empty code-length table (R108) -/

theorem symbolEntries_of_no_counts {s : State} (h : ∀ len, 1 ≤ len → len ≤ 16 → cltCount s len = 0) :
    symbolEntries s = [] := by
  refine List.eq_nil_iff_forall_not_mem.mpr fun e he => ?_
  obtain ⟨len, i, h1, h2, hi, -⟩ := mem_symbolEntries.mp he
  rw [h len h1 h2] at hi
  exact Nat.not_lt_zero i hi

theorem cltLegal_of_no_counts {s : State} (h : ∀ len, 1 ≤ len → len ≤ 16 → cltCount s len = 0) : CltLegal s := by
  refine ⟨fun len h1 h2 => ?_, fun len h1 h2 i hi => ?_⟩
  · rw [h len h1 h2]; exact Nat.zero_le 16
  · rw [h len h1 h2] at hi; exact absurd hi (Nat.not_lt_zero i)

/-- EDDIFF of a slot without lengths raises EMPTY_TABLE with the key (42_entropy_decoder R144). -/
theorem exec_eddiff_emptyTable {s : State} {key : Byte} {table : HuffTable} (hf : s.fault = 0)
    (hk : slot s key = some table) (hl : table.lengths = none) :
    exec (.eddiff key) s = .next { s with fault := 4, finfo := BitVec.ofNat 40 key.toNat } := by
  have hbody : eddiffBody key s = Res.raise .emptyTable key.toNat s := by
    simp only [eddiffBody, decodeDiff, hk, hl, Res.bind_raise]
  have hkey : key.toNat < 2 ^ 40 := by have := key.isLt; omega
  rw [exec_next, if_pos hf, instrBody, hbody, Res.state_raise, raise, finfoOf_of_lt hkey]
  rfl

/-- The lengths of a slot without lengths have no value (10_state R41). -/
theorem lengthAnswer_of_no_lengths {s : State} {key : Byte} {table : HuffTable} (hk : slot s key = some table)
    (hl : table.lengths = none) (field : Lengths → BitVec 5) : lengthAnswer s key field = .unspecified := by
  rw [lengthAnswer, hk, Option.bind_some, hl]

/-- Settles O24: without entries the derivation gives the empty table, and every read goes through the new slot. -/
theorem emptyLengthTableGivesEmptyTable : Obligations.EmptyLengthTableGivesEmptyTable := by
  unfold Obligations.EmptyLengthTableGivesEmptyTable
  intro s key hf h
  have hbuilt := exec_htbuild_legal key hf (cltLegal_of_no_counts h)
  rw [symbolEntries_of_no_counts h] at hbuilt
  have hslot := slot_setSlot_same key { map := [], lens := none } s
  refine ⟨setSlot key { map := [], lens := none } s, hbuilt, rfl, ?valid, ?map,
    lengthAnswer_of_no_lengths hslot rfl _, lengthAnswer_of_no_lengths hslot rfl _, exec_eddiff_emptyTable hf hslot rfl⟩
  case valid => rw [hostRead, hslot]; rfl
  case map => intro code; simp [hostRead]

end Sys2Proof.Machine
end

section
/-! SUPPORT. The derivation of codes (40_huffman_builder R103 to R109): the successor step, the lengths of the keys, and
what the map gives. -/

namespace Sys2Proof.Machine

/-! ### The successor step (R104) -/

/-- `x 0 1..1` becomes `x 1`. -/
theorem succCode_zero_ones {x : Nat} (j : Nat) (hx : 1 ≤ x) :
    succCode (2 * x * 2 ^ j + (2 ^ j - 1)) = 2 * x + 1 := by
  rw [succCode, stripOnes_zero hx (by rw [nbits_zero_ones hx]; omega)]

/-- All ones become `1`. -/
theorem succCode_ones (j : Nat) : succCode (2 ^ (j + 1) - 1) = 3 := by
  rw [succCode, stripOnes_ones (by rw [nbits_ones]; omega)]

/-- Settles O21: the two shapes of a code, and the successor of each. -/
theorem successorTurnsLeftThenRight : Obligations.SuccessorTurnsLeftThenRight := by
  unfold Obligations.SuccessorTurnsLeftThenRight
  refine ⟨fun x j hx => succCode_zero_ones j hx, fun j _ => succCode_ones j, ?shapes, ?least, by decide⟩
  case shapes =>
    intro c hc
    rcases code_cases (by omega : 1 ≤ c) with h | ⟨j, rfl⟩
    · exact .inl h
    · have hj : j ≠ 0 := by rintro rfl; norm_num at hc
      exact .inr ⟨j, Nat.one_le_iff_ne_zero.mpr hj, rfl⟩
  case least =>
    intro c hc
    rcases code_cases hc with ⟨x, j, hx, rfl⟩ | ⟨j, rfl⟩
    · rw [succCode_zero_ones j hx]; omega
    · exact (succCode_ones j).ge

/-! ### Keys and lengths (R106, R107) -/

/-- Settles O22: no code precedes the first, so the insertions of a rising table fit from its start. -/
theorem insertedKeysFitTheirLength : Obligations.InsertedKeysFitTheirLength := by
  unfold Obligations.InsertedKeysFitTheirLength
  exact fun s => insertions_spec (rising_symbolEntries s) (by simp)

/-- The numbers of bits the keys have are the lengths in use. -/
theorem exists_key_nbits_iff {s : State} {len : Nat} :
    (∃ e ∈ (tableOf (symbolEntries s)).map, nbits e.1 = len) ↔ 1 ≤ len ∧ len ≤ 16 ∧ 0 < cltCount s len := by
  obtain ⟨inserted, entered⟩ := forall₂_mem (insertedKeysFitTheirLength s)
  constructor
  · rintro ⟨e, he, rfl⟩
    obtain ⟨entry, hentry, lo, hi, -⟩ := entered e (mem_of_mem_mapOf he)
    obtain ⟨len, i, h1, h2, hcount, rfl⟩ := mem_symbolEntries.mp hentry
    rw [nbits_eq lo hi]
    exact ⟨h1, h2, Nat.zero_lt_of_lt hcount⟩
  · rintro ⟨h1, h2, hcount⟩
    obtain ⟨ins, hins, lo, hi, -⟩ := inserted _ (mem_symbolEntries.mpr ⟨len, 0, h1, h2, hcount, rfl⟩)
    obtain ⟨e, he, hkey⟩ := key_mem_mapOf hins
    exact ⟨e, he, hkey ▸ nbits_eq lo hi⟩

/-- Settles O23: the lengths of a well-formed table bound its keys and are reached, and the keys' lengths are the
lengths in use. -/
theorem lengthsAreLeastAndGreatest : Obligations.LengthsAreLeastAndGreatest := by
  unfold Obligations.LengthsAreLeastAndGreatest
  intro s lens hlens
  have hwf := (wf_tableOf s).2
  rw [hlens] at hwf
  obtain ⟨-, -, -, hbounds, hmin, hmax⟩ := hwf
  refine ⟨exists_key_nbits_iff.mp hmin, exists_key_nbits_iff.mp hmax, ?used, fun e he => (hbounds e he).2, hmin, hmax⟩
  case used =>
    intro len h1 h2 hcount
    obtain ⟨e, he, rfl⟩ := exists_key_nbits_iff.mpr ⟨h1, h2, hcount⟩
    exact (hbounds e he).2

/-! ### The map (R109) -/

/-- Settles O25, by induction on the insertions from the last one back. -/
theorem lastInsertionOfACodeStands : Obligations.LastInsertionOfACodeStands := by
  unfold Obligations.LastInsertionOfACodeStands
  intro ins code
  induction ins using List.reverseRecOn with
  | nil => rfl
  | append_singleton ins e ih =>
    rw [mapOf_snoc, Memory.read_write, List.reverse_append, List.reverse_singleton, List.singleton_append]
    by_cases h : code = e.1
    · simp [h]
    · rw [if_neg h, ih, List.find?_cons_of_neg (by simpa using Ne.symm h)]

end Sys2Proof.Machine
end

section
/-! SUPPORT. Valid counts (40_huffman_builder R111, R112): while codes are left, no code is all ones, so the successor
step adds 1; and codes that grow this way do not begin with each other. -/

namespace Sys2Proof.Machine

/-! ### The next canonical code -/

theorem two_pow_le_canonicalNext (prev : Option Nat) (len : Nat) : 2 ^ len ≤ canonicalNext prev len := by
  cases prev with
  | none => exact le_refl _
  | some c => exact Nat.le_add_right _ _

/-- With the sentinel: (previous + 1) x 2^(L - l), the first code beyond all that begin with the previous one. -/
theorem canonicalNext_some {c len : Nat} (hc : 1 ≤ c) (h : nbits c ≤ len) :
    canonicalNext (some c) len = (c + 1) * 2 ^ (len - nbits c) := by
  obtain ⟨d, rfl⟩ := Nat.exists_eq_add_of_le h
  obtain ⟨v, hv⟩ := Nat.exists_eq_add_of_le (two_pow_nbits_le hc)
  have hvalue : codeValue c = v := by rw [codeValue]; omega
  rw [canonicalNext, hvalue, Nat.add_sub_cancel_left, pow_add, ← Nat.add_mul, ← Nat.add_assoc, ← hv]

/-- One more code of length `len` moves the next code of each greater length on by what it takes there. -/
theorem canonicalNext_step {prev : Option Nat} {len L : Nat} (hprev : ∀ c, prev = some c → 1 ≤ c ∧ nbits c ≤ len)
    (hfit : canonicalNext prev len < 2 ^ (len + 1)) (hL : len ≤ L) :
    canonicalNext (some (canonicalNext prev len)) L = canonicalNext prev L + 2 ^ (L - len) := by
  have hbits : nbits (canonicalNext prev len) = len := nbits_eq (two_pow_le_canonicalNext prev len) hfit
  have hone : 1 ≤ canonicalNext prev len := (Nat.two_pow_pos len).trans_le (two_pow_le_canonicalNext prev len)
  have hscale : canonicalNext prev len * 2 ^ (L - len) = canonicalNext prev L := by
    cases prev with
    | none => rw [canonicalNext, canonicalNext, ← pow_add, Nat.add_sub_cancel' hL]
    | some c =>
      obtain ⟨hc, hn⟩ := hprev c rfl
      rw [canonicalNext_some hc hn, canonicalNext_some hc (hn.trans hL), Nat.mul_assoc, ← pow_add]
      congr 2; omega
  rw [canonicalNext_some hone (hbits.le.trans hL), hbits, Nat.add_mul, Nat.one_mul, hscale]

/-! ### The successor step adds 1 -/

theorem nbits_two_mul_add_one {x : Nat} (hx : 1 ≤ x) : nbits (2 * x + 1) = nbits x + 1 := by
  have h1 := two_pow_nbits_le hx
  have h2 := lt_two_pow_nbits x
  apply nbits_eq <;> rw [pow_succ] <;> omega

/-- Off the code of all ones the padded successor is the code plus 1, at the new length. -/
theorem padTo_succCode {c len : Nat} (hc : 2 ≤ c) (h : nbits c ≤ len) (hones : c + 1 < 2 ^ (nbits c + 1)) :
    padTo len (succCode c) = (c + 1) * 2 ^ (len - nbits c) := by
  rcases code_cases (by omega : 1 ≤ c) with ⟨x, j, hx, rfl⟩ | ⟨j, rfl⟩
  · have hbits := nbits_zero_ones (j := j) hx
    have hsucc : 2 * x * 2 ^ j + (2 ^ j - 1) + 1 = (2 * x + 1) * 2 ^ j := by
      have hp := Nat.two_pow_pos j
      rw [Nat.add_mul, Nat.one_mul]; omega
    have hpad : len - (nbits x + 1) = j + (len - (nbits x + 1 + j)) := by omega
    rw [succCode_zero_ones j hx, padTo, Nat.shiftLeft_eq, nbits_two_mul_add_one hx, hbits, hsucc, hpad, pow_add,
      Nat.mul_assoc]
  · rw [nbits_ones] at hones
    omega

theorem nextCode_eq_canonicalNext {prev : Option Nat} {len : Nat}
    (hprev : ∀ c, prev = some c → 2 ≤ c ∧ nbits c ≤ len) (hfit : canonicalNext prev len < 2 ^ (len + 1)) :
    nextCode prev len = canonicalNext prev len := by
  cases prev with
  | none => rw [nextCode, padTo, Nat.shiftLeft_eq, show nbits 1 = 0 by decide, Nat.one_mul, Nat.sub_zero, canonicalNext]
  | some c =>
    obtain ⟨hc, hn⟩ := hprev c rfl
    have hc1 : 1 ≤ c := by omega
    rw [canonicalNext_some hc1 hn] at hfit ⊢
    refine padTo_succCode hc hn ?_
    have hsplit : 2 ^ (len + 1) = 2 ^ (nbits c + 1) * 2 ^ (len - nbits c) := by rw [← pow_add]; congr 1; omega
    rw [hsplit] at hfit
    exact lt_of_mul_lt_mul_right hfit (Nat.zero_le _)

/-! ### Lists of entries that leave room -/

/-- What the lengths up to `len` take of the codes of `len` bits: the sum of R111. -/
def codeSpace (lengths : List Nat) (len : Nat) : Nat := ((lengths.filter (· ≤ len)).map fun l => 2 ^ (len - l)).sum

theorem codeSpace_cons {l len : Nat} (h : l ≤ len) (lengths : List Nat) :
    codeSpace (l :: lengths) len = 2 ^ (len - l) + codeSpace lengths len := by
  simp [codeSpace, h]

/-- After the code `prev` the entries still to be coded have room: R111's condition for the rest of a table. -/
structure CodesFit (prev : Option Nat) (entries : List (Nat × Symbol)) : Prop where
  rising : RisingLengths entries
  prev_le : ∀ c, prev = some c → 2 ≤ c ∧ ∀ e ∈ entries, nbits c ≤ e.1
  room : ∀ len, (∀ c, prev = some c → nbits c ≤ len) →
    canonicalNext prev len + codeSpace (entries.map Prod.fst) len ≤ 2 ^ (len + 1)

/-- Valid counts leave room for the whole table. -/
theorem codesFit_of_validCounts {s : State} (h : ValidCounts ((symbolEntries s).map Prod.fst)) :
    CodesFit none (symbolEntries s) where
  rising := rising_symbolEntries s
  prev_le := by simp
  room := fun len _ => by
    have hlen : codeSpace ((symbolEntries s).map Prod.fst) len ≤ 2 ^ len := h len
    rw [canonicalNext, pow_succ]; omega

section
variable {prev : Option Nat} {len : Nat} {sym : Symbol} {rest : List (Nat × Symbol)}
  (h : CodesFit prev ((len, sym) :: rest))
include h

theorem CodesFit.head_le : ∀ c, prev = some c → 2 ≤ c ∧ nbits c ≤ len := fun c hc =>
  ⟨(h.prev_le c hc).1, (h.prev_le c hc).2 (len, sym) List.mem_cons_self⟩

/-- There is a code for the next entry. -/
theorem CodesFit.head_lt : canonicalNext prev len < 2 ^ (len + 1) := by
  have hroom := h.room len fun c hc => (h.head_le c hc).2
  rw [List.map_cons, codeSpace_cons (le_refl len), Nat.sub_self, pow_zero] at hroom
  omega

theorem CodesFit.nbits_head : nbits (canonicalNext prev len) = len :=
  nbits_eq (two_pow_le_canonicalNext prev len) h.head_lt

theorem CodesFit.two_le_head : 2 ≤ canonicalNext prev len :=
  calc 2 = 2 ^ 1 := rfl
    _ ≤ 2 ^ len := Nat.pow_le_pow_right (by norm_num) (h.rising.2 (len, sym) List.mem_cons_self).1
    _ ≤ _ := two_pow_le_canonicalNext prev len

/-- The room the next entry takes is what its code takes. -/
theorem CodesFit.tail : CodesFit (some (canonicalNext prev len)) rest where
  rising := rising_tail h.rising
  prev_le := by
    rintro c ⟨⟩
    refine ⟨h.two_le_head, fun e he => ?_⟩
    rw [h.nbits_head]
    exact (List.pairwise_cons.mp h.rising.1).1 e.1 (List.mem_map_of_mem he)
  room := fun L hL => by
    have hlen : len ≤ L := h.nbits_head ▸ hL _ rfl
    have hroom := h.room L fun c hc => (h.head_le c hc).2.trans hlen
    rw [List.map_cons, codeSpace_cons hlen] at hroom
    have hstep := canonicalNext_step (fun c hc => ⟨by have := (h.head_le c hc).1; omega, (h.head_le c hc).2⟩)
      h.head_lt hlen
    omega

end

theorem insertions_eq_canonicalCodes {prev : Option Nat} {entries : List (Nat × Symbol)} (h : CodesFit prev entries) :
    insertions prev entries = canonicalCodes prev entries := by
  induction entries generalizing prev with
  | nil => rfl
  | cons e rest ih => rw [insertions, canonicalCodes, nextCode_eq_canonicalNext h.head_le h.head_lt, ih h.tail]

/-- Settles O26: valid counts leave room before every code, so each successor step adds 1. -/
theorem derivationIsCanonical : Obligations.DerivationIsCanonical := by
  unfold Obligations.DerivationIsCanonical
  exact fun s h => insertions_eq_canonicalCodes (codesFit_of_validCounts h)

/-! ### Prefixes (R112) -/

/-- `b` lies beyond every code of its length that begins with `a`. -/
structure Beyond (a b : Nat) : Prop where
  pos : 1 ≤ a
  nbits_le : nbits a ≤ nbits b
  le : (a + 1) * 2 ^ (nbits b - nbits a) ≤ b

theorem Beyond.lt {a b : Nat} (h : Beyond a b) : a < b :=
  (Nat.le_mul_of_pos_right (a + 1) (Nat.two_pow_pos _)).trans h.le

theorem Beyond.trans {a b c : Nat} (h1 : Beyond a b) (h2 : Beyond b c) : Beyond a c where
  pos := h1.pos
  nbits_le := h1.nbits_le.trans h2.nbits_le
  le := by
    have hsplit : nbits c - nbits a = (nbits b - nbits a) + (nbits c - nbits b) := by
      have := h1.nbits_le
      have := h2.nbits_le
      omega
    calc (a + 1) * 2 ^ (nbits c - nbits a)
        = (a + 1) * 2 ^ (nbits b - nbits a) * 2 ^ (nbits c - nbits b) := by rw [hsplit, pow_add, Nat.mul_assoc]
      _ ≤ (b + 1) * 2 ^ (nbits c - nbits b) := Nat.mul_le_mul_right _ (h1.le.trans (Nat.le_succ b))
      _ ≤ c := h2.le

/-- A code that begins with the bits of `a` lies among the codes of its length that do. -/
theorem bounds_of_codeBits_prefix {a b : Nat} (ha : 1 ≤ a) (hb : 1 ≤ b) (h : codeBits a <+: codeBits b) :
    a ≤ b ∧ b < (a + 1) * 2 ^ (nbits b - nbits a) := by
  obtain ⟨bs, hbs⟩ := h
  have hvalue : b = a * 2 ^ bs.length + bs.foldl shiftIn 0 := by
    rw [← foldl_shiftIn, ← foldl_codeBits hb, ← hbs, List.foldl_append, foldl_codeBits ha]
  have hlength : nbits b - nbits a = bs.length := by
    rw [← length_codeBits b, ← hbs, List.length_append, length_codeBits, Nat.add_sub_cancel_left]
  have hlt := foldl_shiftIn_lt bs
  have hle := Nat.le_mul_of_pos_right a (Nat.two_pow_pos bs.length)
  rw [hlength, Nat.add_mul, Nat.one_mul]
  omega

/-- Neither code's bits begin with the other's. -/
def PrefixApart (a b : Nat) : Prop := ¬ codeBits a <+: codeBits b ∧ ¬ codeBits b <+: codeBits a

theorem Beyond.prefixApart {a b : Nat} (h : Beyond a b) : PrefixApart a b := by
  have ha := h.pos
  have hlt := h.lt
  constructor
  · exact fun hp => absurd h.le (Nat.not_le.mpr (bounds_of_codeBits_prefix ha (by omega) hp).2)
  · exact fun hp => absurd hlt (Nat.not_lt.mpr (bounds_of_codeBits_prefix (by omega) ha hp).1)

theorem beyond_canonicalNext {c len : Nat} (hc : 1 ≤ c) (hn : nbits c ≤ len)
    (hbits : nbits (canonicalNext (some c) len) = len) : Beyond c (canonicalNext (some c) len) :=
  ⟨hc, hn.trans hbits.ge, by rw [hbits, canonicalNext_some hc hn]⟩

/-- Each canonical code lies beyond the one before it. -/
theorem isChain_beyond {prev : Option Nat} {entries : List (Nat × Symbol)} (h : CodesFit prev entries) :
    (prev.toList ++ (canonicalCodes prev entries).map Prod.fst).IsChain Beyond := by
  induction entries generalizing prev with
  | nil => cases prev <;> simp [canonicalCodes]
  | cons e rest ih =>
    have htail := ih h.tail
    cases prev with
    | none => exact htail
    | some c =>
      obtain ⟨hc, hn⟩ := h.head_le c rfl
      exact List.IsChain.cons_cons (beyond_canonicalNext (by omega) hn h.nbits_head) htail

theorem pairwise_prefixApart {entries : List (Nat × Symbol)} (h : CodesFit none entries) :
    ((insertions none entries).map Prod.fst).Pairwise PrefixApart := by
  have : Trans Beyond Beyond Beyond := ⟨Beyond.trans⟩
  rw [insertions_eq_canonicalCodes h]
  exact (List.isChain_iff_pairwise.mp (isChain_beyond h)).imp Beyond.prefixApart

/-- Settles O27: each key is an inserted code, and any two of those are apart. -/
theorem validTablesArePrefixFree : Obligations.ValidTablesArePrefixFree := by
  unfold Obligations.ValidTablesArePrefixFree
  intro s h a ha b hb hbegins
  have : Std.Symm PrefixApart := ⟨fun _ _ hap => hap.symm⟩
  have inserted {e : Nat × Symbol} (he : e ∈ (tableOf (symbolEntries s)).map) :
      e.1 ∈ (insertions none (symbolEntries s)).map Prod.fst := List.mem_map_of_mem (mem_of_mem_mapOf he)
  by_contra hne
  exact ((pairwise_prefixApart (codesFit_of_validCounts h)).forall (inserted ha) (inserted hb) hne).1 hbegins

end Sys2Proof.Machine
end

section
/-! SUPPORT. BSEXTRACT as a command (41_bitstream_extractor R121), and what holds of its result for any bytes at all
(R124 to R128). -/

namespace Sys2Proof.Machine

/-! ### The command -/

theorem exec_bsextract_fits {s : State} (hf : s.fault = 0) (hfit : BlenFits s) :
    exec .bsextract s = .next (storeExtraction (extract s s.bcur) s) := by
  rw [exec_next, if_pos hf, instrBody, bsextractBody_fits hfit, Res.state_ok]

theorem exec_bsextract_refused {s : State} (hf : s.fault = 0) (h : ¬ BlenFits s) :
    exec .bsextract s = .next { s with fault := 6, finfo := 3 } := by
  rw [exec_next, if_pos hf, instrBody, bsextractBody_refused h, Res.state_raise, raise, finfoOf_of_lt (by norm_num)]
  rfl

/-- What BSEXTRACT of bytes that fit ended in is the stored extraction. -/
theorem eq_storeExtraction_of_exec {s t : State} (hf : s.fault = 0) (hfit : BlenFits s)
    (h : exec .bsextract s = .next t) : t = storeExtraction (extract s s.bcur) s := by
  rw [exec_bsextract_fits hf hfit, Host.Outcome.next.injEq] at h
  exact h.symm

/-- Settles O28: what is stored is read back up to BITLEN, and BITS beyond it is as before. -/
theorem bsextractStoresExtraction : Obligations.BsextractStoresExtraction := by
  unfold Obligations.BsextractStoresExtraction
  intro s hf
  refine ⟨fun hfit => ⟨_, exec_bsextract_fits hf hfit, rfl, ?stored, ?kept⟩, exec_bsextract_refused hf⟩
  case stored => intro j hj; rw [read_storeExtraction]; exact if_pos hj
  case kept => intro j hj; rw [read_storeExtraction]; exact if_neg (Nat.not_lt.mpr hj)

/-- Settles O32: the first round of the extraction is its last, and writing no bits leaves BITS as it is. -/
theorem emptyExtraction : Obligations.EmptyExtraction := by
  unfold Obligations.EmptyExtraction
  intro s hf hfit
  rw [exec_bsextract_fits hf hfit]
  constructor
  · intro hend
    rw [extract_end hend]; rfl
  · intro hlt hff hnext
    rw [extract_marker hlt hff hnext]; rfl

/-! ### The flags and the cursor (R124 to R126) -/

/-- The flags and the cursor of an extraction from index `i` tell where it stopped. -/
structure TellsStop (s : State) (i : Nat) (e : Extraction) : Prop where
  at_marker : e.marker = true →
    i ≤ e.cursor ∧ e.cursor + 1 < s.blen ∧ byteAt s e.cursor = 0xFF ∧ byteAt s (e.cursor + 1) ≠ 0x00
  at_end : e.marker = false → e.cursor = max i s.blen ∧ e.ambig = false
  ambig_iff : e.ambig = true ↔ e.marker = true ∧ byteAt s (e.cursor + 1) = 0xFF

/-- A round that takes a byte, or a pair, leaves the stop to the rounds after it. -/
theorem TellsStop.emit {s : State} {i j : Nat} {e : Extraction} (h : TellsStop s j e) (b : Byte) (hij : i ≤ j)
    (hj : j ≤ s.blen) : TellsStop s i (e.emit b) where
  at_marker := fun hm => by
    obtain ⟨hle, hstop⟩ := h.at_marker hm
    exact ⟨hij.trans hle, hstop⟩
  at_end := fun hm => by
    rw [max_eq_right (hij.trans hj), ← max_eq_right hj]
    exact h.at_end hm
  ambig_iff := h.ambig_iff

theorem tellsStop_extract (s : State) (i : Nat) : TellsStop s i (extract s i) := by
  refine extract_induct ?stop ?data ?pair ?marker i
  case stop =>
    intro i hi
    exact ⟨by simp, fun _ => ⟨(max_eq_left hi).symm, rfl⟩, by simp⟩
  case data => intro i b e hi h; exact h.emit b (by omega) hi
  case pair => intro i e hi h; exact h.emit _ (by omega) hi
  case marker =>
    intro i hi hff hnext
    exact ⟨fun _ => ⟨le_refl i, hi, hff, hnext⟩, by simp, by simp⟩

/-- Settles O30: the stored flags and cursor are those of the extraction. -/
theorem flagsTellWhereExtractionStopped : Obligations.FlagsTellWhereExtractionStopped := by
  unfold Obligations.FlagsTellWhereExtractionStopped
  intro s t hf hfit h
  obtain rfl := eq_storeExtraction_of_exec hf hfit h
  obtain ⟨hmarker, hend, hambig⟩ := tellsStop_extract s s.bcur
  exact ⟨hmarker, hend, hambig⟩

/-! ### The number of bits (R128) -/

theorem Extraction.length_emit (b : Byte) (e : Extraction) : (e.emit b).out.length = 8 + e.out.length := by
  rw [Extraction.emit, List.length_append, length_bits8]

theorem Extraction.eight_dvd_emit {e : Extraction} (h : 8 ∣ e.out.length) (b : Byte) :
    8 ∣ (e.emit b).out.length := by
  rw [Extraction.length_emit]
  exact dvd_add (dvd_refl 8) h

/-- Each round adds eight bits or none. -/
theorem eight_dvd_length_extract (s : State) (i : Nat) : 8 ∣ (extract s i).out.length := by
  refine extract_induct (p := fun _ e => 8 ∣ e.out.length) ?stop ?data ?pair ?marker i
  case stop => intro i _; exact dvd_zero 8
  case data => intro i b e _ h; exact Extraction.eight_dvd_emit h b
  case pair => intro i e _ h; exact Extraction.eight_dvd_emit h _
  case marker => intro i _ _ _; exact dvd_zero 8

/-- Settles O31: BITLEN is the number of extracted bits. -/
theorem extractedLengthBound : Obligations.ExtractedLengthBound := by
  unfold Obligations.ExtractedLengthBound
  intro s t hf hfit h
  obtain rfl := eq_storeExtraction_of_exec hf hfit h
  exact ⟨eight_dvd_length_extract s s.bcur, length_extract_le s s.bcur⟩

end Sys2Proof.Machine
end

section
/-! SUPPORT. The sign-magnitude rule (42_entropy_decoder R149 to R151, R155): a difference, its category and its extra
bits. -/

namespace Sys2Proof.Machine

/-- The magnitude of `d` has exactly `n + 1` bits, at most 15: `n + 1` is one of the categories 1..15. -/
structure InCategory (d : Int) (n : Nat) : Prop where
  small : n + 1 ≤ 15
  lo : 2 ^ n ≤ d.natAbs
  hi : d.natAbs < 2 ^ (n + 1)

/-- Every difference but 0 and the escape has a category in 1..15. -/
theorem exists_inCategory {d : Int} (h0 : d ≠ 0) (hlo : -32767 ≤ d) (hhi : d ≤ 32767) : ∃ n, InCategory d n := by
  have hpos : 1 ≤ d.natAbs := Int.natAbs_pos.mpr h0
  have hlt : d.natAbs < 2 ^ 15 := by omega
  have hbits : nbits d.natAbs < 15 := (Nat.log2_lt (by omega)).mpr hlt
  exact ⟨nbits d.natAbs, hbits, two_pow_nbits_le hpos, lt_two_pow_nbits _⟩

section
variable {d : Int} {n : Nat} (h : InCategory d n)
include h

theorem InCategory.bounds : d ≠ 0 ∧ -32767 ≤ d ∧ d ≤ 32767 := by
  have hlo := (Nat.two_pow_pos n).trans_le h.lo
  have hhi := h.hi.trans_le (Nat.pow_le_pow_right (by norm_num) h.small)
  norm_num at hhi
  omega

theorem InCategory.categoryOf_eq : categoryOf d = n + 1 := by
  obtain ⟨h0, -, hhi⟩ := h.bounds
  rw [categoryOf, if_neg h0, if_neg (by omega)]
  exact congrArg (· + 1) (nbits_eq h.lo h.hi)

theorem InCategory.extraOf_pos (hd : 0 < d) : (extraOf d : Int) = d := by
  obtain ⟨h0, -, hhi⟩ := h.bounds
  rw [extraOf, if_neg (by omega), if_pos hd, Int.toNat_of_nonneg hd.le]

theorem InCategory.extraOf_neg (hd : d < 0) : (extraOf d : Int) = d - 1 + (2 ^ (n + 1) : Nat) := by
  have hhi := h.hi
  rw [extraOf, if_neg (by omega), if_neg (by omega), h.categoryOf_eq, Int.toNat_of_nonneg (by omega)]

/-- The extra bits of a positive difference lie in the upper half of the category's numbers, those of a negative one
in the lower half. -/
theorem InCategory.extraOf_lt : extraOf d < 2 ^ (n + 1) := by
  have hhi := h.hi
  rcases lt_or_gt_of_ne h.bounds.1 with hd | hd
  · have := h.extraOf_neg hd; omega
  · have := h.extraOf_pos hd; omega

/-- Decoding undoes encoding. -/
theorem InCategory.differenceOf_extraOf : differenceOf (n + 1) (extraOf d) = d := by
  have hlo := h.lo
  have hpow := Nat.pow_succ 2 n
  rw [differenceOf_mid h.small h.extraOf_lt]
  rcases lt_or_gt_of_ne h.bounds.1 with hd | hd
  · have := h.extraOf_neg hd
    rw [if_neg (by omega)]; omega
  · have := h.extraOf_pos hd
    rw [if_pos (by omega)]; omega

end

/-- What `n + 1` extra bits decode to is in their category. -/
theorem inCategory_differenceOf {n v : Nat} (hn : n + 1 ≤ 15) (hv : v < 2 ^ (n + 1)) :
    InCategory (differenceOf (n + 1) v) n := by
  have hpow := Nat.pow_succ 2 n
  rw [differenceOf_mid hn hv]
  split <;> exact ⟨hn, by omega, by omega⟩

/-- Encoding undoes decoding. -/
theorem extraOf_differenceOf {n v : Nat} (hn : n + 1 ≤ 15) (hv : v < 2 ^ (n + 1)) :
    extraOf (differenceOf (n + 1) v) = v := by
  have hc := inCategory_differenceOf hn hv
  have hpos := Nat.two_pow_pos n
  have hd := differenceOf_mid hn hv
  by_cases hs : 2 ^ n ≤ v
  · rw [if_pos hs] at hd
    have := hc.extraOf_pos (by omega); omega
  · rw [if_neg hs] at hd
    have := hc.extraOf_neg (by omega); omega

/-- Settles O40: 0 and the escape are their own cases, every other difference lies in a category 1..15. -/
theorem differenceRoundTrip : Obligations.DifferenceRoundTrip := by
  unfold Obligations.DifferenceRoundTrip
  refine ⟨?decodeEncode, ?inverse, ?encodeDecode⟩
  case decodeEncode =>
    intro d hlo hhi
    by_cases h0 : d = 0
    · subst h0; decide
    by_cases h16 : d = 32768
    · subst h16; decide
    obtain ⟨n, hn⟩ := exists_inCategory h0 hlo (by omega)
    have hsmall := hn.small
    have hcount : extraCount (n + 1) = n + 1 := if_neg (by omega)
    rw [hn.categoryOf_eq, hcount]
    exact ⟨by omega, hn.extraOf_lt, hn.differenceOf_extraOf⟩
  case inverse =>
    intro d h0 hlo hhi
    obtain ⟨n, hn⟩ := exists_inCategory h0 hlo hhi
    rw [hn.categoryOf_eq]
    exact ⟨hn.lo, hn.hi, Nat.le_add_left 1 n, hn.small, hn.extraOf_pos, fun hd => by simpa using hn.extraOf_neg hd⟩
  case encodeDecode =>
    intro ssss v h1 h15 hv
    obtain ⟨n, rfl⟩ : ∃ n, ssss = n + 1 := ⟨ssss - 1, by omega⟩
    exact ⟨(inCategory_differenceOf h15 hv).categoryOf_eq, extraOf_differenceOf h15 hv⟩

/-- A decode that returned found a category and took its extra bits. -/
theorem differenceOf_of_decodeDiff {s t : State} {key : Byte} {d : Int} (h : decodeDiff key s = .ok d t) :
    ∃ (ssss : Symbol) (v : Nat), v < 2 ^ extraCount ssss ∧ d = differenceOf ssss v := by
  unfold decodeDiff at h
  split at h
  · cases h
  split at h
  · cases h
  obtain ⟨acc, s1, -, h⟩ := Res.bind_eq_ok.mp h
  obtain ⟨found, s2, -, h⟩ := Res.bind_eq_ok.mp h
  cases found with
  | none => cases h
  | some ssss =>
    obtain ⟨v, s3, htake, h⟩ := Res.bind_eq_ok.mp h
    cases h
    exact ⟨ssss, v, by simpa using takeBits_lt htake, rfl⟩

/-- Settles O38: the range is that of `differenceOf`, and a category below 16 stays below the escape's value. -/
theorem differenceRange : Obligations.DifferenceRange := by
  unfold Obligations.DifferenceRange
  refine ⟨?range, ?escape⟩
  case range =>
    intro s t key d h
    obtain ⟨ssss, v, hv, rfl⟩ := differenceOf_of_decodeDiff h
    exact differenceOf_range (Nat.le_of_lt_succ ssss.isLt) hv
  case escape =>
    intro ssss v h16 hv
    refine ⟨fun hd => ?_, fun he => if_pos he⟩
    by_contra hne
    cases ssss with
    | zero => cases hd
    | succ n => have := (inCategory_differenceOf (by omega) hv).bounds; omega

end Sys2Proof.Machine
end

section
/-! SUPPORT. The ends of EDDIFF (42_entropy_decoder R141 to R152): a codeword decoded, a code missed, bits that run out,
a table refused; and a codeword executed alone without its bits. -/

namespace Sys2Proof.Machine

/-! ### A codeword at the cursor -/

theorem length_instrBits {i : Instr} {ssss code v : Nat} (h : i.codeword? = some (ssss, code, v)) :
    (instrBits i).length = nbits code + extraCount ssss := by
  simp [instrBits, h, codewordBits]

theorem exec_eddiff_codeword {s : State} {key : Byte} {i : Instr} (hf : s.fault = 0)
    (h : CodewordAt s key s.bitpos i) :
    exec (.eddiff key) s =
      .next { s with bitpos := s.bitpos + (instrBits i).length, diff := BitVec.ofInt 18 (instrDifference i) } := by
  rw [exec_next, if_pos hf, instrBody, eddiffBody, decode_at h, Res.bind_ok, Res.state_ok, setDiff]

/-- Settles O34: the decode at the cursor, and the range of a difference within 18 signed bits (10_state R36). -/
theorem eddiffDecodesCodewordAtCursor : Obligations.EddiffDecodesCodewordAtCursor := by
  unfold Obligations.EddiffDecodesCodewordAtCursor
  intro s key i hf h
  refine ⟨exec_eddiff_codeword hf h, ?_⟩
  obtain ⟨hlo, hhi⟩ := differenceRange.1 s _ key _ (decode_at h)
  exact BitVec.toInt_ofInt_eq_self (by norm_num) (by norm_num; omega) (by norm_num; omega)

theorem extraCount_le (ssss : Symbol) : extraCount ssss ≤ 15 := by
  have := ssss.isLt
  unfold extraCount
  split <;> omega

/-- Settles O39: without a fault a codeword lay at the cursor, whose code is a key within the table's lengths. -/
theorem decodeConsumesOneToThirtyOneBits : Obligations.DecodeConsumesOneToThirtyOneBits := by
  unfold Obligations.DecodeConsumesOneToThirtyOneBits
  intro s t key table lens hf hk hw hl hexec ht
  have hslot : ∀ table', slot s key = some table' → WfTable table' := fun _ h =>
    Option.some.inj (hk.symm.trans h) ▸ hw
  obtain ⟨i, hi, -⟩ := eddiffRunsExactlyOneCodeword s t key hf hslot hexec ht
  rw [exec_eddiff_codeword hf hi, Host.Outcome.next.injEq] at hexec
  obtain ⟨table', _, code, v, hk', -, hc, -, hfinds, hhold⟩ := hi
  obtain rfl : table = table' := Option.some.inj (hk.symm.trans hk')
  obtain ⟨sym, rfl, hread⟩ := hfinds.1
  have hmem := Memory.mem_of_read hread
  obtain ⟨hmin, -, hmax, hkeys, -, -⟩ := wf_bounds hw hl
  obtain ⟨-, hlo, hhi⟩ : 2 ≤ code ∧ lens.min.toNat ≤ nbits code ∧ nbits code ≤ lens.max.toNat := hkeys _ hmem
  have hcount := extraCount_le sym
  have hpos : t.bitpos = s.bitpos + (nbits code + extraCount sym) := by
    rw [← hexec, length_instrBits hc]
  exact ⟨(code, sym), hmem, hfinds, (bitsHold_append.mp hhold).1, hlo, hhi, by rw [hpos, ← Nat.add_assoc, extraCount],
    by omega, by omega⟩

/-! ### What the codeword decoder answers when it fails -/

theorem lengths_of_lens {table : HuffTable} {lens : Lengths} (hw : WfTable table) (hl : table.lens = some lens) :
    table.lengths = some lens := by
  obtain ⟨-, -, -, -, ⟨e, he, -⟩, -⟩ := wf_bounds hw hl
  obtain ⟨lens', hl', hlens⟩ := wf_lengths hw (List.ne_nil_of_mem he)
  rw [hlens, ← hl', hl]

section
variable {table : HuffTable} {lens : Lengths} (hw : WfTable table) (hl : table.lens = some lens)
include hw hl

/-- The search after the first min - 1 bits passes over no key: every key is longer than these bits. -/
theorem noKeyAlong_iff {pre bits : List Bool} (hpre : pre.length = lens.min.toNat - 1) :
    NoKeyAlong table.map (pre.foldl shiftIn 1) bits ↔ ∀ e ∈ table.map, ¬ codeBits e.1 <+: pre ++ bits := by
  obtain ⟨hmin, -, -, hkeys, -, -⟩ := wf_bounds hw hl
  constructor
  · intro hno e he hprefix
    obtain ⟨h2, hlo, -⟩ := hkeys e he
    have hlen := length_codeBits e.1
    obtain ⟨p, hp⟩ : pre <+: codeBits e.1 :=
      List.prefix_of_prefix_length_le (List.prefix_append pre bits) hprefix (by omega)
    rw [← hp] at hprefix hlen
    have hne : p ≠ [] := by
      rintro rfl
      rw [List.append_nil] at hlen; omega
    have hmiss := hno p ((List.prefix_append_right_inj pre).mp hprefix) hne
    rw [← List.foldl_append, hp, foldl_codeBits (by omega), Memory.read_of_mem hw.1 he] at hmiss
    cases hmiss
  · intro hno p hp _
    rw [← List.foldl_append]
    by_contra hread
    obtain ⟨sym, hsym⟩ := Option.ne_none_iff_exists'.mp hread
    refine hno _ (Memory.mem_of_read hsym) ?_
    rw [codeBits_foldl_shiftIn]
    exact (List.prefix_append_right_inj pre).mpr hp

/-- The decoder misses exactly when the first (min - 1) + max bits begin with no key (42_entropy_decoder R148). -/
theorem decodeCodeword_noCode {bits : List Bool} :
    decodeCodeword table bits = .error .noCode ↔
      lens.min.toNat - 1 + lens.max.toNat ≤ bits.length ∧
      ∀ e ∈ table.map, ¬ codeBits e.1 <+: bits.take (lens.min.toNat - 1 + lens.max.toNat) := by
  rw [decodeCodeword, lengths_of_lens hw hl]
  dsimp only
  cases htake : takeFrom (lens.min.toNat - 1) 1 bits with
  | none =>
    have := takeFrom_eq_none.mp htake
    simp only [reduceCtorEq, Except.error.injEq, false_iff]
    omega
  | some p =>
    obtain ⟨acc, rest⟩ := p
    obtain ⟨pre, rfl, hpre, rfl⟩ := takeFrom_eq_some htake
    have hfirst : (pre ++ rest).take (lens.min.toNat - 1 + lens.max.toNat) = pre ++ rest.take lens.max.toNat := by
      rw [← hpre, List.take_length_add_append]
    rw [hfirst, ← noKeyAlong_iff hw hl hpre, List.length_append, hpre, Nat.add_le_add_iff_left, ← findCode_noCode]
    dsimp only
    cases hfind : findCode table.map lens.max.toNat (pre.foldl shiftIn 1) rest with
    | error e => simp
    | ok q => dsimp only; split <;> simp

/-- A table with lengths is not empty. -/
theorem decodeCodeword_ne_emptyTable {bits : List Bool} : decodeCodeword table bits ≠ .error .emptyTable := by
  rw [decodeCodeword, lengths_of_lens hw hl]
  dsimp only
  split
  · simp
  · split
    next e hfind =>
      rintro ⟨⟩
      exact findCode_ne_emptyTable hfind
    next => split <;> simp

/-- Where the decoder neither finds a codeword nor misses, the bits ran out. -/
theorem decodeCodeword_exhausted {bits : List Bool} (hfind : ∀ i rest, decodeCodeword table bits ≠ .ok (i, rest))
    (hmiss : decodeCodeword table bits ≠ .error .noCode) : decodeCodeword table bits = .error .bitsExhausted := by
  cases h : decodeCodeword table bits with
  | ok p => exact absurd h (hfind p.1 p.2)
  | error e =>
    cases e with
    | bitsExhausted => rfl
    | noCode => exact absurd h hmiss
    | emptyTable => exact absurd h (decodeCodeword_ne_emptyTable hw hl)

end

/-- A codeword found is a key found: its code is a key and lies at the head of the bits. -/
theorem exists_key_prefix {table : HuffTable} {bits rest : List Bool} {i : Instr} (hw : WfTable table)
    (h : decodeCodeword table bits = .ok (i, rest)) : ∃ e ∈ table.map, codeBits e.1 <+: bits := by
  obtain ⟨-, sym, code, v, -, hread, -, -, -, -, rfl, -⟩ := decodeCodeword_ok h hw
  exact ⟨(code, sym), Memory.mem_of_read hread, by simp [codewordBits]⟩

/-- At most one key that the search finds lies at the head of a bit string (42_entropy_decoder R154). -/
theorem FindsCode.unique {table : HuffTable} {ssss code ssss' code' : Nat} {bits : List Bool}
    (h : FindsCode table ssss code) (h' : FindsCode table ssss' code') (hp : codeBits code <+: bits)
    (hp' : codeBits code' <+: bits) : ssss = ssss' ∧ code = code' := by
  obtain ⟨⟨sym, rfl, hread⟩, hfirst⟩ := h
  obtain ⟨⟨sym', rfl, hread'⟩, hfirst'⟩ := h'
  obtain rfl : code = code' := by
    rcases List.prefix_or_prefix_of_prefix hp hp' with hle | hle
    · exact hfirst' _ (Memory.mem_of_read hread) hle
    · exact (hfirst _ (Memory.mem_of_read hread') hle).symm
  exact ⟨by rw [Option.some.inj (hread.symm.trans hread')], rfl⟩

/-- No codeword is found in bits that end inside a codeword. -/
theorem decodeCodeword_truncated {table : HuffTable} {ssss code v : Nat} {bits : List Bool} (hw : WfTable table)
    (hfinds : FindsCode table ssss code) (hprefix : bits <+: codewordBits ssss code v)
    (hne : bits ≠ codewordBits ssss code v) (i : Instr) (rest : List Bool) :
    decodeCodeword table bits ≠ .ok (i, rest) := by
  intro h
  obtain ⟨-, sym, code', v', -, -, -, -, -, -, hbits, hfinds'⟩ := decodeCodeword_ok h hw
  have hcode' : codeBits code' <+: codewordBits ssss code v := by
    refine List.IsPrefix.trans ?_ hprefix
    simp [hbits, codewordBits]
  obtain ⟨rfl, rfl⟩ := hfinds.unique hfinds' (List.prefix_append _ _) hcode'
  refine hne (hprefix.eq_of_length_le ?_)
  simp [hbits, codewordBits]

/-! ### EDDIFF when the codeword decoder fails -/

theorem exec_eddiff_raised {s t : State} {key : Byte} (hf : s.fault = 0) (h : decodeDiff key s = .raised t) :
    exec (.eddiff key) s = .next t := by
  rw [exec_next, if_pos hf, instrBody, eddiffBody, h, Res.bind_raised, Res.state_raised]

section
variable {s : State} {key : Byte} {table : HuffTable} {lens : Lengths} {bs : List Bool} (hf : s.fault = 0)
  (hk : slot s key = some table) (hhold : BitsHold s s.bitpos bs) (hall : s.bitlen = s.bitpos + bs.length)
include hf hk hhold hall

theorem exec_eddiff_exhausted (h : decodeCodeword table bs = .error .bitsExhausted) :
    exec (.eddiff key) s = .next { s with bitpos := s.bitlen, fault := 5, finfo := finfoOf s.bitlen } := by
  refine exec_eddiff_raised (t := exhausted s) hf ?_
  rw [decodeDiff_eq hk hhold hall, h]

theorem exec_eddiff_noCode (hl : table.lengths = some lens) (h : decodeCodeword table bs = .error .noCode) :
    exec (.eddiff key) s = .next { s with
      bitpos := s.bitpos + (lens.min.toNat - 1 + lens.max.toNat), fault := 1
      finfo := finfoOf (s.bitpos + (lens.min.toNat - 1 + lens.max.toNat)) } := by
  refine exec_eddiff_raised hf ?_
  rw [decodeDiff_eq hk hhold hall, h, hl]
  rfl

end

theorem toNat_finfoOf {n : Nat} (h : n < 2 ^ 40) : (finfoOf n).toNat = n := by
  rw [finfoOf_of_lt h, BitVec.toNat_ofNat, Nat.mod_eq_of_lt h]

/-- Settles O36: with no key at the head of the bits the decoder finds nothing, so it misses at the bound or the
bits run out before. -/
theorem missedCodeRaisesAfterTheBound : Obligations.MissedCodeRaisesAfterTheBound := by
  unfold Obligations.MissedCodeRaisesAfterTheBound
  refine ⟨fun n => toNat_finfoOf, ?_⟩
  intro s key table lens bs hf hk hw hl hhold hno
  refine ⟨?bound, ?short⟩
  case bound =>
    intro hlen
    obtain ⟨rest, hrest⟩ := hold_prefix hhold
    have hle := hhold.le
    obtain ⟨hremaining, hall⟩ := remaining_hold (s := s) (by omega)
    refine exec_eddiff_noCode hf hk hremaining hall (lengths_of_lens hw hl) ((decodeCodeword_noCode hw hl).mpr ?_)
    rw [hrest, List.take_left' hlen, List.length_append]
    exact ⟨by omega, hno⟩
  case short =>
    intro hlen hall
    refine exec_eddiff_exhausted hf hk hhold hall (decodeCodeword_exhausted hw hl (fun i rest h => ?_) fun h => ?_)
    · obtain ⟨e, he, hprefix⟩ := exists_key_prefix hw h
      exact hno e he hprefix
    · exact absurd ((decodeCodeword_noCode hw hl).mp h).1 (Nat.not_le.mpr hlen)

/-- Settles O37: the decoder finds no codeword, and it does not miss: bits beyond the bound would begin with the whole
code. -/
theorem truncatedCodewordRaisesBitsExhausted : Obligations.TruncatedCodewordRaisesBitsExhausted := by
  unfold Obligations.TruncatedCodewordRaisesBitsExhausted
  intro s key table ssss code v bs hf hk hw hfinds hprefix hne hhold hall
  obtain ⟨sym, -, hread⟩ := hfinds.1
  have hmem := Memory.mem_of_read hread
  obtain ⟨lens, hl, -⟩ := wf_lengths hw (List.ne_nil_of_mem hmem)
  obtain ⟨-, -, -, hkeys, -, -⟩ := wf_bounds hw hl
  obtain ⟨-, -, hmax⟩ : 2 ≤ code ∧ lens.min.toNat ≤ nbits code ∧ nbits code ≤ lens.max.toNat := hkeys _ hmem
  refine exec_eddiff_exhausted hf hk hhold hall
    (decodeCodeword_exhausted hw hl (decodeCodeword_truncated hw hfinds hprefix hne) fun hmiss => ?_)
  obtain ⟨hlen, hno⟩ := (decodeCodeword_noCode hw hl).mp hmiss
  have hcode : (codeBits code).length ≤ lens.min.toNat - 1 + lens.max.toNat := by rw [length_codeBits]; omega
  have hhead : codeBits code <+: bs :=
    List.prefix_of_prefix_length_le (List.prefix_append _ _) hprefix (hcode.trans hlen)
  exact hno _ hmem (List.prefix_take_iff.mpr ⟨hhead, hcode⟩)

/-! ### A codeword executed alone, and the tests of the table -/

/-- Settles O42: a codeword takes all its bits at once, and these run out. -/
theorem codewordWithMissingBitsRaises : Obligations.CodewordWithMissingBitsRaises := by
  unfold Obligations.CodewordWithMissingBitsRaises
  intro s i hf hi hle hmissing
  obtain ⟨⟨ssss, code, v⟩, hc⟩ := Option.ne_none_iff_exists'.mp hi
  obtain ⟨-, h17, -⟩ := codeword?_spec hc
  have hcode : (BitVec.ofNat 17 code).toNat = code := by rw [BitVec.toNat_ofNat, Nat.mod_eq_of_lt h17]
  rw [length_instrBits hc] at hmissing
  rw [exec_next, if_pos hf, instrBody_codeword hc, codewordBody, hcode, takeBits_exhausted 0 hle hmissing]
  rfl

/-- Settles O33: the two refusals, before any bit is read. -/
theorem eddiffTestsTheTable : Obligations.EddiffTestsTheTable := by
  unfold Obligations.EddiffTestsTheTable
  intro s key hf
  refine ⟨exec_eddiff_noTable hf, fun table hk hempty => exec_eddiff_emptyTable hf hk ?_⟩
  rw [HuffTable.lengths, hempty]
  rfl

end Sys2Proof.Machine
end

section
/-! SUPPORT. Positions in the frame, the prediction made at each, and the value stored (43_predictive_reconstructor
R166 to R174). -/

namespace Sys2Proof.Machine

/-! ### Positions -/

theorem row_lt {s : State} (h : s.slen < totalSamples s) : row s < s.frmH.toNat := by
  rw [row, Nat.div_div_eq_div_mul]
  apply Nat.div_lt_of_lt_mul
  calc s.slen < s.frmW.toNat * s.frmH.toNat * s.frmNc.toNat := h
    _ = s.frmNc.toNat * s.frmW.toNat * s.frmH.toNat := by ring

/-- Settles O47: quotients and remainders lie below their divisors, and `slen_eq` is the index map. -/
theorem positionLiesInFrame : Obligations.PositionLiesInFrame := by
  unfold Obligations.PositionLiesInFrame
  intro s h
  have hnc := frmNc_pos h
  have hw := frmW_pos h
  exact ⟨hnc, hw, rfl, rfl, rfl, Nat.mod_lt _ hnc, Nat.mod_lt _ hw, row_lt h, (slen_eq s).symm⟩

/-- The position derived from an index of the form the index map gives (10_state R45). -/
theorem position_of_index {s : State} {n x y c : Nat} (hn : n = (y * s.frmW.toNat + x) * s.frmNc.toNat + c)
    (hc : c < s.frmNc.toNat) (hx : x < s.frmW.toNat) :
    component (atSample s n) = c ∧ column (atSample s n) = x ∧ row (atSample s n) = y := by
  obtain ⟨hdiv, hmod⟩ : n / s.frmNc.toNat = y * s.frmW.toNat + x ∧ n % s.frmNc.toNat = c :=
    (Nat.div_mod_unique (Nat.zero_lt_of_lt hc)).mpr ⟨by rw [hn]; ring, hc⟩
  obtain ⟨hrow, hcol⟩ : (y * s.frmW.toNat + x) / s.frmW.toNat = y ∧ (y * s.frmW.toNat + x) % s.frmW.toNat = x :=
    (Nat.div_mod_unique (Nat.zero_lt_of_lt hx)).mpr ⟨by ring, hx⟩
  refine ⟨hmod, ?_, ?_⟩
  · show n / s.frmNc.toNat % s.frmW.toNat = x
    rw [hdiv, hcol]
  · show n / s.frmNc.toNat / s.frmW.toNat = y
    rw [hdiv, hrow]

/-- `offset` places back in the buffer stands the sample at column `x` and row `y` of the same component. -/
theorem position_back {s : State} {offset x y : Nat} (hnc : 0 < s.frmNc.toNat) (hx : x < s.frmW.toNat)
    (h : s.slen = (y * s.frmW.toNat + x) * s.frmNc.toNat + component s + offset) :
    offset ≤ s.slen ∧ component (atSample s (s.slen - offset)) = component s ∧
      column (atSample s (s.slen - offset)) = x ∧ row (atSample s (s.slen - offset)) = y :=
  ⟨h ▸ Nat.le_add_left _ _, position_of_index (Nat.sub_eq_of_eq_add h) (Nat.mod_lt _ hnc) hx⟩

/-- Settles O48: each offset is the difference of two values of the index map. -/
theorem neighbourOffsetsNameTheirPositions : Obligations.NeighbourOffsetsNameTheirPositions := by
  unfold Obligations.NeighbourOffsetsNameTheirPositions
  intro s h
  have hnc := frmNc_pos h
  have hcol : column s < s.frmW.toNat := Nat.mod_lt _ (frmW_pos h)
  have hpos := slen_eq s
  refine ⟨fun hx => ?left, fun hy => ?above, fun hx hy => ?aboveLeft⟩
  case left =>
    obtain ⟨x, hx⟩ := Nat.exists_eq_add_one.mpr hx
    rw [hx] at hpos hcol
    rw [hx, Nat.add_sub_cancel]
    exact position_back hnc (by omega) (hpos.trans (by ring))
  case above =>
    obtain ⟨y, hy⟩ := Nat.exists_eq_add_one.mpr hy
    rw [hy] at hpos
    rw [hy, Nat.add_sub_cancel]
    exact position_back hnc hcol (hpos.trans (by ring))
  case aboveLeft =>
    obtain ⟨x, hx⟩ := Nat.exists_eq_add_one.mpr hx
    obtain ⟨y, hy⟩ := Nat.exists_eq_add_one.mpr hy
    rw [hx, hy] at hpos
    rw [hx] at hcol
    rw [hx, hy, Nat.add_sub_cancel, Nat.add_sub_cancel, Nat.sub_sub]
    exact position_back hnc (by omega) (hpos.trans (by ring))

/-! ### The prediction -/

theorem predict_origin {s : State} (hc : column s = 0) (hr : row s = 0) : predict s = some (originConstant s) :=
  if_pos ⟨hc, hr⟩

theorem predict_firstColumn {s : State} (hc : column s = 0) (hr : 0 < row s) :
    predict s = some ((sampleAt s (s.slen - s.frmW.toNat * s.frmNc.toNat)).toNat : Int) := by
  rw [predict, if_neg (by omega), if_pos hc, above_of_row hr]

theorem predict_firstRow {s : State} (hc : 0 < column s) (hr : row s = 0) :
    predict s = some ((sampleAt s (s.slen - s.frmNc.toNat)).toNat : Int) := by
  rw [predict, if_neg (by omega), if_neg (by omega), if_pos hr, left_of_column hc]

theorem predict_interior {s : State} (hc : 0 < column s) (hr : 0 < row s) :
    predict s = some (interiorPrediction s.scnSs (sampleAt s (s.slen - s.frmNc.toNat)).toNat
      (sampleAt s (s.slen - s.frmW.toNat * s.frmNc.toNat)).toNat
      (sampleAt s (s.slen - (s.frmW.toNat * s.frmNc.toNat + s.frmNc.toNat))).toNat (originConstant s)) := by
  rw [predict, if_neg (by omega), if_neg (by omega), if_neg (by omega), left_of_column hc, above_of_row hr,
    aboveLeft_of_interior hc hr]

/-- The first Nc samples stand at the origin. -/
theorem origin_of_first {s : State} (h : s.slen < s.frmNc.toNat) : column s = 0 ∧ row s = 0 := by
  rw [column, row, Nat.div_eq_of_lt h]
  exact ⟨Nat.zero_mod _, Nat.zero_div _⟩

/-- Settles O50: one equation of `predict` per border. -/
theorem bordersOverrideTheSelector : Obligations.BordersOverrideTheSelector := by
  unfold Obligations.BordersOverrideTheSelector
  intro s _
  refine ⟨predict_origin, predict_firstColumn, predict_firstRow, predict_interior, fun hfirst => ?_⟩
  obtain ⟨hc, hr⟩ := origin_of_first hfirst
  exact predict_origin hc hr

theorem half_eq_fdiv (v : Int) : half v = v.fdiv 2 := (Int.fdiv_eq_ediv_of_nonneg v (by decide)).symm

/-- A selector outside the table gives the origin constant (43_predictive_reconstructor R172). -/
theorem interiorPrediction_of_ge {ss : Byte} (h : 8 ≤ ss.toNat) (a b c origin : Int) :
    interiorPrediction ss a b c origin = origin := by
  obtain ⟨n, hn⟩ := Nat.exists_eq_add_of_le' h
  rw [interiorPrediction, hn]
  rfl

/-- Settles O51: each selector picks its row of the table. -/
theorem interiorFollowsPredictorTable : Obligations.InteriorFollowsPredictorTable := by
  unfold Obligations.InteriorFollowsPredictorTable
  refine ⟨?_, by decide⟩
  intro s a b c _ hcol hrow ha hb hc
  have h := predict_interior hcol hrow
  rw [← ha, ← hb, ← hc] at h
  refine ⟨fun hs => ?_, fun hs => ?_, fun hs => ?_, fun hs => ?_, fun hs => ?_, fun hs => ?_, fun hs => ?_,
    fun hs => ?_, fun hs => ?other⟩
  case other => rw [h, interiorPrediction_of_ge hs]; rfl
  all_goals
    rw [h, hs]
    simp [interiorPrediction, half_eq_fdiv]

/-! ### The value stored -/

theorem toNat_reconstruct {p : Nat} (hp : p ≤ 16) (pred d : Int) :
    ((reconstruct p pred d).toNat : Int) = (pred + d) % 2 ^ p := by
  have hpos : (0 : Int) < 2 ^ p := by positivity
  have hle : (2 : Int) ^ p ≤ 2 ^ 16 := by gcongr; norm_num
  have hlo := Int.emod_nonneg (pred + d) hpos.ne'
  have hhi := Int.emod_lt_of_pos (pred + d) hpos
  rw [reconstruct, BitVec.toNat_ofNat, Nat.cast_pow, Nat.cast_ofNat, Nat.mod_eq_of_lt (by omega),
    Int.toNat_of_nonneg hlo]

/-- The escape difference is a multiple of 2^P below P = 16 (43_predictive_reconstructor R174). -/
theorem reconstruct_escape {p : Nat} (hp : p ≤ 15) (pred : Int) :
    reconstruct p pred 32768 = reconstruct p pred 0 := by
  have hmul : (32768 : Int) = (2 ^ p : Nat) * 2 ^ (15 - p) := by
    rw [Nat.cast_pow, Nat.cast_ofNat, ← pow_add, Nat.add_sub_cancel' hp]; norm_num
  rw [reconstruct, reconstruct, hmul, Int.add_mul_emod_self_left, add_zero]

/-- At P = 16 the stored value is the low 16 bits of the sum. -/
theorem reconstruct_sixteen (pred d : Int) : reconstruct 16 pred d = BitVec.ofInt 16 (pred + d) := by
  apply BitVec.eq_of_toNat_eq
  rw [← Int.natCast_inj, toNat_reconstruct (le_refl _), BitVec.toNat_ofInt]
  omega

/-- Adding the top bit inverts it. -/
theorem add_topBit (x : Sample) : x + 0x8000 = x ^^^ 0x8000 := by
  have hsum : (x + 0x8000).toNat = (2 ^ 15 + x.toNat) % 2 ^ 16 := by rw [BitVec.toNat_add, Nat.add_comm]; rfl
  have htop : (0x8000 : Sample).toNat = 2 ^ 15 := rfl
  refine BitVec.eq_of_getLsbD_eq fun i hi => ?_
  rw [BitVec.getLsbD_xor, BitVec.getLsbD, BitVec.getLsbD, BitVec.getLsbD, hsum, htop, Nat.testBit_mod_two_pow,
    Nat.testBit_two_pow]
  rcases Nat.lt_or_eq_of_le (Nat.le_of_lt_succ hi) with hlow | rfl
  · rw [Nat.testBit_two_pow_add_gt hlow]
    simp [hi, hlow.ne']
  · rw [Nat.testBit_two_pow_add_eq]
    simp

/-- Settles O52: the value is the remainder, of which the escape is a multiple, or at P = 16 the top bit. -/
theorem storedValueWrapsModuloTwoToTheP : Obligations.StoredValueWrapsModuloTwoToTheP := by
  unfold Obligations.StoredValueWrapsModuloTwoToTheP
  refine ⟨fun p pred d _ hp => ⟨toNat_reconstruct hp pred d, reconstruct_lt p pred d⟩, rfl, rfl,
    fun p pred _ hp => reconstruct_escape hp pred, fun pred => ?_⟩
  rw [reconstruct_sixteen, reconstruct_sixteen, BitVec.ofInt_add, add_zero]
  exact add_topBit _

end Sys2Proof.Machine
end

section
/-! SUPPORT. PRINIT, one Step, and the commands that run Steps (43_predictive_reconstructor R161 to R165, R174, R178,
R179): what each does on a complete buffer, on an illegal scan, on a table refused, on a codeword, and in turn. -/

namespace Sys2Proof.Machine

/-- Behind the fault gate no instruction changes anything (60_exceptions R215). -/
theorem exec_blocked (i : Instr) {s : State} (h : s.fault ≠ 0) : exec i s = .next s := by
  rw [exec_next, if_neg h]

theorem exec_prinit {s : State} (hf : s.fault = 0) : exec .prinit s = .next { s with slen := 0 } := by
  rw [exec_next, if_pos hf]; rfl

/-- Settles O43: PRINIT's body behind the gate, and SCANDONE by its definition. -/
theorem prinitEmptiesTheBuffer : Obligations.PrinitEmptiesTheBuffer := by
  unfold Obligations.PrinitEmptiesTheBuffer
  intro s
  refine ⟨exec_blocked _, exec_prinit, ?_⟩
  have htotal : totalSamples { s with slen := 0 } = totalSamples s := rfl
  by_cases h : totalSamples s = 0
  · simp [hostRead, scanDone, htotal, h]
  · simp [hostRead, scanDone, htotal, h, Ne.symm h]

/-! ### The commands against one Step -/

/-- PRSAMPLE ends where its Step ends. -/
theorem exec_prsample {s : State} (hf : s.fault = 0) : exec .prsample s = .next (reconstructStep s).state := by
  rw [exec_next, if_pos hf, instrBody, prsampleBody]
  cases reconstructStep s <;> rfl

theorem exec_prscan {s : State} (hf : s.fault = 0) : exec .prscan s = .next (prscanBody s).state := by
  rw [exec_next, if_pos hf, instrBody]

/-- PRSCAN goes on from a Step that appended as PRSCAN does (43_predictive_reconstructor R178). -/
theorem exec_prscan_appended {s t : State} (hf : s.fault = 0) (h : reconstructStep s = .ok true t) :
    t.fault = 0 ∧ exec .prscan s = exec .prscan t := by
  have ht : t.fault = 0 := by
    obtain ⟨-, -, -, -, -, u, -, -, rfl, -, hu, -⟩ := step_appended h
    exact hu.trans hf
  refine ⟨ht, ?_⟩
  rw [exec_prscan hf, exec_prscan ht, prscanBody_unroll, h]
  rfl

section
variable {i : Instr} {s t : State} (hi : i = .prsample ∨ i = .prscan)
include hi

theorem exec_of_step_raised (hf : s.fault = 0) (h : reconstructStep s = .raised t) : exec i s = .next t := by
  rcases hi with rfl | rfl
  · rw [exec_prsample hf, h]; rfl
  · rw [exec_prscan hf, prscanBody_unroll, h]; rfl

/-- On a complete buffer both commands do nothing, with a fault or without (43_predictive_reconstructor R163). -/
theorem exec_of_complete (h : s.slen = totalSamples s) : exec i s = .next s := by
  have hstep : reconstructStep s = .ok false s := if_pos h
  by_cases hf : s.fault = 0
  · rcases hi with rfl | rfl
    · rw [exec_prsample hf, hstep]; rfl
    · rw [exec_prscan hf, prscanBody_unroll, hstep]; rfl
  · exact exec_blocked i hf

/-- A test of CheckScan that fails (43_predictive_reconstructor R162). -/
theorem exec_of_checkScan {f : FaultCode} {n : Nat} (hf : s.fault = 0) (hne : s.slen ≠ totalSamples s)
    (hc : checkScan s = some (f, n)) : exec i s = .next (raise f n s) := by
  apply exec_of_step_raised hi hf
  rw [reconstructStep, if_neg hne, hc]
  rfl

/-- With no sample owed both commands keep SLEN and the samples. -/
theorem exec_keeps_samples (hle : totalSamples s ≤ s.slen) (h : exec i s = .next t) :
    t.slen = s.slen ∧ t.samp = s.samp := by
  by_cases hf : s.fault = 0
  · rcases reconstructStep_cases s with ⟨hc, -⟩ | ⟨hne, f, n, hc, -⟩ | ⟨hlt, -⟩ | ⟨hlt, -⟩ | ⟨hlt, -⟩
    · cases (exec_of_complete hi hc).symm.trans h; exact ⟨rfl, rfl⟩
    · cases (exec_of_checkScan hi hf hne hc).symm.trans h; exact ⟨rfl, rfl⟩
    all_goals exact absurd hlt (Nat.not_lt.mpr hle)
  · cases (exec_blocked i hf).symm.trans h; exact ⟨rfl, rfl⟩

end

theorem totalSamples_eq_zero {s : State} (h : s.frmW = 0 ∨ s.frmH = 0 ∨ s.frmNc = 0) : totalSamples s = 0 := by
  rcases h with h | h | h <;> simp [totalSamples, h]

/-- Settles O44: a complete buffer stops the Step before its tests, and a total of 0 leaves no sample owed. -/
theorem completeBufferDoesNothing : Obligations.CompleteBufferDoesNothing := by
  unfold Obligations.CompleteBufferDoesNothing
  intro s
  refine ⟨rfl, totalSamples_lt s, fun h => ⟨exec_of_complete (.inl rfl) h, exec_of_complete (.inr rfl) h⟩,
    fun h0 => ?_⟩
  have htotal := totalSamples_eq_zero h0
  have hle : totalSamples s ≤ s.slen := by rw [htotal]; exact Nat.zero_le _
  exact ⟨htotal, fun t ht => ht.elim (exec_keeps_samples (.inl rfl) hle) (exec_keeps_samples (.inr rfl) hle)⟩

/-- Settles O45: each clause is the branch of CheckScan its hypotheses lead to. -/
theorem scanTestsInOrder : Obligations.ScanTestsInOrder := by
  unfold Obligations.ScanTestsInOrder
  intro s i hf hne hi
  have raises {f : FaultCode} {n : Nat} (hc : checkScan s = some (f, n)) : exec i s = .next (raise f n s) :=
    exec_of_checkScan hi hf hne hc
  refine ⟨fun hp => raises (if_pos hp), fun hp2 hp16 => ⟨fun hpt => ?pt, fun hpt => ⟨fun hnc => ?nc, fun hnc =>
    ⟨fun cap hcap hlt => ?cap, fun hcap hlt => ?slen⟩⟩⟩⟩
  all_goals have hp : ¬ (s.frmP.toNat < 2 ∨ 16 < s.frmP.toNat) := by omega
  case pt => exact raises (by rw [checkScan, if_neg hp, if_pos hpt])
  case nc => exact raises (by rw [checkScan, if_neg hp, if_neg (Nat.not_lt.mpr hpt), if_pos hnc])
  case cap =>
    have hbeyond : s.params.sampCap.any (· < totalSamples s) = true := (any_lt_iff _ _).mpr ⟨cap, hcap, hlt⟩
    rw [← finfoOf_of_lt (totalSamples_lt s)]
    exact raises (by
      rw [checkScan, if_neg hp, if_neg (Nat.not_lt.mpr hpt), if_neg (Nat.not_lt.mpr hnc), if_pos hbeyond])
  case slen =>
    have hwithin : ¬ s.params.sampCap.any (· < totalSamples s) = true := by
      rw [any_lt_iff]
      rintro ⟨cap, hc, hlt⟩
      exact absurd (hcap cap hc) (Nat.not_le.mpr hlt)
    exact raises (by
      rw [checkScan, if_neg hp, if_neg (Nat.not_lt.mpr hpt), if_neg (Nat.not_lt.mpr hnc), if_neg hwithin, if_pos hlt])

/-! ### A legal Step -/

/-- The Step of a legal scan with a sample owed: the selector, the decode, the sample (43_predictive_reconstructor
R165). -/
theorem reconstructStep_legal {s : State} {pred : Int} (hl : ScanLegal s) (hlt : s.slen < totalSamples s)
    (hp : predict s = some pred) :
    reconstructStep s =
      if s.scnNs.toNat ≤ component s then Res.raise .badParam 7 s
      else (decodeDiff (tableKey s (component s)) s).bind fun d s' =>
        .ok true (appendSample (reconstruct s.frmP.toNat pred d) s') := by
  simp only [reconstructStep, if_neg hlt.ne, checkScan_eq_none.mpr hl, hp]

theorem decodeDiff_noTable {s : State} {key : Byte} (h : slot s key = none) :
    decodeDiff key s = Res.raise .noTable key.toNat s := by
  rw [decodeDiff, h]

theorem decodeDiff_emptyTable {s : State} {key : Byte} {table : HuffTable} (h : slot s key = some table)
    (hempty : table.map = []) : decodeDiff key s = Res.raise .emptyTable key.toNat s := by
  have hlengths : table.lengths = none := by rw [HuffTable.lengths, hempty]; rfl
  simp only [decodeDiff, h, hlengths]

theorem finfoOf_key (key : Byte) : finfoOf key.toNat = BitVec.ofNat 40 key.toNat :=
  finfoOf_of_lt (by have := key.isLt; omega)

/-- A decode that raised ends PRSAMPLE (43_predictive_reconstructor R165). -/
theorem exec_prsample_decode_raised {s t : State} (hf : s.fault = 0) (hl : ScanLegal s)
    (hlt : s.slen < totalSamples s) (hns : component s < s.scnNs.toNat)
    (h : decodeDiff (tableKey s (component s)) s = .raised t) :
    exec .prsample s = .next t := by
  obtain ⟨pred, hp⟩ := predict_isSome s
  apply exec_of_step_raised (.inl rfl) hf
  rw [reconstructStep_legal hl hlt hp, if_neg (Nat.not_le.mpr hns), h]
  rfl

/-- Settles O46: the selector's test, then the two refusals of the decode. -/
theorem tableSelectionFaults : Obligations.TableSelectionFaults := by
  unfold Obligations.TableSelectionFaults
  intro s hf hl hlt
  refine ⟨fun hns => ?selector, fun hns => ⟨fun hk => ?noTable, fun table hk hempty => ?emptyTable⟩⟩
  case selector =>
    obtain ⟨pred, hp⟩ := predict_isSome s
    exact exec_of_step_raised (.inl rfl) hf ((reconstructStep_legal hl hlt hp).trans (if_pos hns))
  all_goals rw [← finfoOf_key]
  case noTable => exact exec_prsample_decode_raised hf hl hlt hns (decodeDiff_noTable hk)
  case emptyTable => exact exec_prsample_decode_raised hf hl hlt hns (decodeDiff_emptyTable hk hempty)

/-- The state after one Step on the codeword `i` with the prediction `pred`. -/
def afterCodeword (s : State) (pred : Int) (i : Instr) : State :=
  { s with
    samp := s.samp.write s.slen (reconstruct s.frmP.toNat pred (instrDifference i))
    slen := s.slen + 1
    bitpos := s.bitpos + (instrBits i).length }

/-- With a codeword of the component's table at the cursor a Step appends its sample (43_predictive_reconstructor
R165, R175). -/
theorem reconstructStep_codeword {s : State} {i : Instr} {pred : Int} (hl : ScanLegal s)
    (hlt : s.slen < totalSamples s) (hns : component s < s.scnNs.toNat)
    (hcw : CodewordAt s (tableKey s (component s)) s.bitpos i) (hp : predict s = some pred) :
    reconstructStep s = .ok true (afterCodeword s pred i) := by
  rw [reconstructStep_legal hl hlt hp, if_neg (Nat.not_le.mpr hns), decode_at hcw]
  rfl

/-- Settles O53: PRSAMPLE is the Step on the codeword. -/
theorem prsampleAppendsOneSample : Obligations.PrsampleAppendsOneSample := by
  unfold Obligations.PrsampleAppendsOneSample
  intro s i hf hl hlt hns hcw
  obtain ⟨pred, hp⟩ := predict_isSome s
  refine ⟨pred, hp, ?_⟩
  rw [exec_prsample hf, reconstructStep_codeword hl hlt hns hcw hp]
  rfl

theorem ne_zero_of_mem_stepFaults {f : BitVec 4} (h : f ∈ stepFaults) : f ≠ 0 := by
  rintro rfl
  exact absurd h (by decide)

/-- Settles O54: a Step that raised moved BITPOS, FAULT and FINFO alone; every other end of a Step leaves FAULT
0. -/
theorem faultingPrsampleAppendsNothing : Obligations.FaultingPrsampleAppendsNothing := by
  unfold Obligations.FaultingPrsampleAppendsNothing
  intro s t hf h hfault
  rw [exec_prsample hf, Host.Outcome.next.injEq] at h
  subst h
  cases hstep : reconstructStep s with
  | raised t =>
    obtain ⟨⟨e, -, -⟩, -, -⟩ := step_raised hstep
    exact e
  | ok appended t =>
    rw [hstep, Res.state_ok] at hfault
    cases appended with
    | true => exact absurd (exec_prscan_appended hf hstep).1 hfault
    | false =>
      obtain ⟨rfl, -⟩ := step_complete hstep
      exact absurd hf hfault

/-! ### NEIGHBOR -/

/-- Without a fault before, an instruction ends with a fault of 60_exceptions R200 that the model raises, or none. -/
theorem fault_mem_faultCodes {i : Instr} {s t : State} (hf : s.fault = 0) (h : exec i s = .next t) :
    t.fault ∈ faultCodes := by
  have hzero : s.fault ∈ faultCodes := by rw [hf]; decide
  have scanned {u : State} (hu : u.fault = s.fault) (hs : Scanned u t) : t.fault ∈ faultCodes := by
    rcases hs.fault with ⟨e, -⟩ | hm
    · rw [e, hu]; exact hzero
    · exact stepFaults_subset hm
  cases exec_effect h with
  | blocked hb => exact absurd hf hb
  | tableRefused | bytesRefused => exact code_mem_faultCodes (f := .badParam) (by decide)
  | built | extracted | emptied => exact hzero
  | decoded _ hd =>
    rcases hd.fault with e | hm
    · rw [e]; exact hzero
    · exact decodeFaults_subset hm
  | reconstructed _ hs => exact scanned (u := s) rfl hs
  | rescanned _ hs => exact scanned (u := afterExtraction s) rfl hs

/-- Settles O49: every prediction has its neighbours, and 3 is none of the fault codes an instruction leaves. -/
theorem neighborFaultIsUnreachable : Obligations.NeighborFaultIsUnreachable := by
  unfold Obligations.NeighborFaultIsUnreachable
  refine ⟨fun s _ => Option.isSome_iff_exists.mpr (predict_isSome s), fun i s t hf h h3 => ?_⟩
  have hm := fault_mem_faultCodes hf h
  rw [h3] at hm
  exact absurd hm (by decide)

/-! ### PRSCAN and SCAN -/

/-- How the loop ends when it has a round for every sample owed and one more: the buffer is complete, or a Step raised
(43_predictive_reconstructor R178). -/
theorem scanLoop_done {fuel : Nat} {s : State} (h : totalSamples s - s.slen < fuel) :
    (scanLoop fuel s).state.slen = totalSamples (scanLoop fuel s).state ∨ (scanLoop fuel s).state.fault ≠ 0 := by
  induction fuel generalizing s with
  | zero => exact absurd h (Nat.not_lt_zero _)
  | succ n ih =>
    cases hstep : reconstructStep s with
    | raised t =>
      obtain ⟨-, hfaults, -⟩ := step_raised hstep
      rw [scanLoop, hstep]
      exact .inr (ne_zero_of_mem_stepFaults hfaults)
    | ok appended t =>
      rw [scanLoop, hstep]
      cases appended with
      | true =>
        obtain ⟨hlt, -⟩ := step_appended hstep
        obtain ⟨htotal, hslen⟩ := totalSamples_appended hstep
        exact ih (by omega)
      | false =>
        obtain ⟨rfl, hdone⟩ := step_complete hstep
        exact .inl hdone

/-- Settles O56: the loop unrolled once, and its two ends. -/
theorem prscanRepeatsPrsample : Obligations.PrscanRepeatsPrsample := by
  unfold Obligations.PrscanRepeatsPrsample
  refine ⟨fun s h => h.elim (exec_blocked _) (exec_of_complete (.inr rfl)), fun s hf => ⟨fun s1 hne h => ?_, ?_⟩⟩
  · rw [exec_prsample hf, Host.Outcome.next.injEq] at h
    subst h
    cases hstep : reconstructStep s with
    | raised t =>
      obtain ⟨-, hfaults, -⟩ := step_raised hstep
      exact ⟨fun h0 => absurd h0 (ne_zero_of_mem_stepFaults hfaults),
        fun _ => exec_of_step_raised (.inr rfl) hf hstep⟩
    | ok appended t =>
      cases appended with
      | true =>
        obtain ⟨ht, hexec⟩ := exec_prscan_appended hf hstep
        exact ⟨fun _ => hexec, absurd ht⟩
      | false => exact absurd (step_complete hstep).2 hne
  · refine ⟨(prscanBody s).state, exec_prscan hf, fun h0 => ?_⟩
    have hdone : (prscanBody s).state.slen = totalSamples (prscanBody s).state :=
      (scanLoop_done (Nat.lt_succ_self _)).resolve_right (not_not.mpr h0)
    exact ⟨hdone, by simp [hostRead, scanDone, hdone]⟩

/-- SCAN on bytes that fit is PRSCAN from the extracted bits and an empty buffer (43_predictive_reconstructor R179). -/
theorem exec_scan_fits {s : State} (hf : s.fault = 0) (hfit : BlenFits s) :
    exec .scan s = exec .prscan (afterExtraction s) := by
  have hf' : (afterExtraction s).fault = 0 := hf
  rw [exec_next, if_pos hf, instrBody, scanBody_fits hfit, exec_prscan hf']

theorem exec_scan_refused {s : State} (hf : s.fault = 0) (h : ¬ BlenFits s) :
    exec .scan s = .next { s with fault := 6, finfo := 3 } := by
  rw [exec_next, if_pos hf, instrBody, scanBody, bsextractBody_refused h]
  rfl

/-- Settles O58: a fault, old or of the extraction, stops all three commands; otherwise SCAN runs them in turn. -/
theorem scanIsBsextractPrinitPrscan : Obligations.ScanIsBsextractPrinitPrscan := by
  unfold Obligations.ScanIsBsextractPrinitPrscan
  intro s s1 s2 s3 h1 h2 h3
  by_cases hf : s.fault = 0
  · by_cases hfit : BlenFits s
    · have hf1 : (storeExtraction (extract s s.bcur) s).fault = 0 := hf
      cases (exec_bsextract_fits hf hfit).symm.trans h1
      cases (exec_prinit hf1).symm.trans h2
      exact (exec_scan_fits hf hfit).trans h3
    · cases (exec_bsextract_refused hf hfit).symm.trans h1
      have hraised : ({ s with fault := 6, finfo := 3 } : State).fault ≠ 0 := code_ne_zero .badParam
      cases (exec_blocked _ hraised).symm.trans h2
      cases (exec_blocked _ hraised).symm.trans h3
      exact exec_scan_refused hf hfit
  · cases (exec_blocked _ hf).symm.trans h1
    cases (exec_blocked _ hf).symm.trans h2
    cases (exec_blocked _ hf).symm.trans h3
    exact exec_blocked _ hf

end Sys2Proof.Machine
end

section
/-! SUPPORT. A run of codewords, one per sample still owed: PRSCAN and SCAN on it (43_predictive_reconstructor R178,
R179; 30_encoding R81). -/

namespace Sys2Proof.Machine

/-! ### The run along the scan -/

/-- A run of codewords rests on nothing a Step writes. -/
theorem codewordRun_congr {s : State} {m : Memory Sample} {l p pos n : Nat} {is : List Instr} :
    CodewordRun { s with samp := m, slen := l, bitpos := p } pos n is ↔ CodewordRun s pos n is := by
  have hbits {pos : Nat} {bs : List Bool} :
      BitsHold { s with samp := m, slen := l, bitpos := p } pos bs ↔ BitsHold s pos bs :=
    bitsHold_congr (by rfl) (by rfl) (by rfl)
  induction is generalizing pos n with
  | nil => exact Iff.rfl
  | cons i rest ih => simp only [CodewordRun, CodewordAt, hbits, ih, slot, tableKey]

/-- The samples below SLEN determine a prediction while a sample is owed (43_predictive_reconstructor R167, R168). -/
theorem predict_congr {s : State} {m : Memory Sample} {p : Nat} (hlt : s.slen < totalSamples s)
    (hm : ∀ n < s.slen, m.read n = s.samp.read n) : predict { s with samp := m, bitpos := p } = predict s :=
  SameBelowLengths.predict (s' := { s with samp := m }) ⟨rfl, fun _ _ => rfl, hm⟩ hlt

/-- `t` is `s` with the image completed from the codewords `is`: every new sample is the value reconstructed with the
prediction made in `t` itself (43_predictive_reconstructor R174, R178). -/
structure Completed (s : State) (is : List Instr) (t : State) : Prop where
  eq : t = { s with samp := t.samp, slen := totalSamples s
                    bitpos := s.bitpos + (is.map fun i => (instrBits i).length).sum }
  others : ∀ n, n < s.slen ∨ totalSamples s ≤ n → t.samp.read n = s.samp.read n
  new : ∀ j i pred, is[j]? = some i → predict (atSample t (s.slen + j)) = some pred →
    t.samp.read (s.slen + j) = some (reconstruct s.frmP.toNat pred (instrDifference i))

theorem Completed.nil {s : State} (h : s.slen = totalSamples s) : Completed s [] s where
  eq := by rw [← h]; rfl
  others _ _ := rfl
  new j i pred hi := by simp at hi

/-- One Step on the first codeword, and the completion from the others. -/
theorem Completed.cons {s t : State} {i : Instr} {is : List Instr} {pred : Int} (hlt : s.slen < totalSamples s)
    (hp : predict s = some pred) (h : Completed (afterCodeword s pred i) is t) : Completed s (i :: is) t := by
  have hkeep : ∀ n, n ≠ s.slen → (afterCodeword s pred i).samp.read n = s.samp.read n :=
    fun n hn => Memory.read_write_ne _ _ hn
  have hold : ∀ n < s.slen, t.samp.read n = s.samp.read n := fun n hn =>
    (h.others n (.inl (Nat.lt_succ_of_lt hn))).trans (hkeep n hn.ne)
  refine ⟨?eq, fun n hn => ?others, fun j i' pred' hj hpred => ?new⟩
  case eq =>
    rw [h.eq]
    simp [afterCodeword, totalSamples, Nat.add_assoc]
  case others =>
    rcases hn with hn | hn
    · exact hold n hn
    · exact (h.others n (.inr hn)).trans (hkeep n (by omega))
  case new =>
    cases j with
    | zero =>
      have hfirst : t.samp.read s.slen = (afterCodeword s pred i).samp.read s.slen :=
        h.others _ (.inl (Nat.lt_succ_self _))
      have hsame : predict (atSample t s.slen) = predict s := by
        rw [h.eq]
        exact predict_congr hlt hold
      cases hj
      cases (hsame.trans hp).symm.trans hpred
      exact hfirst.trans (Memory.read_write_same _ _ _)
    | succ j =>
      have hindex : (afterCodeword s pred i).slen + j = s.slen + (j + 1) := by
        show s.slen + 1 + j = _; omega
      have hnew := h.new j i' pred' hj
      rw [hindex] at hnew
      exact hnew hpred

/-- A legal scan stays legal after a Step. -/
theorem scanLegal_afterCodeword {s : State} {pred : Int} {i : Instr} (hl : ScanLegal s)
    (hlt : s.slen < totalSamples s) : ScanLegal (afterCodeword s pred i) := by
  obtain ⟨hp2, hp16, hpt, hnc, hcap, -⟩ := hl
  exact ⟨hp2, hp16, hpt, hnc, hcap, hlt⟩

/-- PRSCAN on a run of codewords completes the image, by induction on the run. -/
theorem exec_prscan_completed {s : State} {is : List Instr} (hf : s.fault = 0) (hl : ScanLegal s)
    (hlen : s.slen + is.length = totalSamples s) (hrun : CodewordRun s s.bitpos s.slen is) :
    ∃ t, exec .prscan s = .next t ∧ Completed s is t := by
  induction is generalizing s with
  | nil => exact ⟨s, exec_of_complete (.inr rfl) hlen, .nil hlen⟩
  | cons i is ih =>
    obtain ⟨hns, hcw, hrest⟩ := hrun
    rw [List.length_cons] at hlen
    have hlt : s.slen < totalSamples s := by omega
    obtain ⟨pred, hp⟩ := predict_isSome s
    obtain ⟨hf', hexec⟩ := exec_prscan_appended hf (reconstructStep_codeword hl hlt hns hcw hp)
    have hlen' : (afterCodeword s pred i).slen + is.length = totalSamples s := by
      show s.slen + 1 + is.length = _; omega
    obtain ⟨t, ht, hdone⟩ := ih hf' (scanLegal_afterCodeword hl hlt) hlen' (codewordRun_congr.mpr hrest)
    exact ⟨t, hexec.trans ht, hdone.cons hlt hp⟩

/-- Settles O57: PRSCAN ends in a completed image. -/
theorem prscanDecodesCodewordRun : Obligations.PrscanDecodesCodewordRun := by
  unfold Obligations.PrscanDecodesCodewordRun
  intro s is hf hl hlen hrun
  obtain ⟨t, ht, hdone⟩ := exec_prscan_completed hf hl hlen hrun
  exact ⟨t, ht, hdone.eq, hdone.others, hdone.new⟩

/-- Settles O59: SCAN is PRSCAN after the extraction, which completes the image from an empty buffer. -/
theorem scanDecodesWholeImage : Obligations.ScanDecodesWholeImage := by
  unfold Obligations.ScanDecodesWholeImage
  intro s is hf hfit hl hlen hrun
  have hlen' : (afterExtraction s).slen + is.length = totalSamples (afterExtraction s) := (Nat.zero_add _).trans hlen
  obtain ⟨t, ht, heq, -, hnew⟩ := exec_prscan_completed (s := afterExtraction s) hf hl hlen' hrun
  have hslen0 : (afterExtraction s).slen = 0 := rfl
  simp only [hslen0, Nat.zero_add] at hnew
  refine ⟨t, (exec_scan_fits hf hfit).trans ht, (congrArg State.fault heq).trans hf, congrArg State.slen heq,
    congrArg State.bcur heq, congrArg State.bitlen heq, congrArg State.marker heq, congrArg State.ambig heq,
    (congrArg State.bitpos heq).trans (Nat.zero_add _), (congrArg State.diff heq).trans rfl,
    (congrArg State.ht heq).trans rfl, ?_, hnew⟩
  rw [heq]
  simp [SameInputs, afterExtraction]

end Sys2Proof.Machine
end

section
/-! SUPPORT. The machine with FAULT set (60_exceptions R215, R216): host writes and reads neither use nor write FAULT
and FINFO, a CMD write is blocked, and only reset leads out. -/

namespace Sys2Proof.Machine

/-! ### Host writes and reads beside FAULT and FINFO -/

/-- A HostWrite stores the same value into the same element whatever FAULT and FINFO hold. -/
theorem hostStore_withFault (op : HostOp) (s : State) (f : BitVec 4) (n : BitVec 40) :
    hostStore op { s with fault := f, finfo := n } = { hostStore op s with fault := f, finfo := n } := by
  cases op with
  | writeScnTsel c v => rw [hostStore_scnTsel, hostStore_scnTsel]; split <;> rfl
  | writeCltCnt len v => rw [hostStore_cltCnt, hostStore_cltCnt]; split <;> rfl
  | writeCltSym len i v => rw [hostStore_cltSym, hostStore_cltSym]; split <;> rfl
  | writeBytes i v => rw [hostStore_bytes, hostStore_bytes]; split <;> rfl
  | _ => rfl

/-- No host read but those of FAULT and FINFO depends on what the two hold. -/
theorem hostRead_withFault {target : HostTarget} (h1 : target ≠ .fault) (h2 : target ≠ .finfo) (s : State)
    (f : BitVec 4) (n : BitVec 40) : hostRead target { s with fault := f, finfo := n } = hostRead target s := by
  cases target with
  | fault => exact absurd rfl h1
  | finfo => exact absurd rfl h2
  | _ => rfl

/-! ### The step with FAULT set -/

/-- A CMD write is removed from the pending operations and then blocked. -/
theorem step_cmd_blocked {s : State} {w : Word} {rest : List HostOp} (hf : s.fault ≠ 0) (h : s.host = .cmd w :: rest) :
    step s = .next { s with host := rest } := by
  rw [step_op h, hostStep_cmd]
  exact issue_blocked w hf

/-- A step that only stores does so with any FAULT and FINFO, and keeps them. -/
theorem step_store_withFault {s : State} {op : HostOp} {rest : List HostOp} (h : s.host = op :: rest)
    (hcmd : ∀ w, op ≠ .cmd w) (hreset : op ≠ .reset) (f : BitVec 4) (n : BitVec 40) :
    step { s with fault := f, finfo := n } =
      .next { hostStore op { s with host := rest } with fault := f, finfo := n } := by
  rw [← hostStore_withFault]
  exact step_store h hcmd hreset

theorem step_reset {s : State} {rest : List HostOp} (h : s.host = .reset :: rest) :
    step s = .next (State.resetWith s.params (s.session + 1) rest) := by
  rw [step_op h, hostStep_reset, applyReset]

/-- Settles O12: the gate blocks commands, and host writes and reads do not look at FAULT and FINFO. -/
theorem faultGateIgnoresCommands : Obligations.FaultGateIgnoresCommands := by
  unfold Obligations.FaultGateIgnoresCommands
  intro s hf
  refine ⟨fun i => exec_blocked i hf, fun w rest hh => step_cmd_blocked hf hh, ?hostWrite,
    fun target h1 h2 => (hostRead_withFault h1 h2 s 0 0).symm⟩
  case hostWrite =>
    intro op rest t hh hcmd hreset ht
    cases (step_store_withFault hh hcmd hreset 0 0).symm.trans ht
    exact step_store_withFault hh hcmd hreset s.fault s.finfo

/-- Settles O13: the pending operation is a blocked CMD write, a write that stores elsewhere, or reset. -/
theorem onlyResetClearsFault : Obligations.OnlyResetClearsFault := by
  unfold Obligations.OnlyResetClearsFault
  refine ⟨?step, fun i s t hf hexec => ?instr, fun s rest hh => ⟨_, step_reset hh, rfl, rfl, rfl⟩⟩
  case instr => cases (exec_blocked i hf).symm.trans hexec; exact ⟨rfl, rfl⟩
  case step =>
    intro s t hf hreset hst
    cases hh : s.host with
    | nil => cases (step_idle hh).symm.trans hst; exact ⟨rfl, rfl⟩
    | cons op rest =>
      by_cases hcmd : ∃ w, op = .cmd w
      · obtain ⟨w, rfl⟩ := hcmd
        cases (step_cmd_blocked hf hh).symm.trans hst
        exact ⟨rfl, rfl⟩
      · have hne : op ≠ .reset := fun h => hreset (by rw [hh, h]; rfl)
        cases (step_store_withFault hh (not_exists.mp hcmd) hne s.fault s.finfo).symm.trans hst
        exact ⟨rfl, rfl⟩

end Sys2Proof.Machine
end

section
/-! SUPPORT. The reset input (70_reset R230) and the end of every command (R244). -/

namespace Sys2Proof.Machine

/-- R49 with the model's own fields as arguments (log 15): a reset state differs from `State.reset` in these alone. -/
theorem resetWith_eq (params : Params) (session : Nat) (host : List HostOp) :
    State.resetWith params session host =
      { State.reset with params := params, session := session, host := host } := rfl

/-- Settles O2: a pending reset input leads to `State.resetWith`, which is the reset state but for the own fields. -/
theorem resetInputRestoresResetState : Obligations.ResetInputRestoresResetState := by
  unfold Obligations.ResetInputRestoresResetState
  intro s rest hh
  rw [step_reset hh, resetWith_eq]

/-- Settles O14: an instruction ends where its body does, raised or not, and behind the fault gate where it began. -/
theorem everyInstructionTerminates : Obligations.EveryInstructionTerminates := by
  unfold Obligations.EveryInstructionTerminates
  exact fun i s => ⟨_, exec_next i s⟩

end Sys2Proof.Machine
end
